-- ==== Sys2Proof/Word.lean ====
section
/-! DEFINITION. The words of the DCI block (spec/00_scope.md R10): the 32-bit word, the byte, and the three access
widths. -/

namespace Sys2Proof

/-- An unsigned 32-bit value, the spec's Word32; arithmetic is modulo 2^32 (R10, R76). -/
abbrev Word := BitVec 32

/-- A byte. -/
abbrev Byte := BitVec 8

/-- The three access widths of R10: "byte", "word" and "long" are 8, 16 and 32 bits. -/
inductive Width where
  | byte
  | word
  | long
  deriving DecidableEq, Repr

/-- The width in bytes. -/
def Width.bytes : Width → Nat
  | .byte => 1
  | .word => 2
  | .long => 4

end Sys2Proof
end

