-- ==== Sys2Proof/Config.lean ====
section
/-! DEFINITION. What an implementation fixes: the types of the parameters of spec/00_scope.md R4 to R9 and of the
platform's page map (R12, R69), and the free values, which are constants without a body so that no proof can see what
they are. The values the spec gives as defaults stand in Machine/Platform.lean. -/

namespace Sys2Proof

/-- A range of 64KB pages, both ends included, by the 12-bit page key of R12. -/
structure PageRun where
  first : Nat
  last  : Nat
  deriving DecidableEq, Repr

/-- What answers the accesses to a page (R12, R69): RAM, no handler, or a handler the platform decides. -/
inductive PageKind where
  | ram
  | unmapped
  | handler
  deriving DecidableEq, Repr

/-- One entry of the platform's page map. -/
structure PageMapEntry where
  run  : PageRun
  kind : PageKind
  deriving DecidableEq, Repr

/-- The nine region classes of R4. -/
inductive Region where
  | vdp1ram
  | vdp1reg
  | vdp2ram
  | vdp2reg
  | sndram
  | sndreg
  | hwram
  | lwram
  | other
  deriving DecidableEq, Repr

/-- The place of a region in the cost table. -/
def Region.index : Region → Fin 9
  | .vdp1ram => 0
  | .vdp1reg => 1
  | .vdp2ram => 2
  | .vdp2reg => 3
  | .sndram  => 4
  | .sndreg  => 5
  | .hwram   => 6
  | .lwram   => 7
  | .other   => 8

/-- One row of a REGION table: the bus addresses (a[27:0]) from `lo` to `hi` belong to `region` (R212). -/
structure RegionRow where
  region : Region
  lo     : Nat
  hi     : Nat
  deriving DecidableEq, Repr

/-- TCR_STEP16 of R7: the transfer count falls by 1 or by 4 for one 16-byte unit. -/
inductive Step16 where
  | one
  | four
  deriving DecidableEq, Repr

/-- TIE of R8: the default (the entry requested earliest), or an order the platform decides, given by the free value
Config.tieRank. -/
inductive Tie where
  | earliest
  | platform
  deriving DecidableEq, Repr

/-- The pair LRU of R9, each function written out as its table. The pair of rules R121 and R122 is documentedLru; a
platform may have any other. -/
structure LruPair where
  /-- LRU_TOUCH(x, w) stands in row x, column w. -/
  touch  : Vector (Vector (BitVec 6) 4) 64
  /-- LRU_VICTIM(x, tw) stands in row x, column 0 for tw = 0 and column 1 for tw = 1. -/
  victim : Vector (Vector (Fin 4) 2) 64
  deriving DecidableEq, Repr

/-- The parameters of R4 to R9. They are fixed for a machine; no step changes them. -/
structure Params where
  /-- WINDOW (R5), as its maximal runs of pages in ascending order. -/
  window     : List PageRun
  /-- KICK_BUDGET (R6). -/
  kickBudget : Nat
  /-- TCR_STEP16 (R7). -/
  tcrStep16  : Step16
  /-- IRQ_CAP (R8). -/
  irqCap     : Nat
  /-- TIE (R8). -/
  tie        : Tie
  /-- REGION (R4, R212): the first row that holds the address decides; none is OTHER. -/
  regions    : List RegionRow
  /-- The cost table of EAT (R4), by source region and destination region. -/
  eatCosts   : Vector (Vector Nat 9) 9
  /-- LRU (R9). -/
  lru        : LruPair
  deriving DecidableEq, Repr

/-- FREE VALUE (log 9): the k-th value a handler page returns (R12, spec/93_implementation_defined.md U14). -/
opaque Config.busDraw : Nat → Word

/-- FREE VALUE (log 4): the cost table of EAT in the state after reset; R4 gives no default cost. -/
opaque Config.eatCosts : Vector (Vector Nat 9) 9

/-- FREE VALUE (log 5): KICK_BUDGET in the state after reset; R6 gives no budget. -/
opaque Config.kickBudget : Nat

/-- FREE VALUE (log 6): the platform's order of pending entries of equal level, by vector, level and seq; a smaller
rank is shown first (R8). -/
opaque Config.tieRank : BitVec 8 → Nat → Nat → Int

/-- FREE VALUE (log 23): DELTA of the reserved address mode 3, by the unit size; no run of the block evaluates it. -/
opaque Config.deltaReserved : Nat → Word

end Sys2Proof
end

