-- ==== Sys2Proof/Syntax.lean ====
section
/-! DEFINITION. The commands of the block, one constructor per row of spec/opcode_table.json (spec/30_encoding.md R90
to R98). An address operand is the payload A without the class bits that the row fixes: 29 bits, 30 for the reserved
classes. `wd` is the 32-bit write data WD; a command uses its low 8, 16 or 32 bits (R92). -/

namespace Sys2Proof

/-- The block's command set. -/
inductive Instr where
  -- R128 to R130: read through the cached area
  | crdB (a : BitVec 29)
  | crdW (a : BitVec 29)
  | crdL (a : BitVec 29)
  -- R131 to R133: write through the cached area
  | cwrB (a : BitVec 29) (wd : Word)
  | cwrW (a : BitVec 29) (wd : Word)
  | cwrL (a : BitVec 29) (wd : Word)
  -- R134 to R136: uncached read
  | urdB (a : BitVec 29)
  | urdW (a : BitVec 29)
  | urdL (a : BitVec 29)
  -- R137 to R139: uncached write
  | uwrB (a : BitVec 29) (wd : Word)
  | uwrW (a : BitVec 29) (wd : Word)
  | uwrL (a : BitVec 29) (wd : Word)
  -- R140 to R142: purge one cache entry
  | purgeB (a : BitVec 29) (wd : Word)
  | purgeW (a : BitVec 29) (wd : Word)
  | purgeL (a : BitVec 29) (wd : Word)
  -- R143 to R145: read of the purge area
  | prdB (a : BitVec 29)
  | prdW (a : BitVec 29)
  | prdL (a : BitVec 29)
  -- R146: read one Address Array word
  | aardL (a : BitVec 29)
  -- R147: write one Address Array word
  | aawrL (a : BitVec 29) (wd : Word)
  -- R148: reserved widths of the Address Array
  | aardB (a : BitVec 29)
  | aardW (a : BitVec 29)
  | aawrB (a : BitVec 29) (wd : Word)
  | aawrW (a : BitVec 29) (wd : Word)
  -- R149 to R151: Data Array read
  | dardB (a : BitVec 29)
  | dardW (a : BitVec 29)
  | dardL (a : BitVec 29)
  -- R152 to R154: Data Array write
  | dawrB (a : BitVec 29) (wd : Word)
  | dawrW (a : BitVec 29) (wd : Word)
  | dawrL (a : BitVec 29) (wd : Word)
  -- R155: read of a reserved class
  | rsvrdB (a : BitVec 30)
  | rsvrdW (a : BitVec 30)
  | rsvrdL (a : BitVec 30)
  -- R156: write to a reserved class
  | rsvwrB (a : BitVec 30) (wd : Word)
  | rsvwrW (a : BitVec 30) (wd : Word)
  | rsvwrL (a : BitVec 30) (wd : Word)
  -- R161 to R187: the 26 register commands
  | rdSar0
  | wrSar0 (wd : Word)
  | rdDar0
  | wrDar0 (wd : Word)
  | rdTcr0
  | wrTcr0 (wd : Word)
  | rdChcr0
  | wrChcr0 (wd : Word)
  | rdSar1
  | wrSar1 (wd : Word)
  | rdDar1
  | wrDar1 (wd : Word)
  | rdTcr1
  | wrTcr1 (wd : Word)
  | rdChcr1
  | wrChcr1 (wd : Word)
  | rdVcrdma0
  | wrVcrdma0 (wd : Word)
  | rdVcrdma1
  | wrVcrdma1 (wd : Word)
  | rdDmaor
  | wrDmaor (wd : Word)
  | rdCcr
  | wrCcr (wd : Word)
  | rdIpra
  | wrIpra (wd : Word)
  -- R188: read of the rest of class 111
  | regrsvRdB (a : BitVec 29)
  | regrsvRdW (a : BitVec 29)
  | regrsvRdL (a : BitVec 29)
  -- R189: write of the rest of class 111
  | regrsvWrB (a : BitVec 29) (wd : Word)
  | regrsvWrW (a : BitVec 29) (wd : Word)
  | regrsvWrL (a : BitVec 29) (wd : Word)
  -- R203: one arbitration pass with budget c
  | execPass (c : BitVec 32)
  -- R232: interrupt request, level 0 to 15
  | irq (v : BitVec 8) (lv : BitVec 4)
  -- R232: interrupt request, level 16
  | irqNmi (v : BitVec 8)
  -- R235: acknowledge under mask m
  | iack (m : BitVec 4)
  -- R281, R280: the reset commands
  | reset
  | poweron
  -- R209, R210: the flag latch events
  | latchNmif
  | latchAe
  -- R102: SZ = 3, undecodable (RW, and CW[32:0])
  | busSz3 (rw : BitVec 1) (low : BitVec 33)
  -- R102: CLS = 7, undecodable (CW[35:0])
  | clsRsv7 (low : BitVec 36)
  -- R102: CLS = 8 to 15, undecodable (CW[38:0])
  | clsRsv8 (low : BitVec 39)
  deriving DecidableEq, Repr

end Sys2Proof
end

