-- ==== Sys2Proof/WellFormed.lean ====
section
/-! DEFINITION. Which terms of Instr stand for a command word. Operand widths are in the types, so one check is left:
a row of the rest of class 111 does not stand for one of the 13 registers at the register's own width, whose exact row
wins (spec/30_encoding.md R96, R99). Alignment is not a matter of form: a misaligned command decodes to its row and is
then outside the admitted set (R102); see Safety.lean. -/

namespace Sys2Proof

/-- The addresses of R96 that hold a register of the given access width. -/
def registerAddresses : Width → List Word
  | .byte => [0xFFFFFE92#32]
  | .word => [0xFFFFFEE2#32]
  | .long => [0xFFFFFF80#32, 0xFFFFFF84#32, 0xFFFFFF88#32, 0xFFFFFF8C#32, 0xFFFFFF90#32, 0xFFFFFF94#32,
              0xFFFFFF98#32, 0xFFFFFF9C#32, 0xFFFFFFA0#32, 0xFFFFFFA8#32, 0xFFFFFFB0#32]

/-- The class-111 address with the low bits `a` is no register of width `n`. -/
def notRegister (n : Width) (a : BitVec 29) : Bool :=
  !(registerAddresses n).contains (0b111#3 ++ a)

/-- The term stands for a command word. -/
def Instr.wellFormed : Instr → Bool
  | .regrsvRdB a => notRegister .byte a
  | .regrsvRdW a => notRegister .word a
  | .regrsvRdL a => notRegister .long a
  | .regrsvWrB a _ => notRegister .byte a
  | .regrsvWrW a _ => notRegister .word a
  | .regrsvWrL a _ => notRegister .long a
  | _ => true

end Sys2Proof
end

