-- ==== Sys2Proof/Decode.lean ====
section
/-! DEFINITION. The decoder and the encoder (spec/30_encoding.md R90 to R102). A command is a 40-bit command word CW
and, for a bus write, a 32-bit write data WD. Decoding depends on nothing else (R99) and is total: a word that matches
no row of spec/opcode_table.json is rejected by name. -/

namespace Sys2Proof

/-- Why a command word matches no row (R102). -/
inductive DecodeError where
  /-- A BUS word with bit 32 set. -/
  | bit32
  /-- A port command (CLS 1 to 6) with one of CW[35:32] set. -/
  | portBits
  /-- A port command with a payload bit set that R98 fixes to 0. -/
  | payload
  /-- IRQ with a level 17 to 31. -/
  | level
  deriving DecidableEq, Repr

/-- Class 000, the cached area. -/
def decodeCached (wr : Bool) (n : Width) (a : BitVec 29) (wd : Word) : Instr :=
  match wr, n with
  | false, .byte => .crdB a
  | false, .word => .crdW a
  | false, .long => .crdL a
  | true, .byte => .cwrB a wd
  | true, .word => .cwrW a wd
  | true, .long => .cwrL a wd

/-- Class 001, the uncached mirror. -/
def decodeUncached (wr : Bool) (n : Width) (a : BitVec 29) (wd : Word) : Instr :=
  match wr, n with
  | false, .byte => .urdB a
  | false, .word => .urdW a
  | false, .long => .urdL a
  | true, .byte => .uwrB a wd
  | true, .word => .uwrW a wd
  | true, .long => .uwrL a wd

/-- Class 010, the purge area. -/
def decodePurge (wr : Bool) (n : Width) (a : BitVec 29) (wd : Word) : Instr :=
  match wr, n with
  | false, .byte => .prdB a
  | false, .word => .prdW a
  | false, .long => .prdL a
  | true, .byte => .purgeB a wd
  | true, .word => .purgeW a wd
  | true, .long => .purgeL a wd

/-- Class 011, the Address Array. -/
def decodeAddressArray (wr : Bool) (n : Width) (a : BitVec 29) (wd : Word) : Instr :=
  match wr, n with
  | false, .byte => .aardB a
  | false, .word => .aardW a
  | false, .long => .aardL a
  | true, .byte => .aawrB a wd
  | true, .word => .aawrW a wd
  | true, .long => .aawrL a wd

/-- Classes 100 and 101, reserved. -/
def decodeReserved (wr : Bool) (n : Width) (a : BitVec 30) (wd : Word) : Instr :=
  match wr, n with
  | false, .byte => .rsvrdB a
  | false, .word => .rsvrdW a
  | false, .long => .rsvrdL a
  | true, .byte => .rsvwrB a wd
  | true, .word => .rsvwrW a wd
  | true, .long => .rsvwrL a wd

/-- Class 110, the Data Array. -/
def decodeDataArray (wr : Bool) (n : Width) (a : BitVec 29) (wd : Word) : Instr :=
  match wr, n with
  | false, .byte => .dardB a
  | false, .word => .dardW a
  | false, .long => .dardL a
  | true, .byte => .dawrB a wd
  | true, .word => .dawrW a wd
  | true, .long => .dawrL a wd

/-- The long read of class 111 at the full address `p` (R96): the exact register rows win over REGRSV (R99). -/
def decodeOnchipReadLong (p : Word) : Instr :=
  if p = 0xFFFFFF80#32 then .rdSar0
  else if p = 0xFFFFFF84#32 then .rdDar0
  else if p = 0xFFFFFF88#32 then .rdTcr0
  else if p = 0xFFFFFF8C#32 then .rdChcr0
  else if p = 0xFFFFFF90#32 then .rdSar1
  else if p = 0xFFFFFF94#32 then .rdDar1
  else if p = 0xFFFFFF98#32 then .rdTcr1
  else if p = 0xFFFFFF9C#32 then .rdChcr1
  else if p = 0xFFFFFFA0#32 then .rdVcrdma0
  else if p = 0xFFFFFFA8#32 then .rdVcrdma1
  else if p = 0xFFFFFFB0#32 then .rdDmaor
  else .regrsvRdL (p.extractLsb' 0 29)

/-- The long write of class 111 at the full address `p` (R96). -/
def decodeOnchipWriteLong (p wd : Word) : Instr :=
  if p = 0xFFFFFF80#32 then .wrSar0 wd
  else if p = 0xFFFFFF84#32 then .wrDar0 wd
  else if p = 0xFFFFFF88#32 then .wrTcr0 wd
  else if p = 0xFFFFFF8C#32 then .wrChcr0 wd
  else if p = 0xFFFFFF90#32 then .wrSar1 wd
  else if p = 0xFFFFFF94#32 then .wrDar1 wd
  else if p = 0xFFFFFF98#32 then .wrTcr1 wd
  else if p = 0xFFFFFF9C#32 then .wrChcr1 wd
  else if p = 0xFFFFFFA0#32 then .wrVcrdma0 wd
  else if p = 0xFFFFFFA8#32 then .wrVcrdma1 wd
  else if p = 0xFFFFFFB0#32 then .wrDmaor wd
  else .regrsvWrL (p.extractLsb' 0 29) wd

/-- Class 111, the onchip window: each register answers to its full address and one width (R96). -/
def decodeOnchip (wr : Bool) (n : Width) (p wd : Word) : Instr :=
  match wr, n with
  | false, .byte => if p = 0xFFFFFE92#32 then .rdCcr else .regrsvRdB (p.extractLsb' 0 29)
  | false, .word => if p = 0xFFFFFEE2#32 then .rdIpra else .regrsvRdW (p.extractLsb' 0 29)
  | false, .long => decodeOnchipReadLong p
  | true, .byte => if p = 0xFFFFFE92#32 then .wrCcr wd else .regrsvWrB (p.extractLsb' 0 29) wd
  | true, .word => if p = 0xFFFFFEE2#32 then .wrIpra wd else .regrsvWrW (p.extractLsb' 0 29) wd
  | true, .long => decodeOnchipWriteLong p wd

/-- The eight address classes by A[31:29] (spec/20_memory.md R60), in the order of R100. -/
def decodeBus (wr : Bool) (n : Width) (p wd : Word) : Instr :=
  let a := p.extractLsb' 0 29
  match p.extractLsb' 29 3 with
  | 0b000#3 => decodeCached wr n a wd
  | 0b001#3 => decodeUncached wr n a wd
  | 0b010#3 => decodePurge wr n a wd
  | 0b011#3 => decodeAddressArray wr n a wd
  | 0b110#3 => decodeDataArray wr n a wd
  | 0b111#3 => decodeOnchip wr n p wd
  | _ => decodeReserved wr n (p.extractLsb' 0 30) wd

/-- The access width of the SZ field; SZ = 3 is no width (R90). -/
def widthOf (sz : BitVec 2) : Option Width :=
  match sz with
  | 0b00#2 => some .byte
  | 0b01#2 => some .word
  | 0b10#2 => some .long
  | _ => none

/-- The port commands, by CLS 1 to 6 and the payload (R98). -/
def decodePort (cls : BitVec 4) (p : Word) : Except DecodeError Instr :=
  match cls with
  | 1#4 => .ok (.execPass p)
  | 2#4 =>
    if p.extractLsb' 13 19 ≠ 0#19 then .error .payload
    else if p.extractLsb' 12 1 = 0#1 then .ok (.irq (p.extractLsb' 0 8) (p.extractLsb' 8 4))
    else if p.extractLsb' 8 4 = 0#4 then .ok (.irqNmi (p.extractLsb' 0 8))
    else .error .level
  | 3#4 => if p.extractLsb' 4 28 = 0#28 then .ok (.iack (p.extractLsb' 0 4)) else .error .payload
  | 4#4 => if p = 0#32 then .ok .reset else .error .payload
  | 5#4 => if p = 0#32 then .ok .poweron else .error .payload
  | _ => if p = 0#32 then .ok .latchNmif else if p = 1#32 then .ok .latchAe else .error .payload

/-- The decoder (R99): the row of spec/opcode_table.json that the command word matches, with its operands. -/
def decode (cw : BitVec 40) (wd : Word) : Except DecodeError Instr :=
  let cls := cw.extractLsb' 36 4
  let p := cw.extractLsb' 0 32
  if cw.extractLsb' 39 1 = 1#1 then .ok (.clsRsv8 (cw.extractLsb' 0 39))
  else if cls = 7#4 then .ok (.clsRsv7 (cw.extractLsb' 0 36))
  else if cls = 0#4 then
    match widthOf (cw.extractLsb' 33 2) with
    | none => .ok (.busSz3 (cw.extractLsb' 35 1) (cw.extractLsb' 0 33))
    | some n =>
      if cw.extractLsb' 32 1 = 0#1 then .ok (decodeBus (cw.extractLsb' 35 1 = 1#1) n p wd)
      else .error .bit32
  else if cw.extractLsb' 32 4 = 0#4 then decodePort cls p
  else .error .portBits

/-- The encoder: the command word and the write data of a command (R90 to R98). A read and a port command have no
write data; the encoder gives 0. -/
def encode : Instr → BitVec 40 × Word
  | .crdB a => (0x00#8 ++ 0b000#3 ++ a, 0#32)
  | .crdW a => (0x02#8 ++ 0b000#3 ++ a, 0#32)
  | .crdL a => (0x04#8 ++ 0b000#3 ++ a, 0#32)
  | .cwrB a wd => (0x08#8 ++ 0b000#3 ++ a, wd)
  | .cwrW a wd => (0x0A#8 ++ 0b000#3 ++ a, wd)
  | .cwrL a wd => (0x0C#8 ++ 0b000#3 ++ a, wd)
  | .urdB a => (0x00#8 ++ 0b001#3 ++ a, 0#32)
  | .urdW a => (0x02#8 ++ 0b001#3 ++ a, 0#32)
  | .urdL a => (0x04#8 ++ 0b001#3 ++ a, 0#32)
  | .uwrB a wd => (0x08#8 ++ 0b001#3 ++ a, wd)
  | .uwrW a wd => (0x0A#8 ++ 0b001#3 ++ a, wd)
  | .uwrL a wd => (0x0C#8 ++ 0b001#3 ++ a, wd)
  | .purgeB a wd => (0x08#8 ++ 0b010#3 ++ a, wd)
  | .purgeW a wd => (0x0A#8 ++ 0b010#3 ++ a, wd)
  | .purgeL a wd => (0x0C#8 ++ 0b010#3 ++ a, wd)
  | .prdB a => (0x00#8 ++ 0b010#3 ++ a, 0#32)
  | .prdW a => (0x02#8 ++ 0b010#3 ++ a, 0#32)
  | .prdL a => (0x04#8 ++ 0b010#3 ++ a, 0#32)
  | .aardL a => (0x04#8 ++ 0b011#3 ++ a, 0#32)
  | .aawrL a wd => (0x0C#8 ++ 0b011#3 ++ a, wd)
  | .aardB a => (0x00#8 ++ 0b011#3 ++ a, 0#32)
  | .aardW a => (0x02#8 ++ 0b011#3 ++ a, 0#32)
  | .aawrB a wd => (0x08#8 ++ 0b011#3 ++ a, wd)
  | .aawrW a wd => (0x0A#8 ++ 0b011#3 ++ a, wd)
  | .dardB a => (0x00#8 ++ 0b110#3 ++ a, 0#32)
  | .dardW a => (0x02#8 ++ 0b110#3 ++ a, 0#32)
  | .dardL a => (0x04#8 ++ 0b110#3 ++ a, 0#32)
  | .dawrB a wd => (0x08#8 ++ 0b110#3 ++ a, wd)
  | .dawrW a wd => (0x0A#8 ++ 0b110#3 ++ a, wd)
  | .dawrL a wd => (0x0C#8 ++ 0b110#3 ++ a, wd)
  | .rsvrdB a => (0x00#8 ++ 0b10#2 ++ a, 0#32)
  | .rsvrdW a => (0x02#8 ++ 0b10#2 ++ a, 0#32)
  | .rsvrdL a => (0x04#8 ++ 0b10#2 ++ a, 0#32)
  | .rsvwrB a wd => (0x08#8 ++ 0b10#2 ++ a, wd)
  | .rsvwrW a wd => (0x0A#8 ++ 0b10#2 ++ a, wd)
  | .rsvwrL a wd => (0x0C#8 ++ 0b10#2 ++ a, wd)
  | .rdSar0 => (0x04FFFFFF80#40, 0#32)
  | .wrSar0 wd => (0x0CFFFFFF80#40, wd)
  | .rdDar0 => (0x04FFFFFF84#40, 0#32)
  | .wrDar0 wd => (0x0CFFFFFF84#40, wd)
  | .rdTcr0 => (0x04FFFFFF88#40, 0#32)
  | .wrTcr0 wd => (0x0CFFFFFF88#40, wd)
  | .rdChcr0 => (0x04FFFFFF8C#40, 0#32)
  | .wrChcr0 wd => (0x0CFFFFFF8C#40, wd)
  | .rdSar1 => (0x04FFFFFF90#40, 0#32)
  | .wrSar1 wd => (0x0CFFFFFF90#40, wd)
  | .rdDar1 => (0x04FFFFFF94#40, 0#32)
  | .wrDar1 wd => (0x0CFFFFFF94#40, wd)
  | .rdTcr1 => (0x04FFFFFF98#40, 0#32)
  | .wrTcr1 wd => (0x0CFFFFFF98#40, wd)
  | .rdChcr1 => (0x04FFFFFF9C#40, 0#32)
  | .wrChcr1 wd => (0x0CFFFFFF9C#40, wd)
  | .rdVcrdma0 => (0x04FFFFFFA0#40, 0#32)
  | .wrVcrdma0 wd => (0x0CFFFFFFA0#40, wd)
  | .rdVcrdma1 => (0x04FFFFFFA8#40, 0#32)
  | .wrVcrdma1 wd => (0x0CFFFFFFA8#40, wd)
  | .rdDmaor => (0x04FFFFFFB0#40, 0#32)
  | .wrDmaor wd => (0x0CFFFFFFB0#40, wd)
  | .rdCcr => (0x00FFFFFE92#40, 0#32)
  | .wrCcr wd => (0x08FFFFFE92#40, wd)
  | .rdIpra => (0x02FFFFFEE2#40, 0#32)
  | .wrIpra wd => (0x0AFFFFFEE2#40, wd)
  | .regrsvRdB a => (0x00#8 ++ 0b111#3 ++ a, 0#32)
  | .regrsvRdW a => (0x02#8 ++ 0b111#3 ++ a, 0#32)
  | .regrsvRdL a => (0x04#8 ++ 0b111#3 ++ a, 0#32)
  | .regrsvWrB a wd => (0x08#8 ++ 0b111#3 ++ a, wd)
  | .regrsvWrW a wd => (0x0A#8 ++ 0b111#3 ++ a, wd)
  | .regrsvWrL a wd => (0x0C#8 ++ 0b111#3 ++ a, wd)
  | .execPass c => (0x10#8 ++ c, 0#32)
  | .irq v lv => (0x2000000#28 ++ lv ++ v, 0#32)
  | .irqNmi v => (0x20000010#32 ++ v, 0#32)
  | .iack m => (0x300000000#36 ++ m, 0#32)
  | .reset => (0x4000000000#40, 0#32)
  | .poweron => (0x5000000000#40, 0#32)
  | .latchNmif => (0x6000000000#40, 0#32)
  | .latchAe => (0x6000000001#40, 0#32)
  | .busSz3 rw low => (0x0#4 ++ rw ++ 0b11#2 ++ low, 0#32)
  | .clsRsv7 low => (0x7#4 ++ low, 0#32)
  | .clsRsv8 low => (0b1#1 ++ low, 0#32)

/-- A row of spec/opcode_table.json: the command words `cw` with `cw &&& mask = pattern` (R99). -/
structure Row where
  pattern : BitVec 40
  mask    : BitVec 40
  deriving DecidableEq, Repr

/-- The row's "match" and "mask" in spec/opcode_table.json. -/
def Instr.row : Instr → Row
  | .crdB _ => ⟨0x0000000000#40, 0xFFE0000000#40⟩
  | .crdW _ => ⟨0x0200000000#40, 0xFFE0000000#40⟩
  | .crdL _ => ⟨0x0400000000#40, 0xFFE0000000#40⟩
  | .cwrB _ _ => ⟨0x0800000000#40, 0xFFE0000000#40⟩
  | .cwrW _ _ => ⟨0x0A00000000#40, 0xFFE0000000#40⟩
  | .cwrL _ _ => ⟨0x0C00000000#40, 0xFFE0000000#40⟩
  | .urdB _ => ⟨0x0020000000#40, 0xFFE0000000#40⟩
  | .urdW _ => ⟨0x0220000000#40, 0xFFE0000000#40⟩
  | .urdL _ => ⟨0x0420000000#40, 0xFFE0000000#40⟩
  | .uwrB _ _ => ⟨0x0820000000#40, 0xFFE0000000#40⟩
  | .uwrW _ _ => ⟨0x0A20000000#40, 0xFFE0000000#40⟩
  | .uwrL _ _ => ⟨0x0C20000000#40, 0xFFE0000000#40⟩
  | .purgeB _ _ => ⟨0x0840000000#40, 0xFFE0000000#40⟩
  | .purgeW _ _ => ⟨0x0A40000000#40, 0xFFE0000000#40⟩
  | .purgeL _ _ => ⟨0x0C40000000#40, 0xFFE0000000#40⟩
  | .prdB _ => ⟨0x0040000000#40, 0xFFE0000000#40⟩
  | .prdW _ => ⟨0x0240000000#40, 0xFFE0000000#40⟩
  | .prdL _ => ⟨0x0440000000#40, 0xFFE0000000#40⟩
  | .aardL _ => ⟨0x0460000000#40, 0xFFE0000000#40⟩
  | .aawrL _ _ => ⟨0x0C60000000#40, 0xFFE0000000#40⟩
  | .aardB _ => ⟨0x0060000000#40, 0xFFE0000000#40⟩
  | .aardW _ => ⟨0x0260000000#40, 0xFFE0000000#40⟩
  | .aawrB _ _ => ⟨0x0860000000#40, 0xFFE0000000#40⟩
  | .aawrW _ _ => ⟨0x0A60000000#40, 0xFFE0000000#40⟩
  | .dardB _ => ⟨0x00C0000000#40, 0xFFE0000000#40⟩
  | .dardW _ => ⟨0x02C0000000#40, 0xFFE0000000#40⟩
  | .dardL _ => ⟨0x04C0000000#40, 0xFFE0000000#40⟩
  | .dawrB _ _ => ⟨0x08C0000000#40, 0xFFE0000000#40⟩
  | .dawrW _ _ => ⟨0x0AC0000000#40, 0xFFE0000000#40⟩
  | .dawrL _ _ => ⟨0x0CC0000000#40, 0xFFE0000000#40⟩
  | .rsvrdB _ => ⟨0x0080000000#40, 0xFFC0000000#40⟩
  | .rsvrdW _ => ⟨0x0280000000#40, 0xFFC0000000#40⟩
  | .rsvrdL _ => ⟨0x0480000000#40, 0xFFC0000000#40⟩
  | .rsvwrB _ _ => ⟨0x0880000000#40, 0xFFC0000000#40⟩
  | .rsvwrW _ _ => ⟨0x0A80000000#40, 0xFFC0000000#40⟩
  | .rsvwrL _ _ => ⟨0x0C80000000#40, 0xFFC0000000#40⟩
  | .rdSar0 => ⟨0x04FFFFFF80#40, 0xFFFFFFFFFF#40⟩
  | .wrSar0 _ => ⟨0x0CFFFFFF80#40, 0xFFFFFFFFFF#40⟩
  | .rdDar0 => ⟨0x04FFFFFF84#40, 0xFFFFFFFFFF#40⟩
  | .wrDar0 _ => ⟨0x0CFFFFFF84#40, 0xFFFFFFFFFF#40⟩
  | .rdTcr0 => ⟨0x04FFFFFF88#40, 0xFFFFFFFFFF#40⟩
  | .wrTcr0 _ => ⟨0x0CFFFFFF88#40, 0xFFFFFFFFFF#40⟩
  | .rdChcr0 => ⟨0x04FFFFFF8C#40, 0xFFFFFFFFFF#40⟩
  | .wrChcr0 _ => ⟨0x0CFFFFFF8C#40, 0xFFFFFFFFFF#40⟩
  | .rdSar1 => ⟨0x04FFFFFF90#40, 0xFFFFFFFFFF#40⟩
  | .wrSar1 _ => ⟨0x0CFFFFFF90#40, 0xFFFFFFFFFF#40⟩
  | .rdDar1 => ⟨0x04FFFFFF94#40, 0xFFFFFFFFFF#40⟩
  | .wrDar1 _ => ⟨0x0CFFFFFF94#40, 0xFFFFFFFFFF#40⟩
  | .rdTcr1 => ⟨0x04FFFFFF98#40, 0xFFFFFFFFFF#40⟩
  | .wrTcr1 _ => ⟨0x0CFFFFFF98#40, 0xFFFFFFFFFF#40⟩
  | .rdChcr1 => ⟨0x04FFFFFF9C#40, 0xFFFFFFFFFF#40⟩
  | .wrChcr1 _ => ⟨0x0CFFFFFF9C#40, 0xFFFFFFFFFF#40⟩
  | .rdVcrdma0 => ⟨0x04FFFFFFA0#40, 0xFFFFFFFFFF#40⟩
  | .wrVcrdma0 _ => ⟨0x0CFFFFFFA0#40, 0xFFFFFFFFFF#40⟩
  | .rdVcrdma1 => ⟨0x04FFFFFFA8#40, 0xFFFFFFFFFF#40⟩
  | .wrVcrdma1 _ => ⟨0x0CFFFFFFA8#40, 0xFFFFFFFFFF#40⟩
  | .rdDmaor => ⟨0x04FFFFFFB0#40, 0xFFFFFFFFFF#40⟩
  | .wrDmaor _ => ⟨0x0CFFFFFFB0#40, 0xFFFFFFFFFF#40⟩
  | .rdCcr => ⟨0x00FFFFFE92#40, 0xFFFFFFFFFF#40⟩
  | .wrCcr _ => ⟨0x08FFFFFE92#40, 0xFFFFFFFFFF#40⟩
  | .rdIpra => ⟨0x02FFFFFEE2#40, 0xFFFFFFFFFF#40⟩
  | .wrIpra _ => ⟨0x0AFFFFFEE2#40, 0xFFFFFFFFFF#40⟩
  | .regrsvRdB _ => ⟨0x00E0000000#40, 0xFFE0000000#40⟩
  | .regrsvRdW _ => ⟨0x02E0000000#40, 0xFFE0000000#40⟩
  | .regrsvRdL _ => ⟨0x04E0000000#40, 0xFFE0000000#40⟩
  | .regrsvWrB _ _ => ⟨0x08E0000000#40, 0xFFE0000000#40⟩
  | .regrsvWrW _ _ => ⟨0x0AE0000000#40, 0xFFE0000000#40⟩
  | .regrsvWrL _ _ => ⟨0x0CE0000000#40, 0xFFE0000000#40⟩
  | .execPass _ => ⟨0x1000000000#40, 0xFF00000000#40⟩
  | .irq _ _ => ⟨0x2000000000#40, 0xFFFFFFF000#40⟩
  | .irqNmi _ => ⟨0x2000001000#40, 0xFFFFFFFF00#40⟩
  | .iack _ => ⟨0x3000000000#40, 0xFFFFFFFFF0#40⟩
  | .reset => ⟨0x4000000000#40, 0xFFFFFFFFFF#40⟩
  | .poweron => ⟨0x5000000000#40, 0xFFFFFFFFFF#40⟩
  | .latchNmif => ⟨0x6000000000#40, 0xFFFFFFFFFF#40⟩
  | .latchAe => ⟨0x6000000001#40, 0xFFFFFFFFFF#40⟩
  | .busSz3 _ _ => ⟨0x0600000000#40, 0xF600000000#40⟩
  | .clsRsv7 _ => ⟨0x7000000000#40, 0xF000000000#40⟩
  | .clsRsv8 _ => ⟨0x8000000000#40, 0x8000000000#40⟩

/-- The row matches the command word. -/
def Row.hits (r : Row) (cw : BitVec 40) : Bool :=
  cw &&& r.mask == r.pattern

/-- How many mask bits are 1: of several rows that match, the one with the most is the command (R99). -/
def Row.weight (r : Row) : Nat :=
  ((List.range 40).filter (fun i => r.mask.getLsbD i)).length

/-- The command the decoder reads from a table word: `w`'s bits 39..0 are CW and the bits above are WD, and every bit
above `nbits` is 0. -/
def decodeTableWord (nbits w : Nat) : Option Instr :=
  let v := w % 2 ^ nbits
  match decode (BitVec.ofNat 40 v) (BitVec.ofNat 32 (v / 2 ^ 40)) with
  | .ok i => some i
  | .error _ => none

end Sys2Proof
end

