-- ==== Sys2Proof/Machine/Lru.lean ====
section
/-! DEFINITION. The LRU pair of spec/00_scope.md R9: how the block applies whichever pair the parameters hold, and the
pair the spec fixes (spec/40_cache_ops.md R121, R122; log 16), the default. -/

namespace Sys2Proof

/-- LRU_TOUCH(x, w) of a pair. -/
def LruPair.touched (p : LruPair) (x : BitVec 6) (w : Fin 4) : BitVec 6 :=
  (p.touch[x.toFin])[w]

/-- LRU_VICTIM(x, tw) of a pair. -/
def LruPair.victimOf (p : LruPair) (x : BitVec 6) (tw : Bool) : Fin 4 :=
  let row := p.victim[x.toFin]
  if tw then row[1] else row[0]

/-- The pair whose functions are `touch` and `victim`. -/
def LruPair.ofFunctions (touch : BitVec 6 → Fin 4 → BitVec 6) (victim : BitVec 6 → Bool → Fin 4) : LruPair where
  touch := Vector.ofFn fun x => Vector.ofFn fun w => touch (BitVec.ofFin x) w
  victim := Vector.ofFn fun x => #v[victim (BitVec.ofFin x) false, victim (BitVec.ofFin x) true]

end Sys2Proof

namespace Sys2Proof.Machine

/-- LRU_TOUCH(x, w) of the spec: way w is now the most recently used (R121). -/
def lruTouch (x : BitVec 6) (w : Fin 4) : BitVec 6 :=
  match w with
  | 0 => x &&& 0x07#6
  | 1 => (x ||| 0x20#6) &&& 0x39#6
  | 2 => (x ||| 0x14#6) &&& 0x3E#6
  | 3 => x ||| 0x0B#6

/-- LRU_VICTIM(x, tw) of the spec: the way to replace (R122). In two-way mode LRU bit 0 decides between ways 2 and 3; in four-way
mode four masked tests in order, and way 0 when none holds. -/
def lruVictim (x : BitVec 6) (tw : Bool) : Fin 4 :=
  if tw then (if x.getLsbD 0 then 2 else 3)
  else if x &&& 0x38#6 = 0x38#6 then 0
  else if x &&& 0x26#6 = 0x06#6 then 1
  else if x &&& 0x15#6 = 0x01#6 then 2
  else if x &&& 0x0B#6 = 0x00#6 then 3
  else 0

/-- The pair of R121 and R122, the default of R9. -/
def documentedLru : LruPair :=
  LruPair.ofFunctions lruTouch lruVictim

end Sys2Proof.Machine
end

