-- ==== Sys2Proof/Machine/Platform.lean ====
section
/-! DEFINITION. The default values of the parameters: those the spec gives (spec/00_scope.md R5, R7, R8, R9,
spec/42_dma_engine.md R212), and the free values for those it does not (R4, R6). They are the parameters of the state
after reset and nothing else: every other state may hold any parameters. -/

namespace Sys2Proof.Machine

/-- The default WINDOW of R5: low work RAM, and high work RAM with its mirrors. -/
def defaultWindow : List PageRun :=
  [⟨0x020, 0x02F⟩, ⟨0x600, 0x7FF⟩]

/-- The default REGION table of R212. -/
def defaultRegions : List RegionRow :=
  [⟨.lwram,   0x0200000, 0x02FFFFF⟩,
   ⟨.sndram,  0x5A00000, 0x5AFFFFF⟩,
   ⟨.sndreg,  0x5B00000, 0x5BFFFFF⟩,
   ⟨.vdp1ram, 0x5C00000, 0x5CFFFFF⟩,
   ⟨.vdp1reg, 0x5D00000, 0x5D7FFFF⟩,
   ⟨.vdp2ram, 0x5E00000, 0x5F7FFFF⟩,
   ⟨.vdp2reg, 0x5F80000, 0x5FBFFFF⟩,
   ⟨.hwram,   0x6000000, 0x7FFFFFF⟩]

/-- The default IRQ_CAP of R8. -/
def defaultIrqCap : Nat := 50

/-- The parameters of the state after reset (logs 3 to 6, 16). -/
def defaultParams : Params :=
  { window     := defaultWindow
    kickBudget := Config.kickBudget
    tcrStep16  := .one
    irqCap     := defaultIrqCap
    tie        := .earliest
    regions    := defaultRegions
    eatCosts   := Config.eatCosts
    lru        := documentedLru }

end Sys2Proof.Machine
end

