-- ==== Sys2Proof/Machine/State.lean ====
section
/-! DEFINITION. The state, as plain data. One instance of the block is a Block, which holds exactly the list of
spec/10_state.md R20; State holds the two instances (spec/60_exceptions.md R266) and what R43 calls the environment:
the shared underlying bus, the parameters, the pending inputs, and the outputs. -/

namespace Sys2Proof.Machine

/-- A byte store: (address, byte) pairs, addresses strictly rising, no byte equal to Memory.unlisted. -/
abbrev Memory := List Host.Cell

/-- The two contexts (R1, R266): each owns one instance of the block. -/
inductive ContextId where
  | master
  | slave
  deriving DecidableEq, Repr

/-- The two DMA channels (spec/00_scope.md R3). -/
inductive ChannelId where
  | ch0
  | ch1
  deriving DecidableEq, Repr

/-- One DMA channel: SAR, DAR, TCR, CHCR, TEM, VCRDMA, CLK (R21 to R23, R26, R27, R29, R30). -/
structure Channel where
  sar    : Word
  dar    : Word
  tcr    : BitVec 24
  chcr   : BitVec 16
  tem    : Bool
  vcrdma : BitVec 8
  clk    : Nat
  deriving DecidableEq, Repr

/-- One tag slot: V[l][w] and TAG[l][w] (R33). -/
structure TagSlot where
  v   : Bool
  tag : BitVec 19
  deriving DecidableEq, Repr

/-- One cache line without its data: LRU[l] (R34) and the four tag slots (R33). -/
structure Line where
  lru   : BitVec 6
  slots : Vector TagSlot 4
  deriving DecidableEq, Repr

/-- One pending request of the interrupt queue (R39). -/
structure Entry where
  vector : BitVec 8
  level  : Nat
  seq    : Nat
  deriving DecidableEq, Repr

/-- One instance of the block: exactly the state of R20. -/
structure Block where
  ch0   : Channel
  ch1   : Channel
  dmaor : BitVec 4
  ipra  : BitVec 16
  ccr   : BitVec 8
  lines : Vector Line 64
  /-- DATA[l][w][b] at key (4l + w) * 16 + b (R35). -/
  data  : Memory
  /-- DA[i] at key i (R36). -/
  da    : Memory
  /-- Q, in the order of arrival (R39). -/
  q     : List Entry
  seq   : Nat
  deriving DecidableEq, Repr

/-- What arrives from outside (R15, spec/30_encoding.md R90): a command for one instance, or a write of another master
of the shared bus (spec/20_memory.md R72). -/
inductive Input where
  | command (ctx : ContextId) (cw : BitVec 40) (wd : Word)
  | busMaster (a : Word) (n : Width) (v : Word)
  deriving DecidableEq, Repr

/-- What one instance emits (R12, R13): its Bus accesses, at the 28-bit bus address, and its Notify events. -/
inductive Event where
  | busRead (ctx : ContextId) (a : BitVec 28) (n : Width) (v : Word)
  | busWrite (ctx : ContextId) (a : BitVec 28) (n : Width) (v : Word)
  | notify (ctx : ContextId) (a : Word) (len : Nat)
  deriving DecidableEq, Repr

/-- The machine. -/
structure State where
  master   : Block
  slave    : Block
  /-- The instance exists: it has been through POWERON (spec/70_reset_and_hazards.md R280, R268). -/
  masterOn : Bool
  slaveOn  : Bool
  /-- The context whose instance the running command addresses (log 2). -/
  cur      : ContextId
  /-- The bytes of the RAM pages of the shared bus, at key a[27:0]. -/
  bus      : Memory
  /-- The platform's page map: the first entry that holds a page decides; a page in none is RAM (log 7). -/
  pages    : List PageMapEntry
  params   : Params
  /-- How many free values handler pages have given (log 9). -/
  draws    : Nat
  /-- What has arrived and not run, first first (log 1). -/
  inputs   : List Input
  /-- The result port: what the last command returned, none if it returns nothing (log 10). -/
  result   : Option Word
  /-- The Bus and Notify events so far, first first (log 11). -/
  trace    : List Event
  deriving DecidableEq, Repr

/-- No command of the block raises a fault (spec/60_exceptions.md R250), so there is no reason for one (log 17). -/
inductive Fault where
  deriving DecidableEq, Repr

/-- Why the model gives an input no meaning. -/
inductive Refusal where
  /-- Raised by exec's arm for an instruction that has no meaning yet. Safe: nothing is claimed of it. -/
  | notModelled (mnemonic : String)
  /-- Raised by every BUS command whose address is misaligned for its width (spec/20_memory.md R65). Safe. -/
  | misaligned
  /-- Raised by step for a command word that matches no row (spec/30_encoding.md R102). Safe. -/
  | noRow
  /-- Raised by BUS.SZ3: SZ = 3 is not a command (R102). Safe. -/
  | undecodableSize
  /-- Raised by CLS.RSV7: CLS = 7 is not a command (R102). Safe. -/
  | undecodableClass7
  /-- Raised by CLS.RSV8: CLS = 8 to 15 is not a command (R102). Safe. -/
  | undecodableClass8
  /-- Raised by step for a command other than POWERON to an instance before its first POWERON (R280). Safe. -/
  | notPoweredOn
  deriving DecidableEq, Repr

/-- A channel after reset (R44). -/
def Channel.reset : Channel :=
  { sar := 0, dar := 0, tcr := 0, chcr := 0, tem := false, vcrdma := 0, clk := 0 }

/-- A line after invalidate-all (R44): every V, TAG and LRU zero. -/
def Line.invalid : Line :=
  { lru := 0, slots := Vector.replicate 4 ⟨false, 0⟩ }

/-- An instance after POWERON (R44): everything zero, Q empty. -/
def Block.powerOn : Block :=
  { ch0 := Channel.reset, ch1 := Channel.reset
    dmaor := 0, ipra := 0, ccr := 0
    lines := Vector.replicate 64 Line.invalid
    data := [], da := [], q := [], seq := 0 }

/-- The machine right after reset: both instances have been through POWERON, nothing has arrived, the parameters are
the defaults, and the bus is the RAM bus of spec/92_eei_decisions.md D33 (logs 1 to 12). -/
def State.reset : State :=
  { master := Block.powerOn, slave := Block.powerOn
    masterOn := true, slaveOn := true
    cur := .master
    bus := [], pages := []
    params := defaultParams
    draws := 0, inputs := [], result := none, trace := [] }

end Sys2Proof.Machine
end

