-- ==== Sys2Proof/Machine/Memory.lean ====
section
/-! DEFINITION. The byte store: reading and writing one byte, its canonical form, and big-endian accesses
(spec/20_memory.md R64). The underlying bus, DATA and DA are three of them. -/

namespace Sys2Proof.Machine

/-- What an unlisted address reads as: DATA and DA are zeroed by POWERON (spec/70_reset_and_hazards.md R280), and a RAM
byte of the bus never written reads 0x00 (log 8). -/
def Memory.unlisted : Byte := 0x00#8

/-- The byte at an address. -/
def Memory.read : Memory → Nat → Byte
  | [], _ => Memory.unlisted
  | (k, x) :: m, a => if a = k then x else Memory.read m a

/-- The store with one byte changed. -/
def Memory.write : Memory → Nat → Byte → Memory
  | [], a, v => if v = Memory.unlisted then [] else [(a, v)]
  | (k, x) :: m, a, v =>
    if a < k then (if v = Memory.unlisted then (k, x) :: m else (a, v) :: (k, x) :: m)
    else if a = k then (if v = Memory.unlisted then m else (a, v) :: m)
    else (k, x) :: Memory.write m a v

/-- The canonical form from address `lo` on: addresses strictly rising, no entry equal to what an unlisted address
reads as. -/
def Memory.wfFrom : Nat → Memory → Bool
  | _, [] => true
  | lo, (k, x) :: m => decide (lo ≤ k) && decide (x ≠ Memory.unlisted) && Memory.wfFrom (k + 1) m

/-- The canonical form: two stores in it that read alike everywhere are equal. -/
def Memory.wf (m : Memory) : Bool :=
  Memory.wfFrom 0 m

/-- Every address listed is below `n`. -/
def Memory.below (n : Nat) (m : Memory) : Bool :=
  m.all (fun c => decide (c.1 < n))

/-- The big-endian value of width `n` whose byte `i` is `rd i` (R64: byte 0 is the most significant), zero-extended. -/
def beRead (rd : Nat → Byte) : Width → Word
  | .byte => (rd 0).setWidth 32
  | .word => (rd 0 ++ rd 1).setWidth 32
  | .long => rd 0 ++ rd 1 ++ rd 2 ++ rd 3

/-- Byte `i` of the `n`-byte value in the low bits of `v`, byte 0 the most significant (R64). -/
def beByte (n : Width) (v : Word) (i : Nat) : Byte :=
  v.extractLsb' (8 * (n.bytes - 1 - i)) 8

/-- The value of width `n` in the low bits of `v`, zero-extended. -/
def lowBytes : Width → Word → Word
  | .byte, v => (v.extractLsb' 0 8).setWidth 32
  | .word, v => (v.extractLsb' 0 16).setWidth 32
  | .long, v => v

/-- The store after the `n`-byte value of `v` is written, byte `i` at `key i`, in ascending order. -/
def Memory.writeBE (m : Memory) (key : Nat → Nat) (n : Width) (v : Word) : Memory :=
  match n with
  | .byte => m.write (key 0) (beByte .byte v 0)
  | .word => (m.write (key 0) (beByte .word v 0)).write (key 1) (beByte .word v 1)
  | .long =>
    (((m.write (key 0) (beByte .long v 0)).write (key 1) (beByte .long v 1)).write (key 2) (beByte .long v 2)).write
      (key 3) (beByte .long v 3)

/-- The value of width `n` whose byte `i` is at `key i`. -/
def Memory.readBE (m : Memory) (key : Nat → Nat) (n : Width) : Word :=
  beRead (fun i => m.read (key i)) n

/-- UNMAPPED(n) of spec/40_cache_ops.md: what an access of width `n` to a page with no handler reads
(spec/00_scope.md R12). -/
def unmapped : Width → Word
  | .byte => 0x00000000#32
  | .word => 0x0000FFFF#32
  | .long => 0xFFFFFFFF#32

end Sys2Proof.Machine
end

