-- ==== Sys2Proof/Machine/Operands.lean ====
section
/-! DEFINITION. Operand forms: the fields of an address (spec/30_encoding.md R93 to R95), alignment
(spec/20_memory.md R65), and the fields of the registers (spec/10_state.md R26, R28, R31, R32; R97). -/

namespace Sys2Proof.Machine

/-! ### Addresses -/

/-- The full address of a class and its low 29 bits (R60). -/
def fullAddress (cls : BitVec 3) (a : BitVec 29) : Word :=
  cls ++ a

/-- The full address of a reserved class, A[31:30] = 10 (R60). -/
def reservedAddress (a : BitVec 30) : Word :=
  0b10#2 ++ a

/-- A word access has a[0] = 0 and a long access a[1:0] = 00 (R65). -/
def aligned (n : Width) (a : Word) : Bool :=
  match n with
  | .byte => true
  | .word => a.extractLsb' 0 1 == 0#1
  | .long => a.extractLsb' 0 2 == 0#2

/-- TAGOF(a) = a[28:10] (R93). -/
def tagOf (a : Word) : BitVec 19 :=
  a.extractLsb' 10 19

/-- LINE(a) = a[9:4] (R93). -/
def lineOf (a : Word) : Fin 64 :=
  (a.extractLsb' 4 6).toFin

/-- OFF(a) = a[3:0] (R93). -/
def offOf (a : Word) : BitVec 4 :=
  a.extractLsb' 0 4

/-- LINEBASE(a) = a & 0xFFFFFFF0 (R93). -/
def lineBase (a : Word) : Word :=
  a &&& 0xFFFFFFF0#32

/-- PAGE(a) = a[27:16], the 12-bit page key (R12, R93). -/
def pageOf (a : Word) : Nat :=
  (a.extractLsb' 16 12).toNat

/-- Only a[27:0] reaches the bus (R12). -/
def busAddress (a : Word) : BitVec 28 :=
  a.extractLsb' 0 28

/-- The store key of byte `i` of a bus access at `a`. -/
def busKey (a : Word) (i : Nat) : Nat :=
  (busAddress (a + BitVec.ofNat 32 i)).toNat

/-- The store key of DATA[l][w][o + i] (R35). -/
def dataKey (l : Fin 64) (w : Fin 4) (o : BitVec 4) (i : Nat) : Nat :=
  (4 * l.val + w.val) * 16 + (o + BitVec.ofNat 4 i).toNat

/-- The store key of DA[i + k], i = a[11:0] (R95). -/
def daKey (a : Word) (k : Nat) : Nat :=
  (a.extractLsb' 0 12 + BitVec.ofNat 12 k).toNat

/-- The run holds the page. -/
def PageRun.holds (r : PageRun) (page : Nat) : Bool :=
  decide (r.first ≤ page) && decide (page ≤ r.last)

/-- WINDOW (R5): the page belongs to one of the shadowed windows. -/
def inWindow (p : Params) (page : Nat) : Bool :=
  p.window.any (fun r => PageRun.holds r page)

/-- What answers a page: the first entry of the page map that holds it, RAM if there is none (log 7). -/
def pageKindIn : List PageMapEntry → Nat → PageKind
  | [], _ => .ram
  | e :: es, page => if PageRun.holds e.run page then e.kind else pageKindIn es page

/-- REGION(a): decided by a[27:0], the first matching row wins, OTHER if none does (R4, R212). -/
def regionIn : List RegionRow → Nat → Region
  | [], _ => .other
  | r :: rs, x => if r.lo ≤ x ∧ x ≤ r.hi then r.region else regionIn rs x

/-- EAT(s, d) (R4, R211): the entry of the cost table for the two regions, and at least 1. -/
def eat (p : Params) (s d : Word) : Nat :=
  let rs := regionIn p.regions (busAddress s).toNat
  let rd := regionIn p.regions (busAddress d).toNat
  max 1 ((p.eatCosts.get rs.index).get rd.index)

/-! ### CHCR (R26, R97) -/

/-- CHCR[15:14], the destination address mode. -/
def chcrDM (x : BitVec 16) : BitVec 2 := x.extractLsb' 14 2

/-- CHCR[13:12], the source address mode. -/
def chcrSM (x : BitVec 16) : BitVec 2 := x.extractLsb' 12 2

/-- CHCR[11:10], the transfer unit. -/
def chcrTS (x : BitVec 16) : BitVec 2 := x.extractLsb' 10 2

/-- CHCR[3], the budget-doubling select. -/
def chcrTA (x : BitVec 16) : Bool := x.getLsbD 3

/-- CHCR[2], the interrupt enable. -/
def chcrIE (x : BitVec 16) : Bool := x.getLsbD 2

/-- CHCR[1], the Transfer-End flag. -/
def chcrTE (x : BitVec 16) : Bool := x.getLsbD 1

/-- CHCR[0], the channel enable. -/
def chcrDE (x : BitVec 16) : Bool := x.getLsbD 0

/-- UNIT(ts) = 1, 2, 4, 16 (R97). -/
def unitBytes (ts : BitVec 2) : Nat :=
  match ts with
  | 0b00#2 => 1
  | 0b01#2 => 2
  | 0b10#2 => 4
  | _ => 16

/-- DELTA(mode, u): 0 fixed, +u increment, -u decrement (R97). Mode 3 is undefined there, so it is a free value; no run
evaluates it, since such a channel is malformed and does not run (spec/42_dma_engine.md R202, log 23). -/
def delta (mode : BitVec 2) (u : Nat) : Word :=
  match mode with
  | 0b00#2 => 0#32
  | 0b01#2 => BitVec.ofNat 32 u
  | 0b10#2 => -(BitVec.ofNat 32 u)
  | _ => Config.deltaReserved u

/-- STEP(ts) = TCR_STEP16 for ts = 3, else 1 (R97). -/
def tcrStep (p : Params) (ts : BitVec 2) : Nat :=
  match ts with
  | 0b11#2 => (match p.tcrStep16 with
    | .one => 1
    | .four => 4)
  | _ => 1

/-! ### DMAOR (R28), CCR (R31), IPRA (R32) -/

/-- DMAOR[3], PR: round-robin when set. -/
def dmaorPR (x : BitVec 4) : Bool := x.getLsbD 3

/-- DMAOR[2], AE. -/
def dmaorAE (x : BitVec 4) : Bool := x.getLsbD 2

/-- DMAOR[1], NMIF. -/
def dmaorNMIF (x : BitVec 4) : Bool := x.getLsbD 1

/-- DMAOR[0], DME. -/
def dmaorDME (x : BitVec 4) : Bool := x.getLsbD 0

/-- CCR[7:6], W: the way the Address Array shows. -/
def ccrW (x : BitVec 8) : Fin 4 := (x.extractLsb' 6 2).toFin

/-- CCR[3], TW: two-way mode. -/
def ccrTW (x : BitVec 8) : Bool := x.getLsbD 3

/-- CCR[0], CE: cache enable. -/
def ccrCE (x : BitVec 8) : Bool := x.getLsbD 0

/-- IPRA[11:8], DMAIPL: the level of a DMA completion interrupt. -/
def ipraDMAIPL (x : BitVec 16) : Nat := (x.extractLsb' 8 4).toNat

/-! ### The Address Array word (R94) -/

/-- The word AARD.L returns: tag at [28:10], LRU at [9:4], V at bit 2, the other bits 0. -/
def aaWord (tag : BitVec 19) (lru : BitVec 6) (v : Bool) : Word :=
  0#3 ++ tag ++ lru ++ 0#1 ++ BitVec.ofBool v ++ 0#2

/-- The word IACK puts on the result port: bit 31 set, level at [15:8], vector at [7:0]
(spec/43_interrupt_encoder.md R235). -/
def iackWord (e : Entry) : Word :=
  0x80000000#32 ||| (BitVec.ofNat 32 e.level <<< 8) ||| e.vector.setWidth 32

end Sys2Proof.Machine
end

