-- ==== Sys2Proof/Machine/Flags.lean ====
section
/-! DEFINITION. The status flags and the predicates over them (spec/10_state.md R40, R41): the masked writes of CHCR,
DMAOR and CCR, ENGINE_ON, REQUESTING, MALFORMED, STATE(n). -/

namespace Sys2Proof.Machine

/-- The registers of channel `n`. -/
def Block.chan (b : Block) : ChannelId → Channel
  | .ch0 => b.ch0
  | .ch1 => b.ch1

/-- The instance with the registers of channel `n` replaced. -/
def Block.setChan (b : Block) (n : ChannelId) (c : Channel) : Block :=
  match n with
  | .ch0 => { b with ch0 := c }
  | .ch1 => { b with ch1 := c }

/-- CHCR after a write of `v` (spec/41_register_ops.md R168, R177): TE is kept where it was set and either the written
bit is 1 or TEM is 1, and cannot be set; the other bits are stored. -/
def chcrWritten (c : Channel) (v : Word) : BitVec 16 :=
  let teNew := chcrTE c.chcr && (v.getLsbD 1 || c.tem)
  (v.extractLsb' 0 16 &&& 0xFFFD#16) ||| ((BitVec.ofBool teNew).setWidth 16 <<< 1)

/-- DMAOR after a write of `v` (R183): PR and DME are stored, AE and NMIF can be cleared and not set. -/
def dmaorWritten (old : BitVec 4) (v : Word) : BitVec 4 :=
  (v.extractLsb' 0 4 &&& 0x9#4) ||| (old &&& v.extractLsb' 0 4 &&& 0x6#4)

/-- CCR after a write of `v`: the stored bits (R185). -/
def ccrWritten (v : Word) : BitVec 8 :=
  v.extractLsb' 0 8 &&& 0xCF#8

/-- A CCR write runs InvalidateAll: CP written 1, or CE from 1 to 0 (R185). -/
def ccrInvalidates (old : BitVec 8) (v : Word) : Bool :=
  v.getLsbD 4 || (ccrCE old && !v.getLsbD 0)

/-- IPRA after a write of `v`: the stored bits (R187). -/
def ipraWritten (v : Word) : BitVec 16 :=
  v.extractLsb' 0 16 &&& 0xFFF0#16

/-- ENGINE_ON (spec/42_dma_engine.md R200). -/
def engineOn (b : Block) : Bool :=
  dmaorDME b.dmaor && !dmaorAE b.dmaor && !dmaorNMIF b.dmaor

/-- MALFORMED (R202): a reserved address mode, or SAR or DAR no multiple of min(unit, 4). -/
def malformed (c : Channel) : Bool :=
  chcrSM c.chcr == 3#2 || chcrDM c.chcr == 3#2
    || c.sar.toNat % min (unitBytes (chcrTS c.chcr)) 4 != 0
    || c.dar.toNat % min (unitBytes (chcrTS c.chcr)) 4 != 0

/-- REQUESTING (R201). -/
def requesting (c : Channel) : Bool :=
  chcrDE c.chcr && !chcrTE c.chcr && !malformed c

/-- The states of a channel (R41). -/
inductive Phase where
  | idle
  | transferring
  | done
  deriving DecidableEq, Repr

/-- STATE(n), a function of the registers (R41). -/
def phase (b : Block) (n : ChannelId) : Phase :=
  if chcrTE (b.chan n).chcr then .done
  else if chcrDE (b.chan n).chcr && engineOn b then .transferring
  else .idle

end Sys2Proof.Machine
end

