-- ==== Sys2Proof/Machine/Ops.lean ====
section
/-! DEFINITION. The named operations the meanings share: the addressed instance, the bus (spec/00_scope.md R12, R13),
the cache procedures (spec/40_cache_ops.md R120 to R127), the interrupt queue (spec/43_interrupt_encoder.md R231,
R234), which stands in for taking an exception (spec/60_exceptions.md R250, R255: the block raises none; a request
enters Q and IACK takes it out), reset (spec/70_reset_and_hazards.md R280, R281), and the inputs. -/

namespace Sys2Proof.Machine

abbrev Result := Host.Outcome State Fault Refusal

/-! ### The instance a command addresses -/

/-- The instance of a context. -/
def State.instOf (s : State) : ContextId → Block
  | .master => s.master
  | .slave => s.slave

/-- The instance the running command addresses. -/
def State.blk (s : State) : Block :=
  s.instOf s.cur

/-- The state with that instance replaced; the other one is not touched (R266). -/
def State.setBlk (s : State) (b : Block) : State :=
  { s with
    master := if s.cur = .master then b else s.master
    slave  := if s.cur = .slave then b else s.slave }

/-- The registers of channel `n` of that instance. -/
def State.chan (s : State) (n : ChannelId) : Channel :=
  s.blk.chan n

/-- The state with the registers of channel `n` of that instance replaced. -/
def State.setChan (s : State) (n : ChannelId) (c : Channel) : State :=
  s.setBlk (s.blk.setChan n c)

/-! ### How a command ends -/

/-- A command that returns a value on the result port. -/
def State.ret (s : State) (v : Word) : Result :=
  .next { s with result := some v }

/-- A command that returns nothing. -/
def State.done (s : State) : Result :=
  .next { s with result := none }

/-- A BUS command is run only at an address aligned for its width (R65). -/
def guardAligned (n : Width) (a : Word) (r : Result) : Result :=
  if aligned n a then r else .refused .misaligned

/-! ### The underlying bus -/

/-- One event on the traces. -/
def State.emit (s : State) (e : Event) : State :=
  { s with trace := s.trace ++ [e] }

/-- Notify(a, len) (R13). -/
def State.notify (s : State) (a : Word) (len : Nat) : State :=
  s.emit (.notify s.cur a len)

/-- What answers a bus access at `a`. -/
def State.pageKind (s : State) (a : Word) : PageKind :=
  pageKindIn s.pages (pageOf a)

/-- The value BusRead(a, n) returns (R12): the bytes of a RAM page, the unmapped value, or the next free value of a
handler page (log 9). -/
def State.busValue (s : State) (a : Word) (n : Width) : Word :=
  match s.pageKind a with
  | .ram => s.bus.readBE (busKey a) n
  | .unmapped => unmapped n
  | .handler => lowBytes n (Config.busDraw s.draws)

/-- The state after BusRead(a, n): the access is on the trace, and a handler page has given a free value. -/
def State.afterRead (s : State) (a : Word) (n : Width) : State :=
  State.emit { s with draws := if s.pageKind a = .handler then s.draws + 1 else s.draws }
    (.busRead s.cur (busAddress a) n (s.busValue a n))

/-- The contents of the RAM pages after a bus write: only a RAM page stores (R12). -/
def State.busStored (s : State) (a : Word) (n : Width) (v : Word) : Memory :=
  if s.pageKind a = .ram then s.bus.writeBE (busKey a) n v else s.bus

/-- BusWrite(a, n, v) (R12): the low n bytes of v. -/
def State.busWrite (s : State) (a : Word) (n : Width) (v : Word) : State :=
  State.emit { s with bus := s.busStored a n v } (.busWrite s.cur (busAddress a) n (lowBytes n v))

/-- A bus write that is followed by its write-notification (spec/20_memory.md R73). -/
def State.busWriteNotify (s : State) (a : Word) (n : Width) (v : Word) : State :=
  (s.busWrite a n v).notify a n.bytes

/-! ### The cache -/

/-- Line `l` of an instance. -/
def Block.line (b : Block) (l : Fin 64) : Line :=
  b.lines[l]

/-- The instance with line `l` replaced. -/
def Block.setLine (b : Block) (l : Fin 64) (x : Line) : Block :=
  { b with lines := b.lines.set l x }

/-- The tag slot of a line's way is valid and holds the tag. -/
def Line.holds (x : Line) (w : Fin 4) (t : BitVec 19) : Bool :=
  x.slots[w].v && x.slots[w].tag == t

/-- WAYOF(l, t): the least way that is valid and holds the tag (spec/10_state.md R38). -/
def Line.wayOf (x : Line) (t : BitVec 19) : Option (Fin 4) :=
  if x.holds 0 t then some 0
  else if x.holds 1 t then some 1
  else if x.holds 2 t then some 2
  else if x.holds 3 t then some 3
  else none

/-- The way LOOKUP(a) finds (R120). All four ways take part in both modes. -/
def Block.lookup (b : Block) (a : Word) : Option (Fin 4) :=
  (b.line (lineOf a)).wayOf (tagOf a)

/-- LRU[l] <- LRU_TOUCH(LRU[l], w) (R121), by the pair of the parameters (R9). -/
def Block.touch (p : LruPair) (b : Block) (l : Fin 64) (w : Fin 4) : Block :=
  b.setLine l { b.line l with lru := p.touched (b.line l).lru w }

/-- TAG[l][w] and V[l][w] replaced. -/
def Block.setSlot (b : Block) (l : Fin 64) (w : Fin 4) (x : TagSlot) : Block :=
  b.setLine l { b.line l with slots := (b.line l).slots.set w x }

/-- The victim way of a miss at `a` (R122, R124), by the pair of the parameters (R9). -/
def Block.victim (p : LruPair) (b : Block) (a : Word) : Fin 4 :=
  p.victimOf (b.line (lineOf a)).lru (ccrTW b.ccr)

/-- CACHEABLE(a) (spec/20_memory.md R61). -/
def State.cacheable (s : State) (a : Word) : Bool :=
  a.extractLsb' 29 3 == 0b000#3 && ccrCE s.blk.ccr && inWindow s.params (pageOf a)

/-- One of the four fetches of a fill: the long at base + 4i goes to DATA[l][w][4i .. 4i+3] (R123). -/
def State.fetchLong (s : State) (a : Word) (w : Fin 4) (i : Nat) : State :=
  let x := lineBase a + BitVec.ofNat 32 (4 * i)
  let s' := s.afterRead x .long
  s'.setBlk { s'.blk with
    data := s'.blk.data.writeBE (dataKey (lineOf a) w (BitVec.ofNat 4 (4 * i))) .long (s.busValue x .long) }

/-- FILL(a, w) (R123): four ascending long fetches, then tag and valid bit, LRU touch, one Notify for the line. -/
def State.fill (s : State) (a : Word) (w : Fin 4) : State :=
  let s4 := (((s.fetchLong a w 0).fetchLong a w 1).fetchLong a w 2).fetchLong a w 3
  let b := (s4.blk.setSlot (lineOf a) w ⟨true, tagOf a⟩).touch s.params.lru (lineOf a) w
  (s4.setBlk b).notify (lineBase a) 16

/-- The way that serves a cached read at `a`: the one that hits, else the victim (R124). -/
def State.readWay (s : State) (a : Word) : Fin 4 :=
  (s.blk.lookup a).getD (s.blk.victim s.params.lru a)

/-- The state after CacheRead(a, n) (R124): on a hit the LRU is touched, on a miss the victim is filled. -/
def State.afterCacheRead (s : State) (a : Word) : State :=
  match s.blk.lookup a with
  | some w => s.setBlk (s.blk.touch s.params.lru (lineOf a) w)
  | none => s.fill a (s.blk.victim s.params.lru a)

/-- The value CacheRead(a, n) returns: from DATA of the way that serves, after the fill if there was one (R124). -/
def State.cacheValue (s : State) (a : Word) (n : Width) : Word :=
  (s.afterCacheRead a).blk.data.readBE (dataKey (lineOf a) (s.readWay a) (offOf a)) n

/-- The cache's part of CacheWrite(a, n, v) (R125): on a hit DATA is updated in place and the LRU touched; a miss
allocates nothing. -/
def Block.writeHit (p : LruPair) (b : Block) (a : Word) (n : Width) (v : Word) : Block :=
  match b.lookup a with
  | some w =>
    Block.touch p { b with data := b.data.writeBE (dataKey (lineOf a) w (offOf a)) n v } (lineOf a) w
  | none => b

/-- CacheWrite(a, n, v) (R125): the write always goes through to the bus as well, then Notify. -/
def State.cacheWrite (s : State) (a : Word) (n : Width) (v : Word) : State :=
  (s.setBlk (s.blk.writeHit s.params.lru a n v)).busWriteNotify a n v

/-- The cache arrays' part of InvalidateAll (R126): every V, TAG and LRU zero; DATA and DA are not changed. -/
def Block.invalidateAll (b : Block) : Block :=
  { b with lines := Vector.replicate 64 Line.invalid }

/-- One Notify for each maximal run of WINDOW pages, ascending (R126). -/
def State.notifyWindows (s : State) : State :=
  s.params.window.foldl
    (fun t r => t.notify (BitVec.ofNat 32 (r.first * 2 ^ 16)) ((r.last - r.first + 1) * 2 ^ 16)) s

/-- InvalidateAll (R126). -/
def State.invalidateAll (s : State) : State :=
  (s.setBlk s.blk.invalidateAll).notifyWindows

/-- PurgeOne(a) (R127): the matching way's V and TAG and the line's LRU are zeroed; without a match nothing changes. -/
def Block.purgeOne (b : Block) (a : Word) : Block :=
  match b.lookup a with
  | some w =>
    let x := b.line (lineOf a)
    b.setLine (lineOf a) { lru := 0, slots := x.slots.set w ⟨false, 0⟩ }
  | none => b

/-! ### The interrupt queue -/

/-- RaiseIrq(v, lv) (R231): level 0, a pending vector and a full queue drop the request. -/
def Block.raiseIrq (cap : Nat) (b : Block) (v : BitVec 8) (lv : Nat) : Block :=
  if lv = 0 then b
  else if b.q.any (fun e => e.vector == v) then b
  else if cap ≤ b.q.length then b
  else { b with q := b.q ++ [⟨v, lv, b.seq⟩], seq := b.seq + 1 }

/-- TIE: `e` is put before `f`, two entries of equal level (R8, R234). -/
def tieBefore (tie : Tie) (e f : Entry) : Bool :=
  match tie with
  | .earliest => decide (e.seq < f.seq)
  | .platform => decide (Config.tieRank e.vector e.level e.seq < Config.tieRank f.vector f.level f.seq)

/-- `e` is shown rather than `f`: a greater level, or TIE at equal levels (R234). -/
def shownBefore (tie : Tie) (e f : Entry) : Bool :=
  decide (f.level < e.level) || (decide (e.level = f.level) && tieBefore tie e f)

/-- BEST (R234). -/
def best (tie : Tie) : List Entry → Option Entry
  | [] => none
  | e :: q =>
    match best tie q with
    | none => some e
    | some f => if shownBefore tie f e then some f else some e

/-- The entry IRQ_OUT(m) shows: BEST when its level is above the mask (R234). -/
def Block.irqShown (tie : Tie) (b : Block) (m : Nat) : Option Entry :=
  match best tie b.q with
  | none => none
  | some e => if m < e.level then some e else none

/-- IRQ_OUT(m) = (vector, level) (R234), a pure function of Q and the mask. -/
def State.irqOut (s : State) (ctx : ContextId) (m : BitVec 4) : Option (BitVec 8 × Nat) :=
  ((s.instOf ctx).irqShown s.params.tie m.toNat).map (fun e => (e.vector, e.level))

/-- Q - {e} (R235). -/
def Block.removeEntry (b : Block) (e : Entry) : Block :=
  { b with q := b.q.filter (fun x => !decide (x = e)) }

/-! ### Reset -/

/-- RESET's registers and queue (R281): everything but the cache arrays, DATA and DA is zero. -/
def Block.resetRegisters (b : Block) : Block :=
  { b with
    ch0 := Channel.reset, ch1 := Channel.reset
    dmaor := 0, ipra := 0, ccr := 0
    q := [], seq := 0 }

/-- RESET (R281). -/
def State.resetBlock (s : State) : State :=
  (s.setBlk s.blk.resetRegisters).invalidateAll

/-- POWERON (R280): DATA and DA zeroed, then RESET; from here on the instance exists. -/
def State.powerOnBlock (s : State) : State :=
  let s' := (s.setBlk { s.blk with data := [], da := [] }).resetBlock
  { s' with
    masterOn := if s.cur = .master then true else s.masterOn
    slaveOn  := if s.cur = .slave then true else s.slaveOn }

/-! ### The inputs -/

/-- The instance of a context exists (R280, R268). -/
def State.poweredOn (s : State) : ContextId → Bool
  | .master => s.masterOn
  | .slave => s.slaveOn

/-- The instance the command addresses accepts it: POWERON is the only command that may be the first (R280). -/
def State.accepts (s : State) (i : Instr) : Bool :=
  i == .poweron || s.poweredOn s.cur

/-- The first pending input is taken: its command word and write data, and the state in which the command runs. -/
def State.take (s : State) (ctx : ContextId) (rest : List Input) : State :=
  { s with inputs := rest, cur := ctx }

/-- A write of another master of the shared bus (spec/20_memory.md R72): no instance takes part (log 18). -/
def State.otherMaster (s : State) (rest : List Input) (a : Word) (n : Width) (v : Word) : State :=
  { s with inputs := rest, bus := s.busStored a n v }

end Sys2Proof.Machine
end

