-- ==== Sys2Proof/Machine/AddressArray.lean ====
section
/-! DEFINITION. The Address Array, class 011: AARD and AAWR (spec/40_cache_ops.md R146 to R148). -/

namespace Sys2Proof.Machine

/-- The word the Address Array shows at `a`: tag and valid bit of the way CCR.W selects, and the line's LRU (R146). -/
def addressArrayWord (b : Block) (a : Word) : Word :=
  let x := b.line (lineOf a)
  let t := x.slots[ccrW b.ccr]
  aaWord t.tag x.lru t.v

/-- The instance after an Address Array write of `v` at `a`: tag, valid bit and LRU from the data word (R94, R147). -/
def addressArrayWritten (b : Block) (a v : Word) : Block :=
  let x := b.line (lineOf a)
  b.setLine (lineOf a)
    { lru := v.extractLsb' 4 6, slots := x.slots.set (ccrW b.ccr) ⟨v.getLsbD 2, v.extractLsb' 10 19⟩ }

/-- AARD.L (R146). -/
def execAardL (a : BitVec 29) (s : State) : Result :=
  guardAligned .long (fullAddress 0b011#3 a) (s.ret (addressArrayWord s.blk (fullAddress 0b011#3 a)))

/-- AAWR.L (R147). -/
def execAawrL (a : BitVec 29) (wd : Word) (s : State) : Result :=
  guardAligned .long (fullAddress 0b011#3 a)
    (s.setBlk (addressArrayWritten s.blk (fullAddress 0b011#3 a) wd)).done

/-- A reserved-width read of the Address Array returns the unmapped value (R148). -/
def addressArrayReserved (n : Width) (a : BitVec 29) (s : State) : Result :=
  guardAligned n (fullAddress 0b011#3 a) (s.ret (unmapped n))

/-- A reserved-width write of the Address Array is discarded (R148). -/
def addressArrayDiscard (n : Width) (a : BitVec 29) (s : State) : Result :=
  guardAligned n (fullAddress 0b011#3 a) s.done

/-- AARD.B (R148). -/
def execAardB (a : BitVec 29) (s : State) : Result := addressArrayReserved .byte a s

/-- AARD.W (R148). -/
def execAardW (a : BitVec 29) (s : State) : Result := addressArrayReserved .word a s

/-- AAWR.B (R148). -/
def execAawrB (a : BitVec 29) (_wd : Word) (s : State) : Result := addressArrayDiscard .byte a s

/-- AAWR.W (R148). -/
def execAawrW (a : BitVec 29) (_wd : Word) (s : State) : Result := addressArrayDiscard .word a s

end Sys2Proof.Machine
end

