-- ==== Sys2Proof/Machine/Cached.lean ====
section
/-! DEFINITION. The cached area, class 000: CRD and CWR (spec/40_cache_ops.md R128 to R133). -/

namespace Sys2Proof.Machine

/-- A read through the cached area: through the cache when cacheable, else straight from the bus (R61, R128 to R130). -/
def cachedRead (n : Width) (low : BitVec 29) (s : State) : Result :=
  let a := fullAddress 0b000#3 low
  guardAligned n a
    (if s.cacheable a then (s.afterCacheRead a).ret (s.cacheValue a n)
     else (s.afterRead a n).ret (s.busValue a n))

/-- A write through the cached area (R131 to R133). -/
def cachedWrite (n : Width) (low : BitVec 29) (wd : Word) (s : State) : Result :=
  let a := fullAddress 0b000#3 low
  guardAligned n a
    (if s.cacheable a then (s.cacheWrite a n wd).done else (s.busWriteNotify a n wd).done)

/-- CRD.B (R128). -/
def execCrdB (a : BitVec 29) (s : State) : Result := cachedRead .byte a s

/-- CRD.W (R129). -/
def execCrdW (a : BitVec 29) (s : State) : Result := cachedRead .word a s

/-- CRD.L (R130). -/
def execCrdL (a : BitVec 29) (s : State) : Result := cachedRead .long a s

/-- CWR.B (R131). -/
def execCwrB (a : BitVec 29) (wd : Word) (s : State) : Result := cachedWrite .byte a wd s

/-- CWR.W (R132). -/
def execCwrW (a : BitVec 29) (wd : Word) (s : State) : Result := cachedWrite .word a wd s

/-- CWR.L (R133). -/
def execCwrL (a : BitVec 29) (wd : Word) (s : State) : Result := cachedWrite .long a wd s

end Sys2Proof.Machine
end

