-- ==== Sys2Proof/Machine/DataArray.lean ====
section
/-! DEFINITION. The Data Array, class 110: DARD and DAWR (spec/40_cache_ops.md R149 to R154). -/

namespace Sys2Proof.Machine

/-- A Data Array read (R149 to R151): big-endian from DA[a[11:0]] on. -/
def dataArrayRead (n : Width) (low : BitVec 29) (s : State) : Result :=
  let a := fullAddress 0b110#3 low
  guardAligned n a (s.ret (s.blk.da.readBE (daKey a) n))

/-- A Data Array write (R152 to R154). -/
def dataArrayWrite (n : Width) (low : BitVec 29) (wd : Word) (s : State) : Result :=
  let a := fullAddress 0b110#3 low
  guardAligned n a (s.setBlk { s.blk with da := s.blk.da.writeBE (daKey a) n wd }).done

/-- DARD.B (R149). -/
def execDardB (a : BitVec 29) (s : State) : Result := dataArrayRead .byte a s

/-- DARD.W (R150). -/
def execDardW (a : BitVec 29) (s : State) : Result := dataArrayRead .word a s

/-- DARD.L (R151). -/
def execDardL (a : BitVec 29) (s : State) : Result := dataArrayRead .long a s

/-- DAWR.B (R152). -/
def execDawrB (a : BitVec 29) (wd : Word) (s : State) : Result := dataArrayWrite .byte a wd s

/-- DAWR.W (R153). -/
def execDawrW (a : BitVec 29) (wd : Word) (s : State) : Result := dataArrayWrite .word a wd s

/-- DAWR.L (R154). -/
def execDawrL (a : BitVec 29) (wd : Word) (s : State) : Result := dataArrayWrite .long a wd s

end Sys2Proof.Machine
end

