-- ==== Sys2Proof/Machine/Dma.lean ====
section
/-! DEFINITION. The DMA transfer scheduling and timing arbiter (spec/42_dma_engine.md R203 to R210) and the kick of a
CHCR write (spec/41_register_ops.md R176). -/

namespace Sys2Proof.Machine

/-- One Bus read at `src` followed by one Bus write at `dst` (R206). -/
def State.copy (s : State) (src dst : Word) (n : Width) : State :=
  (s.afterRead src n).busWrite dst n (s.busValue src n)

/-- The bus accesses of one unit (R206): one copy, or for a 16-byte unit four longs ascending. -/
def State.moveUnit (s : State) (src dst : Word) (ts : BitVec 2) : State :=
  match ts with
  | 0b00#2 => s.copy src dst .byte
  | 0b01#2 => s.copy src dst .word
  | 0b10#2 => s.copy src dst .long
  | _ =>
    (((s.copy src dst .long).copy (src + 4#32) (dst + 4#32) .long).copy (src + 8#32) (dst + 8#32) .long).copy
      (src + 12#32) (dst + 12#32) .long

/-- The operand registers after one unit (R206): SAR and DAR advance modulo 2^32, TCR falls and stops at 0. -/
def Channel.advance (p : Params) (c : Channel) : Channel :=
  let ts := chcrTS c.chcr
  { c with
    sar := c.sar + delta (chcrSM c.chcr) (unitBytes ts)
    dar := c.dar + delta (chcrDM c.chcr) (unitBytes ts)
    tcr := BitVec.ofNat 24 (c.tcr.toNat - tcrStep p ts) }

/-- The destination addresses of a burst so far, lowest and highest + 1, in natural numbers (R208). -/
abbrev Span := Option (Nat × Nat)

/-- The span with one more unit of `u` bytes at `d`. -/
def Span.add (x : Span) (d : Word) (u : Nat) : Span :=
  match x with
  | none => some (d.toNat, d.toNat + u)
  | some (lo, hi) => some (min lo d.toNat, max hi (d.toNat + u))

/-- One turn of RUN's loop (R205): TRANSFER_UNIT(n), then the unit's cost leaves the copy clock. -/
def State.unitTurn (s : State) (n : ChannelId) : State :=
  let c := s.chan n
  let t := s.moveUnit c.sar c.dar (chcrTS c.chcr)
  t.setChan n { c.advance s.params with clk := c.clk - eat s.params c.sar c.dar }

/-- RUN's loop (R205). The fuel is the count: each turn lowers TCR by at least 1. -/
def runUnits : Nat → ChannelId → State → Span → State × Span
  | 0, _, s, x => (s, x)
  | k + 1, n, s, x =>
    let c := s.chan n
    if c.tcr = 0#24 then (s, x)
    else if c.clk < eat s.params c.sar c.dar then (s, x)
    else runUnits k n (s.unitTurn n) (x.add c.dar (unitBytes (chcrTS c.chcr)))

/-- BURST_NOTIFY(n) (R208): one Notify for the hull of the burst, none when CCR.CE = 1 or no unit moved. -/
def State.burstNotify (s : State) (x : Span) : State :=
  match x with
  | none => s
  | some (lo, hi) => if ccrCE s.blk.ccr then s else s.notify (BitVec.ofNat 32 lo) (hi - lo)

/-- A completed channel (R207): TE and TEM set, the copy clock 0. -/
def Channel.completed (c : Channel) : Channel :=
  { c with chcr := c.chcr ||| 0x0002#16, tem := true, clk := 0 }

/-- COMPLETE(n) (R207): with IE = 1 the completion interrupt is requested. -/
def Block.complete (cap : Nat) (b : Block) (n : ChannelId) : Block :=
  let c := b.chan n
  let b' := b.setChan n c.completed
  if chcrIE c.chcr then b'.raiseIrq cap c.vcrdma (ipraDMAIPL b.ipra) else b'

/-- The budget is added to the copy clock (R205). -/
def State.addBudget (s : State) (n : ChannelId) (budget : Nat) : State :=
  s.setChan n { s.chan n with clk := (s.chan n).clk + budget }

/-- RUN(n, b) (R205). -/
def State.run (s : State) (n : ChannelId) (budget : Nat) : State :=
  let s0 := s.addBudget n budget
  let r := runUnits (s0.chan n).tcr.toNat n s0 none
  let s1 := r.1.burstNotify r.2
  if (s1.chan n).tcr = 0#24 then s1.setBlk (s1.blk.complete s1.params.irqCap n) else s1

/-- The budget of a channel in a round-robin pass: doubled when CHCR bit 3 is 0 (R204). -/
def rrBudget (c : Channel) (budget : Nat) : Nat :=
  if chcrTA c.chcr then budget else 2 * budget

/-- PASS(c) (R204). -/
def State.pass (s : State) (budget : Nat) : State :=
  if !engineOn s.blk then s
  else
    let r0 := requesting s.blk.ch0
    let r1 := requesting s.blk.ch1
    if r0 && r1 then
      if dmaorPR s.blk.dmaor then
        (s.run .ch0 (rrBudget s.blk.ch0 budget)).run .ch1 (rrBudget s.blk.ch1 budget)
      else s.run .ch0 budget
    else if r0 then s.run .ch0 budget
    else if r1 then s.run .ch1 budget
    else s

/-- KICK(n) (R176): one whole pass when the engine is on and the channel requests. -/
def State.kick (s : State) (n : ChannelId) : State :=
  if engineOn s.blk && requesting (s.chan n) then s.pass s.params.kickBudget else s

/-- EXEC c (R203). -/
def execExecPass (c : BitVec 32) (s : State) : Result := (s.pass c.toNat).done

/-- LATCH.NMIF (R209). -/
def execLatchNmif (s : State) : Result := (s.setBlk { s.blk with dmaor := s.blk.dmaor ||| 0x2#4 }).done

/-- LATCH.AE (R210). -/
def execLatchAe (s : State) : Result := (s.setBlk { s.blk with dmaor := s.blk.dmaor ||| 0x4#4 }).done

end Sys2Proof.Machine
end

