-- ==== Sys2Proof/Machine/Interrupt.lean ====
section
/-! DEFINITION. The interrupt priority encoder's commands: IRQ and IACK (spec/43_interrupt_encoder.md R232, R235). -/

namespace Sys2Proof.Machine

/-- An interrupt request from outside (R232): RaiseIrq(v, lv). -/
def requestIrq (v : BitVec 8) (lv : Nat) (s : State) : Result :=
  (s.setBlk (s.blk.raiseIrq s.params.irqCap v lv)).done

/-- IRQ v, lv with lv 0 to 15 (R232). -/
def execIrq (v : BitVec 8) (lv : BitVec 4) (s : State) : Result := requestIrq v lv.toNat s

/-- IRQ v, 16 (R232). -/
def execIrqNmi (v : BitVec 8) (s : State) : Result := requestIrq v 16 s

/-- IACK m (R235): the entry IRQ_OUT(m) shows leaves Q and stands on the result port; with none the port carries 0. -/
def execIack (m : BitVec 4) (s : State) : Result :=
  match s.blk.irqShown s.params.tie m.toNat with
  | none => s.ret 0x00000000#32
  | some e => (s.setBlk (s.blk.removeEntry e)).ret (iackWord e)

end Sys2Proof.Machine
end

