-- ==== Sys2Proof/Machine/Purge.lean ====
section
/-! DEFINITION. The purge area, class 010: PURGE and PRD (spec/40_cache_ops.md R140 to R145). -/

namespace Sys2Proof.Machine

/-- A write of the purge area purges one entry, whatever the width and the data (R140 to R142). -/
def purgeWrite (n : Width) (low : BitVec 29) (s : State) : Result :=
  let a := fullAddress 0b010#3 low
  guardAligned n a (s.setBlk (s.blk.purgeOne a)).done

/-- A read of the purge area returns the unmapped value and purges nothing (R143 to R145). -/
def purgeRead (n : Width) (low : BitVec 29) (s : State) : Result :=
  guardAligned n (fullAddress 0b010#3 low) (s.ret (unmapped n))

/-- PURGE.B (R140). -/
def execPurgeB (a : BitVec 29) (_wd : Word) (s : State) : Result := purgeWrite .byte a s

/-- PURGE.W (R141). -/
def execPurgeW (a : BitVec 29) (_wd : Word) (s : State) : Result := purgeWrite .word a s

/-- PURGE.L (R142). -/
def execPurgeL (a : BitVec 29) (_wd : Word) (s : State) : Result := purgeWrite .long a s

/-- PRD.B (R143). -/
def execPrdB (a : BitVec 29) (s : State) : Result := purgeRead .byte a s

/-- PRD.W (R144). -/
def execPrdW (a : BitVec 29) (s : State) : Result := purgeRead .word a s

/-- PRD.L (R145). -/
def execPrdL (a : BitVec 29) (s : State) : Result := purgeRead .long a s

end Sys2Proof.Machine
end

