-- ==== Sys2Proof/Machine/Registers.lean ====
section
/-! DEFINITION. The 26 register commands (spec/41_register_ops.md R160 to R187). A read returns the stored bits,
zero-extended (R101, R160). -/

namespace Sys2Proof.Machine

/-- A read of SAR[n]. -/
def readSar (n : ChannelId) (s : State) : Result := s.ret (s.chan n).sar

/-- A write of SAR[n]: all 32 bits. -/
def writeSar (n : ChannelId) (wd : Word) (s : State) : Result :=
  (s.setChan n { s.chan n with sar := wd }).done

/-- A read of DAR[n]. -/
def readDar (n : ChannelId) (s : State) : Result := s.ret (s.chan n).dar

/-- A write of DAR[n]: all 32 bits. -/
def writeDar (n : ChannelId) (wd : Word) (s : State) : Result :=
  (s.setChan n { s.chan n with dar := wd }).done

/-- A read of TCR[n]. -/
def readTcr (n : ChannelId) (s : State) : Result := s.ret ((s.chan n).tcr.setWidth 32)

/-- A write of TCR[n]: the low 24 bits. -/
def writeTcr (n : ChannelId) (wd : Word) (s : State) : Result :=
  (s.setChan n { s.chan n with tcr := wd.extractLsb' 0 24 }).done

/-- A read of CHCR[n]: TEM[n] is cleared (R167, R175). -/
def readChcr (n : ChannelId) (s : State) : Result :=
  (s.setChan n { s.chan n with tem := false }).ret ((s.chan n).chcr.setWidth 32)

/-- A write of CHCR[n], then KICK(n) (R168, R177). -/
def writeChcr (n : ChannelId) (wd : Word) (s : State) : Result :=
  ((s.setChan n { s.chan n with chcr := chcrWritten (s.chan n) wd }).kick n).done

/-- A read of VCRDMA[n]. -/
def readVcrdma (n : ChannelId) (s : State) : Result := s.ret ((s.chan n).vcrdma.setWidth 32)

/-- A write of VCRDMA[n]: the low 8 bits. -/
def writeVcrdma (n : ChannelId) (wd : Word) (s : State) : Result :=
  (s.setChan n { s.chan n with vcrdma := wd.extractLsb' 0 8 }).done

/-- RD.L SAR0 (R161). -/
def execRdSar0 (s : State) : Result := readSar .ch0 s

/-- WR.L SAR0 (R162). -/
def execWrSar0 (wd : Word) (s : State) : Result := writeSar .ch0 wd s

/-- RD.L DAR0 (R163). -/
def execRdDar0 (s : State) : Result := readDar .ch0 s

/-- WR.L DAR0 (R164). -/
def execWrDar0 (wd : Word) (s : State) : Result := writeDar .ch0 wd s

/-- RD.L TCR0 (R165). -/
def execRdTcr0 (s : State) : Result := readTcr .ch0 s

/-- WR.L TCR0 (R166). -/
def execWrTcr0 (wd : Word) (s : State) : Result := writeTcr .ch0 wd s

/-- RD.L CHCR0 (R167). -/
def execRdChcr0 (s : State) : Result := readChcr .ch0 s

/-- WR.L CHCR0 (R168). -/
def execWrChcr0 (wd : Word) (s : State) : Result := writeChcr .ch0 wd s

/-- RD.L SAR1 (R169). -/
def execRdSar1 (s : State) : Result := readSar .ch1 s

/-- WR.L SAR1 (R170). -/
def execWrSar1 (wd : Word) (s : State) : Result := writeSar .ch1 wd s

/-- RD.L DAR1 (R171). -/
def execRdDar1 (s : State) : Result := readDar .ch1 s

/-- WR.L DAR1 (R172). -/
def execWrDar1 (wd : Word) (s : State) : Result := writeDar .ch1 wd s

/-- RD.L TCR1 (R173). -/
def execRdTcr1 (s : State) : Result := readTcr .ch1 s

/-- WR.L TCR1 (R174). -/
def execWrTcr1 (wd : Word) (s : State) : Result := writeTcr .ch1 wd s

/-- RD.L CHCR1 (R175). -/
def execRdChcr1 (s : State) : Result := readChcr .ch1 s

/-- WR.L CHCR1 (R177). -/
def execWrChcr1 (wd : Word) (s : State) : Result := writeChcr .ch1 wd s

/-- RD.L VCRDMA0 (R178). -/
def execRdVcrdma0 (s : State) : Result := readVcrdma .ch0 s

/-- WR.L VCRDMA0 (R179). -/
def execWrVcrdma0 (wd : Word) (s : State) : Result := writeVcrdma .ch0 wd s

/-- RD.L VCRDMA1 (R180). -/
def execRdVcrdma1 (s : State) : Result := readVcrdma .ch1 s

/-- WR.L VCRDMA1 (R181). -/
def execWrVcrdma1 (wd : Word) (s : State) : Result := writeVcrdma .ch1 wd s

/-- RD.L DMAOR (R182). -/
def execRdDmaor (s : State) : Result := s.ret (s.blk.dmaor.setWidth 32)

/-- WR.L DMAOR (R183): does not kick. -/
def execWrDmaor (wd : Word) (s : State) : Result :=
  (s.setBlk { s.blk with dmaor := dmaorWritten s.blk.dmaor wd }).done

/-- RD.B CCR (R184). -/
def execRdCcr (s : State) : Result := s.ret (s.blk.ccr.setWidth 32)

/-- WR.B CCR (R185): InvalidateAll runs at most once, after CCR has its new value. -/
def execWrCcr (wd : Word) (s : State) : Result :=
  let s' := s.setBlk { s.blk with ccr := ccrWritten wd }
  if ccrInvalidates s.blk.ccr wd then s'.invalidateAll.done else s'.done

/-- RD.W IPRA (R186). -/
def execRdIpra (s : State) : Result := s.ret (s.blk.ipra.setWidth 32)

/-- WR.W IPRA (R187). -/
def execWrIpra (wd : Word) (s : State) : Result :=
  (s.setBlk { s.blk with ipra := ipraWritten wd }).done

end Sys2Proof.Machine
end

