-- ==== Sys2Proof/Machine/Reserved.lean ====
section
/-! DEFINITION. Reserved space (spec/30_encoding.md R102): the reserved classes 100 and 101 (spec/40_cache_ops.md R155,
R156), the rest of class 111 (spec/41_register_ops.md R188, R189), and the rows that mark undecodable space. -/

namespace Sys2Proof.Machine

/-- A reserved read returns the unmapped value of its width and changes nothing. -/
def reservedRead (n : Width) (a : Word) (s : State) : Result :=
  guardAligned n a (s.ret (unmapped n))

/-- A reserved write is discarded. -/
def reservedWrite (n : Width) (a : Word) (s : State) : Result :=
  guardAligned n a s.done

/-- RSVRD.B (R155). -/
def execRsvrdB (a : BitVec 30) (s : State) : Result := reservedRead .byte (reservedAddress a) s

/-- RSVRD.W (R155). -/
def execRsvrdW (a : BitVec 30) (s : State) : Result := reservedRead .word (reservedAddress a) s

/-- RSVRD.L (R155). -/
def execRsvrdL (a : BitVec 30) (s : State) : Result := reservedRead .long (reservedAddress a) s

/-- RSVWR.B (R156). -/
def execRsvwrB (a : BitVec 30) (_wd : Word) (s : State) : Result := reservedWrite .byte (reservedAddress a) s

/-- RSVWR.W (R156). -/
def execRsvwrW (a : BitVec 30) (_wd : Word) (s : State) : Result := reservedWrite .word (reservedAddress a) s

/-- RSVWR.L (R156). -/
def execRsvwrL (a : BitVec 30) (_wd : Word) (s : State) : Result := reservedWrite .long (reservedAddress a) s

/-- REGRSV.RD.B (R188). -/
def execRegrsvRdB (a : BitVec 29) (s : State) : Result := reservedRead .byte (fullAddress 0b111#3 a) s

/-- REGRSV.RD.W (R188). -/
def execRegrsvRdW (a : BitVec 29) (s : State) : Result := reservedRead .word (fullAddress 0b111#3 a) s

/-- REGRSV.RD.L (R188). -/
def execRegrsvRdL (a : BitVec 29) (s : State) : Result := reservedRead .long (fullAddress 0b111#3 a) s

/-- REGRSV.WR.B (R189). -/
def execRegrsvWrB (a : BitVec 29) (_wd : Word) (s : State) : Result := reservedWrite .byte (fullAddress 0b111#3 a) s

/-- REGRSV.WR.W (R189). -/
def execRegrsvWrW (a : BitVec 29) (_wd : Word) (s : State) : Result := reservedWrite .word (fullAddress 0b111#3 a) s

/-- REGRSV.WR.L (R189). -/
def execRegrsvWrL (a : BitVec 29) (_wd : Word) (s : State) : Result := reservedWrite .long (fullAddress 0b111#3 a) s

/-- BUS.SZ3: not a command (R102). -/
def execBusSz3 (_rw : BitVec 1) (_low : BitVec 33) (_s : State) : Result := .refused .undecodableSize

/-- CLS.RSV7: not a command (R102). -/
def execClsRsv7 (_low : BitVec 36) (_s : State) : Result := .refused .undecodableClass7

/-- CLS.RSV8: not a command (R102). -/
def execClsRsv8 (_low : BitVec 39) (_s : State) : Result := .refused .undecodableClass8

end Sys2Proof.Machine
end

