-- ==== Sys2Proof/Machine/Reset.lean ====
section
/-! DEFINITION. The reset commands: RESET and POWERON (spec/70_reset_and_hazards.md R280, R281). -/

namespace Sys2Proof.Machine

/-- RESET (R281). -/
def execReset (s : State) : Result := s.resetBlock.done

/-- POWERON (R280). -/
def execPoweron (s : State) : Result := s.powerOnBlock.done

end Sys2Proof.Machine
end

