-- ==== Sys2Proof/Machine/Uncached.lean ====
section
/-! DEFINITION. The uncached mirror, class 001: URD and UWR (spec/40_cache_ops.md R134 to R139). -/

namespace Sys2Proof.Machine

/-- A read of the uncached mirror, straight from the bus (R134 to R136). -/
def uncachedRead (n : Width) (low : BitVec 29) (s : State) : Result :=
  let a := fullAddress 0b001#3 low
  guardAligned n a ((s.afterRead a n).ret (s.busValue a n))

/-- A write of the uncached mirror: the bus, then Notify; no cache state is read or written (R137 to R139). -/
def uncachedWrite (n : Width) (low : BitVec 29) (wd : Word) (s : State) : Result :=
  let a := fullAddress 0b001#3 low
  guardAligned n a (s.busWriteNotify a n wd).done

/-- URD.B (R134). -/
def execUrdB (a : BitVec 29) (s : State) : Result := uncachedRead .byte a s

/-- URD.W (R135). -/
def execUrdW (a : BitVec 29) (s : State) : Result := uncachedRead .word a s

/-- URD.L (R136). -/
def execUrdL (a : BitVec 29) (s : State) : Result := uncachedRead .long a s

/-- UWR.B (R137). -/
def execUwrB (a : BitVec 29) (wd : Word) (s : State) : Result := uncachedWrite .byte a wd s

/-- UWR.W (R138). -/
def execUwrW (a : BitVec 29) (wd : Word) (s : State) : Result := uncachedWrite .word a wd s

/-- UWR.L (R139). -/
def execUwrL (a : BitVec 29) (wd : Word) (s : State) : Result := uncachedWrite .long a wd s

end Sys2Proof.Machine
end

