-- ==== Sys2Proof/Machine/Dispatch.lean ====
section
/-! DEFINITION. The dispatch: one arm per row of spec/opcode_table.json. -/

namespace Sys2Proof.Machine

def exec (i : Instr) (s : State) : Host.Outcome State Fault Refusal :=
  match i with
  | .crdB a => Sys2Proof.Machine.execCrdB a s
  | .crdW a => Sys2Proof.Machine.execCrdW a s
  | .crdL a => Sys2Proof.Machine.execCrdL a s
  | .cwrB a wd => Sys2Proof.Machine.execCwrB a wd s
  | .cwrW a wd => Sys2Proof.Machine.execCwrW a wd s
  | .cwrL a wd => Sys2Proof.Machine.execCwrL a wd s
  | .urdB a => Sys2Proof.Machine.execUrdB a s
  | .urdW a => Sys2Proof.Machine.execUrdW a s
  | .urdL a => Sys2Proof.Machine.execUrdL a s
  | .uwrB a wd => Sys2Proof.Machine.execUwrB a wd s
  | .uwrW a wd => Sys2Proof.Machine.execUwrW a wd s
  | .uwrL a wd => Sys2Proof.Machine.execUwrL a wd s
  | .purgeB a wd => Sys2Proof.Machine.execPurgeB a wd s
  | .purgeW a wd => Sys2Proof.Machine.execPurgeW a wd s
  | .purgeL a wd => Sys2Proof.Machine.execPurgeL a wd s
  | .prdB a => Sys2Proof.Machine.execPrdB a s
  | .prdW a => Sys2Proof.Machine.execPrdW a s
  | .prdL a => Sys2Proof.Machine.execPrdL a s
  | .aardL a => Sys2Proof.Machine.execAardL a s
  | .aawrL a wd => Sys2Proof.Machine.execAawrL a wd s
  | .aardB a => Sys2Proof.Machine.execAardB a s
  | .aardW a => Sys2Proof.Machine.execAardW a s
  | .aawrB a wd => Sys2Proof.Machine.execAawrB a wd s
  | .aawrW a wd => Sys2Proof.Machine.execAawrW a wd s
  | .dardB a => Sys2Proof.Machine.execDardB a s
  | .dardW a => Sys2Proof.Machine.execDardW a s
  | .dardL a => Sys2Proof.Machine.execDardL a s
  | .dawrB a wd => Sys2Proof.Machine.execDawrB a wd s
  | .dawrW a wd => Sys2Proof.Machine.execDawrW a wd s
  | .dawrL a wd => Sys2Proof.Machine.execDawrL a wd s
  | .rsvrdB a => Sys2Proof.Machine.execRsvrdB a s
  | .rsvrdW a => Sys2Proof.Machine.execRsvrdW a s
  | .rsvrdL a => Sys2Proof.Machine.execRsvrdL a s
  | .rsvwrB a wd => Sys2Proof.Machine.execRsvwrB a wd s
  | .rsvwrW a wd => Sys2Proof.Machine.execRsvwrW a wd s
  | .rsvwrL a wd => Sys2Proof.Machine.execRsvwrL a wd s
  | .rdSar0 => Sys2Proof.Machine.execRdSar0 s
  | .wrSar0 wd => Sys2Proof.Machine.execWrSar0 wd s
  | .rdDar0 => Sys2Proof.Machine.execRdDar0 s
  | .wrDar0 wd => Sys2Proof.Machine.execWrDar0 wd s
  | .rdTcr0 => Sys2Proof.Machine.execRdTcr0 s
  | .wrTcr0 wd => Sys2Proof.Machine.execWrTcr0 wd s
  | .rdChcr0 => Sys2Proof.Machine.execRdChcr0 s
  | .wrChcr0 wd => Sys2Proof.Machine.execWrChcr0 wd s
  | .rdSar1 => Sys2Proof.Machine.execRdSar1 s
  | .wrSar1 wd => Sys2Proof.Machine.execWrSar1 wd s
  | .rdDar1 => Sys2Proof.Machine.execRdDar1 s
  | .wrDar1 wd => Sys2Proof.Machine.execWrDar1 wd s
  | .rdTcr1 => Sys2Proof.Machine.execRdTcr1 s
  | .wrTcr1 wd => Sys2Proof.Machine.execWrTcr1 wd s
  | .rdChcr1 => Sys2Proof.Machine.execRdChcr1 s
  | .wrChcr1 wd => Sys2Proof.Machine.execWrChcr1 wd s
  | .rdVcrdma0 => Sys2Proof.Machine.execRdVcrdma0 s
  | .wrVcrdma0 wd => Sys2Proof.Machine.execWrVcrdma0 wd s
  | .rdVcrdma1 => Sys2Proof.Machine.execRdVcrdma1 s
  | .wrVcrdma1 wd => Sys2Proof.Machine.execWrVcrdma1 wd s
  | .rdDmaor => Sys2Proof.Machine.execRdDmaor s
  | .wrDmaor wd => Sys2Proof.Machine.execWrDmaor wd s
  | .rdCcr => Sys2Proof.Machine.execRdCcr s
  | .wrCcr wd => Sys2Proof.Machine.execWrCcr wd s
  | .rdIpra => Sys2Proof.Machine.execRdIpra s
  | .wrIpra wd => Sys2Proof.Machine.execWrIpra wd s
  | .regrsvRdB a => Sys2Proof.Machine.execRegrsvRdB a s
  | .regrsvRdW a => Sys2Proof.Machine.execRegrsvRdW a s
  | .regrsvRdL a => Sys2Proof.Machine.execRegrsvRdL a s
  | .regrsvWrB a wd => Sys2Proof.Machine.execRegrsvWrB a wd s
  | .regrsvWrW a wd => Sys2Proof.Machine.execRegrsvWrW a wd s
  | .regrsvWrL a wd => Sys2Proof.Machine.execRegrsvWrL a wd s
  | .execPass c => Sys2Proof.Machine.execExecPass c s
  | .irq v lv => Sys2Proof.Machine.execIrq v lv s
  | .irqNmi v => Sys2Proof.Machine.execIrqNmi v s
  | .iack m => Sys2Proof.Machine.execIack m s
  | .reset => Sys2Proof.Machine.execReset s
  | .poweron => Sys2Proof.Machine.execPoweron s
  | .latchNmif => Sys2Proof.Machine.execLatchNmif s
  | .latchAe => Sys2Proof.Machine.execLatchAe s
  | .busSz3 rw low => Sys2Proof.Machine.execBusSz3 rw low s
  | .clsRsv7 low => Sys2Proof.Machine.execClsRsv7 low s
  | .clsRsv8 low => Sys2Proof.Machine.execClsRsv8 low s

end Sys2Proof.Machine
end

