-- ==== Sys2Proof/Machine/Step.lean ====
section
/-! DEFINITION. One step: the first pending input is taken and run (spec/00_scope.md R15, spec/20_memory.md R67). -/

namespace Sys2Proof.Machine

/-- One step. With nothing pending the block is idle (spec/10_state.md R25, log 1). A command word is decoded and run on
the instance it addresses, as one atomic step; one that matches no row, or that comes before the instance's POWERON, is
refused. A write of another bus master changes the bus only. -/
def step (s : State) : Host.Outcome State Fault Refusal :=
  match s.inputs with
  | [] => .next s
  | .busMaster a n v :: rest => .next (s.otherMaster rest a n v)
  | .command ctx cw wd :: rest =>
    match decode cw wd with
    | .error _ => .refused .noRow
    | .ok i =>
      if (s.take ctx rest).accepts i then exec i (s.take ctx rest) else .refused .notPoweredOn

/-- The state in which the next step runs the command word in `w`'s bits 39..0, with the write data in the bits above
(0 above `nbits`), on the master's instance: it stands first among the pending inputs, and the instance exists
(log 21). -/
def State.withFetchWord (s : State) (nbits w : Nat) : State :=
  let v := w % 2 ^ nbits
  { s with
    masterOn := true
    inputs := .command .master (BitVec.ofNat 40 v) (BitVec.ofNat 32 (v / 2 ^ 40)) :: s.inputs }

end Sys2Proof.Machine
end

