-- ==== Sys2Proof/Safety.lean ====
section
/-! DEFINITION. What counts as a safe run, and the invariants the statements name. A run is safe while every command is
in the admitted set (spec/30_encoding.md R102): then no step refuses, and no step can fault (spec/60_exceptions.md
R250). -/

namespace Sys2Proof.Machine

/-- The width and the full address of a command of the BUS class whose address is an operand; none for a register
command, whose address is the register's own and aligned, and for a port command. -/
def busAccess : Instr → Option (Width × Word)
  | .crdB a => some (.byte, fullAddress 0b000#3 a)
  | .crdW a => some (.word, fullAddress 0b000#3 a)
  | .crdL a => some (.long, fullAddress 0b000#3 a)
  | .cwrB a _ => some (.byte, fullAddress 0b000#3 a)
  | .cwrW a _ => some (.word, fullAddress 0b000#3 a)
  | .cwrL a _ => some (.long, fullAddress 0b000#3 a)
  | .urdB a => some (.byte, fullAddress 0b001#3 a)
  | .urdW a => some (.word, fullAddress 0b001#3 a)
  | .urdL a => some (.long, fullAddress 0b001#3 a)
  | .uwrB a _ => some (.byte, fullAddress 0b001#3 a)
  | .uwrW a _ => some (.word, fullAddress 0b001#3 a)
  | .uwrL a _ => some (.long, fullAddress 0b001#3 a)
  | .purgeB a _ => some (.byte, fullAddress 0b010#3 a)
  | .purgeW a _ => some (.word, fullAddress 0b010#3 a)
  | .purgeL a _ => some (.long, fullAddress 0b010#3 a)
  | .prdB a => some (.byte, fullAddress 0b010#3 a)
  | .prdW a => some (.word, fullAddress 0b010#3 a)
  | .prdL a => some (.long, fullAddress 0b010#3 a)
  | .aardL a => some (.long, fullAddress 0b011#3 a)
  | .aawrL a _ => some (.long, fullAddress 0b011#3 a)
  | .aardB a => some (.byte, fullAddress 0b011#3 a)
  | .aardW a => some (.word, fullAddress 0b011#3 a)
  | .aawrB a _ => some (.byte, fullAddress 0b011#3 a)
  | .aawrW a _ => some (.word, fullAddress 0b011#3 a)
  | .dardB a => some (.byte, fullAddress 0b110#3 a)
  | .dardW a => some (.word, fullAddress 0b110#3 a)
  | .dardL a => some (.long, fullAddress 0b110#3 a)
  | .dawrB a _ => some (.byte, fullAddress 0b110#3 a)
  | .dawrW a _ => some (.word, fullAddress 0b110#3 a)
  | .dawrL a _ => some (.long, fullAddress 0b110#3 a)
  | .rsvrdB a => some (.byte, reservedAddress a)
  | .rsvrdW a => some (.word, reservedAddress a)
  | .rsvrdL a => some (.long, reservedAddress a)
  | .rsvwrB a _ => some (.byte, reservedAddress a)
  | .rsvwrW a _ => some (.word, reservedAddress a)
  | .rsvwrL a _ => some (.long, reservedAddress a)
  | .rdSar0 => none
  | .wrSar0 _ => none
  | .rdDar0 => none
  | .wrDar0 _ => none
  | .rdTcr0 => none
  | .wrTcr0 _ => none
  | .rdChcr0 => none
  | .wrChcr0 _ => none
  | .rdSar1 => none
  | .wrSar1 _ => none
  | .rdDar1 => none
  | .wrDar1 _ => none
  | .rdTcr1 => none
  | .wrTcr1 _ => none
  | .rdChcr1 => none
  | .wrChcr1 _ => none
  | .rdVcrdma0 => none
  | .wrVcrdma0 _ => none
  | .rdVcrdma1 => none
  | .wrVcrdma1 _ => none
  | .rdDmaor => none
  | .wrDmaor _ => none
  | .rdCcr => none
  | .wrCcr _ => none
  | .rdIpra => none
  | .wrIpra _ => none
  | .regrsvRdB a => some (.byte, fullAddress 0b111#3 a)
  | .regrsvRdW a => some (.word, fullAddress 0b111#3 a)
  | .regrsvRdL a => some (.long, fullAddress 0b111#3 a)
  | .regrsvWrB a _ => some (.byte, fullAddress 0b111#3 a)
  | .regrsvWrW a _ => some (.word, fullAddress 0b111#3 a)
  | .regrsvWrL a _ => some (.long, fullAddress 0b111#3 a)
  | .execPass _ => none
  | .irq _ _ => none
  | .irqNmi _ => none
  | .iack _ => none
  | .reset => none
  | .poweron => none
  | .latchNmif => none
  | .latchAe => none
  | .busSz3 _ _ => none
  | .clsRsv7 _ => none
  | .clsRsv8 _ => none

/-- The command is in the admitted set (R65, R102): it is a command, its term stands for a word, and its address is
aligned. -/
def admitted (i : Instr) : Bool :=
  match i with
  | .busSz3 _ _ => false
  | .clsRsv7 _ => false
  | .clsRsv8 _ => false
  | _ => i.wellFormed && (busAccess i).all (fun x => aligned x.1 x.2)

/-- The next step is not refused. -/
def safeStep (s : State) : Prop :=
  ∃ t, step s = .next t

/-! ### Invariants -/

/-- DATA and DA of an instance are in canonical form and hold 4096 bytes each (R35, R36). -/
def Block.memoryWf (b : Block) : Prop :=
  b.data.wf ∧ b.data.below 4096 ∧ b.da.wf ∧ b.da.below 4096

/-- Every byte store is in canonical form and inside its address space. -/
def State.memoryWf (s : State) : Prop :=
  s.bus.wf ∧ s.bus.below (2 ^ 28) ∧ s.master.memoryWf ∧ s.slave.memoryWf

/-- Q as R39 and R236 say: at most `cap` entries, levels 1 to 16, one entry per vector, and the sequence numbers rise
in the order of arrival and stay below SEQ. -/
structure Block.QueueWf (cap : Nat) (b : Block) : Prop where
  capacity : b.q.length ≤ cap
  levels   : ∀ e ∈ b.q, 1 ≤ e.level ∧ e.level ≤ 16
  vectors  : b.q.Pairwise (fun e f => e.vector ≠ f.vector)
  order    : b.q.Pairwise (fun e f => e.seq < f.seq)
  fresh    : ∀ e ∈ b.q, e.seq < b.seq

/-- Both queues are as R39 says. -/
def State.queuesWf (s : State) : Prop :=
  s.master.QueueWf s.params.irqCap ∧ s.slave.QueueWf s.params.irqCap

/-- The bits that read 0 are 0 (R31, R32), and TEM[n] = 1 implies TE[n] = 1 (R27). -/
structure Block.FlagsWf (b : Block) : Prop where
  ccrReserved  : b.ccr &&& 0x30#8 = 0#8
  ipraReserved : b.ipra &&& 0x000F#16 = 0#16
  tem          : ∀ n, (b.chan n).tem = true → chcrTE (b.chan n).chcr = true

/-- Both instances' flags are as R27, R31 and R32 say. -/
def State.flagsWf (s : State) : Prop :=
  s.master.FlagsWf ∧ s.slave.FlagsWf

/-- At most one way per line holds a given tag (R38, spec/40_cache_ops.md R157 a). -/
def Block.tagsUnique (b : Block) : Prop :=
  ∀ (l : Fin 64) (w w' : Fin 4) (t : BitVec 19), (b.line l).holds w t → (b.line l).holds w' t → w = w'

/-- A WINDOW in its canonical form: runs in ascending order with a gap of at least one page between two of them, all
inside the 12-bit page keys; then its runs are the maximal runs of R126. -/
def windowWf : Nat → List PageRun → Bool
  | _, [] => true
  | lo, r :: rs => decide (lo ≤ r.first) && decide (r.first ≤ r.last) && decide (r.last < 4096) && windowWf (r.last + 2) rs

/-- Parameters as R5 and R8 admit them. -/
def paramsWf (p : Params) : Bool :=
  windowWf 0 p.window && decide (0 < p.irqCap)

/-! ### The spec's predicates, written out -/

/-- CACHEABLE(a) (spec/20_memory.md R61). -/
def Cacheable (s : State) (a : Word) : Prop :=
  a.extractLsb' 29 3 = 0b000#3 ∧ s.blk.ccr.getLsbD 0 = true
    ∧ ∃ r ∈ s.params.window, r.first ≤ pageOf a ∧ pageOf a ≤ r.last

/-- Way `w` of the line of `a` is valid and holds the tag of `a` (R38). -/
def HoldsTag (b : Block) (a : Word) (w : Fin 4) : Prop :=
  (b.line (lineOf a)).slots[w].v = true ∧ (b.line (lineOf a)).slots[w].tag = tagOf a

/-- LOOKUP(a) hits way `w`: the least way that holds the tag (R38, spec/40_cache_ops.md R120). -/
def HitsAt (b : Block) (a : Word) (w : Fin 4) : Prop :=
  HoldsTag b a w ∧ ∀ w', w' < w → ¬ HoldsTag b a w'

/-- LOOKUP(a) misses. -/
def Misses (b : Block) (a : Word) : Prop :=
  ∀ w, ¬ HoldsTag b a w

/-- ENGINE_ON (spec/42_dma_engine.md R200). -/
def EngineOn (b : Block) : Prop :=
  b.dmaor.getLsbD 0 = true ∧ b.dmaor.getLsbD 2 = false ∧ b.dmaor.getLsbD 1 = false

/-- MALFORMED (R202). -/
def Malformed (c : Channel) : Prop :=
  c.chcr.extractLsb' 12 2 = 3#2 ∨ c.chcr.extractLsb' 14 2 = 3#2
    ∨ ¬ min (unitBytes (c.chcr.extractLsb' 10 2)) 4 ∣ c.sar.toNat
    ∨ ¬ min (unitBytes (c.chcr.extractLsb' 10 2)) 4 ∣ c.dar.toNat

/-- REQUESTING (R201). -/
def Requesting (c : Channel) : Prop :=
  c.chcr.getLsbD 0 = true ∧ c.chcr.getLsbD 1 = false ∧ ¬ Malformed c

/-- Channel `n` alone requests, with the engine on (R204, R213). -/
def LoneChannel (s : State) (n : ChannelId) : Prop :=
  EngineOn s.blk ∧ Requesting (s.chan n) ∧ ∀ m, m ≠ n → ¬ Requesting (s.chan m)

/-- Channel `n` gets a turn in a pass begun in `s` (R204). -/
def GetsTurn (s : State) (n : ChannelId) : Prop :=
  EngineOn s.blk ∧ Requesting (s.chan n)
    ∧ (n = .ch1 → Requesting (s.chan .ch0) → s.blk.dmaor.getLsbD 3 = true)

/-- The page of `a` is RAM, and only then does a bus write store and a later read return what is stored (R12). -/
def OnRam (s : State) (a : Word) : Prop :=
  pageKindIn s.pages (pageOf a) = .ram

/-- The value of a bus read at `a` that comes after `k` others of the same page in one command (R12). -/
def busAnswer (s : State) (a : Word) (n : Width) (k : Nat) : Word :=
  match pageKindIn s.pages (pageOf a) with
  | .ram => s.bus.readBE (busKey a) n
  | .unmapped => unmapped n
  | .handler => lowBytes n (Config.busDraw (s.draws + k))

/-- The number of free values given once `k` bus reads of the page of `a` have been made. -/
def drawsAfter (s : State) (a : Word) (k : Nat) : Nat :=
  if pageKindIn s.pages (pageOf a) = .handler then s.draws + k else s.draws

/-- The RAM bytes after a bus write (R12): a page that is not RAM stores nothing. -/
def storedBus (s : State) (a : Word) (n : Width) (v : Word) : Memory :=
  if pageKindIn s.pages (pageOf a) = .ram then s.bus.writeBE (busKey a) n v else s.bus

/-- Long `i` of the line of `a` as a fill fetches it (R123). -/
def fillAddress (a : Word) (i : Nat) : Word :=
  lineBase a + BitVec.ofNat 32 (4 * i)

/-- Byte `b` of the line of `a` as a fill brings it in (R123). -/
def fillByte (s : State) (a : Word) (b : Nat) : Byte :=
  beByte .long (busAnswer s (fillAddress a (b / 4)) .long (b / 4)) (b % 4)

/-- The four bus reads of a fill, in order (R123). -/
def fillReads (s : State) (a : Word) : List Event :=
  (List.range 4).map fun i =>
    .busRead s.cur (busAddress (fillAddress a i)) .long (busAnswer s (fillAddress a i) .long i)

/-- One bus read at `src` and one bus write of its value at `dst` (R206). -/
def copied (s : State) (src dst : Word) (n : Width) : State :=
  let x := busAnswer s src n 0
  { s with
    bus := storedBus s dst n x
    draws := drawsAfter s src 1
    trace := s.trace ++ [.busRead s.cur (busAddress src) n x, .busWrite s.cur (busAddress dst) n (lowBytes n x)] }

/-- The notifications of InvalidateAll, one for each run of WINDOW pages (R126). -/
def windowEvents (s : State) : List Event :=
  s.params.window.map fun r =>
    .notify s.cur (BitVec.ofNat 32 (r.first * 2 ^ 16)) ((r.last - r.first + 1) * 2 ^ 16)

/-- The event is a notification. -/
def Event.isNotify : Event → Bool
  | .notify _ _ _ => true
  | _ => false

/-- The RAM bytes after the bus writes among some events, in order (R12, R70). -/
def replay (pages : List PageMapEntry) : List Event → Memory → Memory
  | [], m => m
  | .busWrite _ a n v :: es, m =>
    replay pages es
      (if pageKindIn pages (a.extractLsb' 16 12).toNat = .ram
       then m.writeBE (fun i => (a + BitVec.ofNat 28 i).toNat) n v else m)
  | _ :: es, m => replay pages es m

/-- The cache is coherent with the bus: every valid slot belongs to a shadowed RAM page while the cache is on, its tag
names an address below 0x10000000, and its bytes are the bytes of the bus (R61, R63, R157 c). -/
def Coherent (s : State) : Prop :=
  ∀ (l : Fin 64) (w : Fin 4), (s.blk.line l).slots[w].v = true →
    let base : BitVec 28 := (s.blk.line l).slots[w].tag.extractLsb' 0 18 ++ BitVec.ofNat 6 l.val ++ 0#4
    let page := (base.extractLsb' 16 12).toNat
    (s.blk.line l).slots[w].tag.getLsbD 18 = false
      ∧ s.blk.ccr.getLsbD 0 = true ∧ (∃ r ∈ s.params.window, r.first ≤ page ∧ page ≤ r.last)
      ∧ pageKindIn s.pages page = .ram
      ∧ ∀ b < 16, s.blk.data.read (dataKey l w 0 b) = s.bus.read (base.toNat + b)

/-- The LRU value of the order `p` of the ways, from most to least recent: each bit of spec/10_state.md R34 says that
the first way it names was used less recently than the second. -/
def lruCode (p : List (Fin 4)) : BitVec 6 :=
  let less (u w : Fin 4) : BitVec 1 := BitVec.ofBool (decide (p.idxOf w < p.idxOf u))
  less 0 1 ++ less 0 2 ++ less 0 3 ++ less 1 2 ++ less 1 3 ++ less 2 3

/-- SAR[n] stands at 0xFFFFFF80 or 0xFFFFFF90, and DAR, TCR and CHCR 4, 8 and 12 above it (spec/30_encoding.md R96). -/
def channelAddress : ChannelId → Word
  | .ch0 => 0xFFFFFF80#32
  | .ch1 => 0xFFFFFF90#32

/-- The address of VCRDMA[n] (R96). -/
def vectorAddress : ChannelId → Word
  | .ch0 => 0xFFFFFFA0#32
  | .ch1 => 0xFFFFFFA8#32

end Sys2Proof.Machine

namespace Sys2Proof

/-! ### Commands of one family, by width or channel -/

/-- The kind byte of a BUS command (R92). -/
def kindByte (wr : Bool) (n : Width) : BitVec 8 :=
  match wr, n with
  | false, .byte => 0x00#8
  | false, .word => 0x02#8
  | false, .long => 0x04#8
  | true, .byte => 0x08#8
  | true, .word => 0x0A#8
  | true, .long => 0x0C#8

/-- The command word of a BUS access at `a` (R92). -/
def busWord (wr : Bool) (n : Width) (a : Word) : BitVec 40 :=
  kindByte wr n ++ a

/-- CRD at a width. -/
def Instr.crd (n : Width) (a : BitVec 29) : Instr :=
  match n with
  | .byte => .crdB a
  | .word => .crdW a
  | .long => .crdL a

/-- CWR at a width. -/
def Instr.cwr (n : Width) (a : BitVec 29) (wd : Word) : Instr :=
  match n with
  | .byte => .cwrB a wd
  | .word => .cwrW a wd
  | .long => .cwrL a wd

/-- URD at a width. -/
def Instr.urd (n : Width) (a : BitVec 29) : Instr :=
  match n with
  | .byte => .urdB a
  | .word => .urdW a
  | .long => .urdL a

/-- UWR at a width. -/
def Instr.uwr (n : Width) (a : BitVec 29) (wd : Word) : Instr :=
  match n with
  | .byte => .uwrB a wd
  | .word => .uwrW a wd
  | .long => .uwrL a wd

/-- PURGE at a width. -/
def Instr.purge (n : Width) (a : BitVec 29) (wd : Word) : Instr :=
  match n with
  | .byte => .purgeB a wd
  | .word => .purgeW a wd
  | .long => .purgeL a wd

/-- PRD at a width. -/
def Instr.prd (n : Width) (a : BitVec 29) : Instr :=
  match n with
  | .byte => .prdB a
  | .word => .prdW a
  | .long => .prdL a

/-- DARD at a width. -/
def Instr.dard (n : Width) (a : BitVec 29) : Instr :=
  match n with
  | .byte => .dardB a
  | .word => .dardW a
  | .long => .dardL a

/-- DAWR at a width. -/
def Instr.dawr (n : Width) (a : BitVec 29) (wd : Word) : Instr :=
  match n with
  | .byte => .dawrB a wd
  | .word => .dawrW a wd
  | .long => .dawrL a wd

/-- RSVRD at a width. -/
def Instr.rsvrd (n : Width) (a : BitVec 30) : Instr :=
  match n with
  | .byte => .rsvrdB a
  | .word => .rsvrdW a
  | .long => .rsvrdL a

/-- RSVWR at a width. -/
def Instr.rsvwr (n : Width) (a : BitVec 30) (wd : Word) : Instr :=
  match n with
  | .byte => .rsvwrB a wd
  | .word => .rsvwrW a wd
  | .long => .rsvwrL a wd

/-- REGRSV.RD at a width. -/
def Instr.regrsvRd (n : Width) (a : BitVec 29) : Instr :=
  match n with
  | .byte => .regrsvRdB a
  | .word => .regrsvRdW a
  | .long => .regrsvRdL a

/-- REGRSV.WR at a width. -/
def Instr.regrsvWr (n : Width) (a : BitVec 29) (wd : Word) : Instr :=
  match n with
  | .byte => .regrsvWrB a wd
  | .word => .regrsvWrW a wd
  | .long => .regrsvWrL a wd

/-- RD.L SAR of a channel. -/
def Instr.rdSar (n : Machine.ChannelId) : Instr :=
  match n with
  | .ch0 => .rdSar0
  | .ch1 => .rdSar1

/-- WR.L SAR of a channel. -/
def Instr.wrSar (n : Machine.ChannelId) (wd : Word) : Instr :=
  match n with
  | .ch0 => .wrSar0 wd
  | .ch1 => .wrSar1 wd

/-- RD.L DAR of a channel. -/
def Instr.rdDar (n : Machine.ChannelId) : Instr :=
  match n with
  | .ch0 => .rdDar0
  | .ch1 => .rdDar1

/-- WR.L DAR of a channel. -/
def Instr.wrDar (n : Machine.ChannelId) (wd : Word) : Instr :=
  match n with
  | .ch0 => .wrDar0 wd
  | .ch1 => .wrDar1 wd

/-- RD.L TCR of a channel. -/
def Instr.rdTcr (n : Machine.ChannelId) : Instr :=
  match n with
  | .ch0 => .rdTcr0
  | .ch1 => .rdTcr1

/-- WR.L TCR of a channel. -/
def Instr.wrTcr (n : Machine.ChannelId) (wd : Word) : Instr :=
  match n with
  | .ch0 => .wrTcr0 wd
  | .ch1 => .wrTcr1 wd

/-- RD.L CHCR of a channel. -/
def Instr.rdChcr (n : Machine.ChannelId) : Instr :=
  match n with
  | .ch0 => .rdChcr0
  | .ch1 => .rdChcr1

/-- WR.L CHCR of a channel. -/
def Instr.wrChcr (n : Machine.ChannelId) (wd : Word) : Instr :=
  match n with
  | .ch0 => .wrChcr0 wd
  | .ch1 => .wrChcr1 wd

/-- RD.L VCRDMA of a channel. -/
def Instr.rdVcrdma (n : Machine.ChannelId) : Instr :=
  match n with
  | .ch0 => .rdVcrdma0
  | .ch1 => .rdVcrdma1

/-- WR.L VCRDMA of a channel. -/
def Instr.wrVcrdma (n : Machine.ChannelId) (wd : Word) : Instr :=
  match n with
  | .ch0 => .wrVcrdma0 wd
  | .ch1 => .wrVcrdma1 wd

end Sys2Proof
end

