-- ==== Sys2Proof/Certificates/Slice0/Obligations.lean ====
section
/-! DEFINITION. The statements for the provers. The predicates they use are written out in Safety.lean. -/

section

open Sys2Proof Sys2Proof.Machine

/-! ### Encoding -/

/-- Decoding the encoding of a well-formed command gives the command back, with every operand (R90 to R98). -/
def Obligations.DecodeOfEncode : Prop :=
  ∀ i : Instr, i.wellFormed = true → decode (encode i).1 (encode i).2 = .ok i

/-- Every word that decodes is the encoding of the well-formed command it decodes to; the write data is an operand of a
bus write and of nothing else (R90, R92). -/
def Obligations.EncodeOfDecode : Prop :=
  ∀ (cw : BitVec 40) (wd : Word) (i : Instr), decode cw wd = .ok i →
    i.wellFormed = true ∧ (encode i).1 = cw
      ∧ (encode i).2 = if cw.extractLsb' 36 4 = 0#4 ∧ cw.getLsbD 35 = true ∧ cw.extractLsb' 33 2 ≠ 3#2 then wd else 0#32

/-- R99: the decoded row matches the word and has more mask bits than every other row that matches; a word that decodes
to nothing matches no row; and two different rows that match one word are a register row, of 40 mask bits, and a
REGRSV row, of 11. -/
def Obligations.HeaviestRowDecodes : Prop :=
  (∀ cw wd i, decode cw wd = .ok i →
    i.row.hits cw = true ∧ ∀ j : Instr, j.row.hits cw = true → j.row ≠ i.row → j.row.weight < i.row.weight)
  ∧ (∀ cw wd e, decode cw wd = .error e → ∀ j : Instr, j.row.hits cw = false)
  ∧ ∀ (cw : BitVec 40) (i j : Instr), i.row.hits cw = true → j.row.hits cw = true → i.row ≠ j.row →
      (i.row.weight = 40 ∧ j.row.mask = 0xFFE0000000#40 ∧ cw.extractLsb' 29 3 = 0b111#3)
        ∨ (j.row.weight = 40 ∧ i.row.mask = 0xFFE0000000#40 ∧ cw.extractLsb' 29 3 = 0b111#3)

/-- The words of undecodable space that no row names (R102, U4): a BUS word with bit 32 set; a port word with one of
CW[35:32] set; a payload bit set that R98 fixes to 0; a level 17 to 31. Every other word decodes. -/
def Obligations.UndecodableWords : Prop :=
  ∀ (cw : BitVec 40) (wd : Word),
    let cls := (cw.extractLsb' 36 4).toNat
    let p := cw.extractLsb' 0 32
    (∃ e, decode cw wd = .error e) ↔
      (cls = 0 ∧ cw.extractLsb' 33 2 ≠ 3#2 ∧ cw.getLsbD 32 = true)
      ∨ (1 ≤ cls ∧ cls ≤ 6 ∧ cw.extractLsb' 32 4 ≠ 0#4)
      ∨ (cls = 2 ∧ (p.extractLsb' 13 19 ≠ 0#19 ∨ 17 ≤ (p.extractLsb' 8 5).toNat))
      ∨ (cls = 3 ∧ p.extractLsb' 4 28 ≠ 0#28)
      ∨ ((cls = 4 ∨ cls = 5) ∧ p ≠ 0#32)
      ∨ (cls = 6 ∧ p.extractLsb' 1 31 ≠ 0#31)

/-- Command words written out from the spec's encodings decode to the commands they stand for, one per family. -/
def Obligations.SpecWordsDecode : Prop :=
  decode 0x040600001C#40 0#32 = .ok (.crdL 0x0600001C#29)
  ∧ decode 0x0A06000012#40 0xBEEF#32 = .ok (.cwrW 0x06000012#29 0xBEEF#32)
  ∧ decode 0x0026000013#40 0#32 = .ok (.urdB 0x06000013#29)
  ∧ decode 0x0846000013#40 0#32 = .ok (.purgeB 0x06000013#29 0#32)
  ∧ decode 0x0C60000020#40 0x0600013C#32 = .ok (.aawrL 0x20#29 0x0600013C#32)
  ∧ decode 0x04C0000FFC#40 0#32 = .ok (.dardL 0xFFC#29)
  ∧ decode 0x0CA0000000#40 1#32 = .ok (.rsvwrL 0x20000000#30 1#32)
  ∧ decode 0x0CFFFFFF8C#40 0x5805#32 = .ok (.wrChcr0 0x5805#32)
  ∧ decode 0x0AFFFFFEE2#40 0x0500#32 = .ok (.wrIpra 0x0500#32)
  ∧ decode 0x02FFFFFF8C#40 0#32 = .ok (.regrsvRdW 0x1FFFFF8C#29)
  ∧ decode 0x1000000007#40 0#32 = .ok (.execPass 7#32)
  ∧ decode 0x2000000540#40 0#32 = .ok (.irq 0x40#8 5#4)
  ∧ decode 0x200000100B#40 0#32 = .ok (.irqNmi 0x0B#8)
  ∧ decode 0x3000000008#40 0#32 = .ok (.iack 8#4)
  ∧ decode 0x5000000000#40 0#32 = .ok .poweron
  ∧ decode 0x6000000001#40 0#32 = .ok .latchAe

/-! ### The step -/

/-- A step runs the decoded command: it takes the first input, whose word decodes to `i`, and is exec of `i` on the
instance the input addresses, which exists or is being powered on (R15, R67, R280; how commands arrive is log 1). -/
def Obligations.StepRunsDecodedCommand : Prop :=
  ∀ (s : State) (ctx : ContextId) (cw : BitVec 40) (wd : Word) (rest : List Input) (i : Instr),
    s.inputs = .command ctx cw wd :: rest → decode cw wd = .ok i →
    i = .poweron ∨ (if ctx = .master then s.masterOn else s.slaveOn) = true →
    step s = exec i { s with inputs := rest, cur := ctx }

/-- What a step refuses by itself: a word that matches no row (R102), and a command other than POWERON to an instance
that has not been through POWERON (R280; logs 12 and 14). -/
def Obligations.StepRefusals : Prop :=
  ∀ (s : State) (ctx : ContextId) (cw : BitVec 40) (wd : Word) (rest : List Input),
    s.inputs = .command ctx cw wd :: rest →
    (∀ e, decode cw wd = .error e → step s = .refused .noRow)
    ∧ ∀ i, decode cw wd = .ok i → i ≠ .poweron → (if ctx = .master then s.masterOn else s.slaveOn) = false →
        step s = .refused .notPoweredOn

/-- The model's choices for the inputs (logs 1 and 18): with nothing pending a step changes nothing, and a write of
another bus master changes the bus and no instance (R72). -/
def Obligations.IdleAndOtherMasters : Prop :=
  ∀ s : State,
    (s.inputs = [] → step s = .next s)
    ∧ ∀ a n v rest, s.inputs = .busMaster a n v :: rest →
        step s = .next { s with inputs := rest, bus := storedBus s a n v }

/-- Every command of the BUS class whose address is misaligned for its width is refused, in every state (R65, log 13). -/
def Obligations.MisalignedRefused : Prop :=
  ∀ (i : Instr) (n : Width) (a : Word) (s : State), busAccess i = some (n, a) → aligned n a = false →
    exec i s = .refused .misaligned

/-- The three rows that mark undecodable space are refused, each by its name (R102, log 14). -/
def Obligations.UndecodableRowsRefused : Prop :=
  ∀ s : State,
    (∀ rw low, exec (.busSz3 rw low) s = .refused .undecodableSize)
    ∧ (∀ low, exec (.clsRsv7 low) s = .refused .undecodableClass7)
    ∧ ∀ low, exec (.clsRsv8 low) s = .refused .undecodableClass8

/-- Every command of the admitted set completes in every state: nothing faults, nothing blocks (R102, R250). -/
def Obligations.AdmittedCommandsComplete : Prop :=
  ∀ (i : Instr) (s : State), admitted i = true → ∃ t, exec i s = .next t

/-! ### The cached area and the uncached mirror -/

/-- CRD at the three widths (R128, R129, R130, with R120, R123, R124): a hit returns the way's bytes and touches the
LRU; a miss fills the victim with four longs, ascending, and one notification, and returns the bytes fetched; an access
that is not cacheable is a bus read. Nothing else changes. The LRU pair is that of the parameters, whichever it is (R9). -/
def Obligations.CachedReads : Prop :=
  ∀ (n : Width) (low : BitVec 29) (wd : Word) (s : State),
    let a := fullAddress 0b000#3 low
    let l := lineOf a
    let x := s.blk.line l
    aligned n a = true →
    decode (busWord false n a) wd = .ok (Instr.crd n low)
    ∧ (∀ w, Cacheable s a → HitsAt s.blk a w →
        exec (Instr.crd n low) s = .next
          { s.setBlk (s.blk.setLine l { x with lru := s.params.lru.touched x.lru w }) with
            result := some (s.blk.data.readBE (dataKey l w (offOf a)) n) })
    ∧ (Cacheable s a → Misses s.blk a → s.blk.data.wf = true →
        let w := s.params.lru.victimOf x.lru (s.blk.ccr.getLsbD 3)
        ∃ d : Memory,
          exec (Instr.crd n low) s = .next
            { s.setBlk { s.blk.setLine l { lru := s.params.lru.touched x.lru w, slots := x.slots.set w ⟨true, tagOf a⟩ } with
                data := d } with
              draws := drawsAfter s a 4
              trace := s.trace ++ fillReads s a ++ [.notify s.cur (lineBase a) 16]
              result := some (beRead (fun i => fillByte s a ((offOf a).toNat + i)) n) }
          ∧ d.wf = true
          ∧ (∀ b < 16, d.read (dataKey l w 0 b) = fillByte s a b)
          ∧ ∀ k, (∀ b < 16, k ≠ dataKey l w 0 b) → d.read k = s.blk.data.read k)
    ∧ (¬ Cacheable s a →
        exec (Instr.crd n low) s = .next
          { s with
            draws := drawsAfter s a 1
            trace := s.trace ++ [.busRead s.cur (busAddress a) n (busAnswer s a n 0)]
            result := some (busAnswer s a n 0) })

/-- CWR at the three widths (R131, R132, R133, with R125): a hit updates the way's bytes in place and touches the LRU;
a miss, or an access that is not cacheable, changes no cache state; the write always goes to the bus, then one
notification. Nothing else changes. The LRU pair is that of the parameters, whichever it is (R9). -/
def Obligations.CachedWrites : Prop :=
  ∀ (n : Width) (low : BitVec 29) (wd : Word) (s : State),
    let a := fullAddress 0b000#3 low
    let l := lineOf a
    let x := s.blk.line l
    let events : List Event := [.busWrite s.cur (busAddress a) n (lowBytes n wd), .notify s.cur a n.bytes]
    aligned n a = true →
    decode (busWord true n a) wd = .ok (Instr.cwr n low wd)
    ∧ (∀ w, Cacheable s a → HitsAt s.blk a w →
        exec (Instr.cwr n low wd) s = .next
          { s.setBlk { s.blk.setLine l { x with lru := s.params.lru.touched x.lru w } with
              data := s.blk.data.writeBE (dataKey l w (offOf a)) n wd } with
            bus := storedBus s a n wd, trace := s.trace ++ events, result := none })
    ∧ (¬ Cacheable s a ∨ Misses s.blk a →
        exec (Instr.cwr n low wd) s = .next
          { s with bus := storedBus s a n wd, trace := s.trace ++ events, result := none })

/-- URD at the three widths (R134, R135, R136): the bus value, and no state of the block is read or written. -/
def Obligations.UncachedReads : Prop :=
  ∀ (n : Width) (low : BitVec 29) (wd : Word) (s : State),
    let a := fullAddress 0b001#3 low
    aligned n a = true →
    decode (busWord false n a) wd = .ok (Instr.urd n low)
    ∧ exec (Instr.urd n low) s = .next
        { s with
          draws := drawsAfter s a 1
          trace := s.trace ++ [.busRead s.cur (busAddress a) n (busAnswer s a n 0)]
          result := some (busAnswer s a n 0) }

/-- UWR at the three widths (R137, R138, R139): the bus write, then one notification; no cache state changes. -/
def Obligations.UncachedWrites : Prop :=
  ∀ (n : Width) (low : BitVec 29) (wd : Word) (s : State),
    let a := fullAddress 0b001#3 low
    aligned n a = true →
    decode (busWord true n a) wd = .ok (Instr.uwr n low wd)
    ∧ exec (Instr.uwr n low wd) s = .next
        { s with
          bus := storedBus s a n wd
          trace := s.trace ++ [.busWrite s.cur (busAddress a) n (lowBytes n wd), .notify s.cur a n.bytes]
          result := none }

/-- Where a CPU-side write stores (R12, R64): on a RAM page byte `i` of the written value, the most significant first,
stands at bus address a + i, and every other bus byte reads as before. On an unmapped page every byte reads as before
(R12). That every byte reads as before on a handler page too is the model's choice (log 9, unsafe for writes): R12 only
says that such a page behaves as its handler decides. -/
def Obligations.WrittenBytes : Prop :=
  ∀ (i : Instr) (n : Width) (a wd : Word) (s t : State),
    (∃ low, (i = Instr.cwr n low wd ∧ a = fullAddress 0b000#3 low)
      ∨ (i = Instr.uwr n low wd ∧ a = fullAddress 0b001#3 low)) →
    s.bus.wf = true → exec i s = .next t →
    (OnRam s a → ∀ k < n.bytes,
      t.bus.read ((busAddress a).toNat + k) = (wd >>> (8 * (n.bytes - 1 - k))).setWidth 8)
    ∧ ∀ k, ¬ OnRam s a ∨ k < (busAddress a).toNat ∨ (busAddress a).toNat + n.bytes ≤ k →
        t.bus.read k = s.bus.read k

/-- Write-through (R157 b): after CWR of `wd` at a RAM address, hit or miss, an uncached read of the same location
returns the written value, in this instance and in the other. -/
def Obligations.WriteThrough : Prop :=
  ∀ (n : Width) (low : BitVec 29) (wd : Word) (s t u : State) (ctx : ContextId),
    s.bus.wf = true → OnRam s (fullAddress 0b000#3 low) →
    exec (Instr.cwr n low wd) s = .next t → exec (Instr.urd n low) { t with cur := ctx } = .next u →
    u.result = some (lowBytes n wd)

/-- Transparency of one read (R157 c): when the cache is coherent with the bus, a cached read and an uncached read of
one location below 0x10000000 on a RAM page return the same value, whether the cache is on or off. -/
def Obligations.CachedReadIsTransparent : Prop :=
  ∀ (n : Width) (low : BitVec 29) (s t u : State),
    Coherent s → s.blk.data.wf = true → low.getLsbD 28 = false → OnRam s (fullAddress 0b000#3 low) →
    exec (Instr.crd n low) s = .next t → exec (Instr.urd n low) s = .next u →
    t.result = u.result

/-- The cache stays coherent with the bus (R157 c): with every page RAM, the stores well-formed and no tag twice in a line,
every command keeps it so, but an Address Array write, an uncached write, a CHCR write, a pass, and a cached access at or
above 0x10000000 (the alias of R63). -/
def Obligations.CoherenceKept : Prop :=
  ∀ (i : Instr) (s t : State),
    s.memoryWf → s.blk.tagsUnique → (∀ page, pageKindIn s.pages page = .ram) → Coherent s →
    (∀ n low, i = Instr.crd n low → low.getLsbD 28 = false) →
    (∀ n low wd, i = Instr.cwr n low wd → low.getLsbD 28 = false) →
    (∀ n low wd, i ≠ Instr.uwr n low wd) → (∀ low wd, i ≠ .aawrL low wd) →
    (∀ n wd, i ≠ Instr.wrChcr n wd) → (∀ c, i ≠ .execPass c) →
    exec i s = .next t → Coherent t

/-! ### The purge area, the windows, reserved space -/

/-- PURGE at the three widths (R140, R141, R142, with R127): the way LOOKUP finds loses V and TAG and the line its LRU;
without a match nothing changes. No bus access, no notification. -/
def Obligations.Purges : Prop :=
  ∀ (n : Width) (low : BitVec 29) (wd : Word) (s : State),
    let a := fullAddress 0b010#3 low
    let l := lineOf a
    aligned n a = true →
    decode (busWord true n a) wd = .ok (Instr.purge n low wd)
    ∧ (∀ w, HitsAt s.blk a w →
        exec (Instr.purge n low wd) s = .next
          { s.setBlk (s.blk.setLine l { lru := 0, slots := (s.blk.line l).slots.set w ⟨false, 0⟩ }) with
            result := none })
    ∧ (Misses s.blk a → exec (Instr.purge n low wd) s = .next { s with result := none })

/-- After a purge no way holds the tag of the purged line, unless two ways held it (R75 a). -/
def Obligations.PurgedLineMisses : Prop :=
  ∀ (n : Width) (low : BitVec 29) (wd : Word) (s t : State),
    s.blk.tagsUnique → exec (Instr.purge n low wd) s = .next t →
    Misses t.blk (fullAddress 0b010#3 low) ∧ Misses t.blk (fullAddress 0b000#3 low)

/-- Reads of reserved space return the unmapped value of their width and change nothing: the purge area (R143, R144,
R145), the reserved classes (R155), the rest of class 111 (R188); and both rows of each reserved width of the Address
Array, whose writes are discarded (R148). The spec marks the value and the discarding as its own choice (decisions D14,
D32, D42; log 15). -/
def Obligations.ReservedReads : Prop :=
  ∀ (n : Width) (wd : Word) (s : State),
    let t : State := { s with result := some (match n with
      | .byte => 0x00000000#32
      | .word => 0x0000FFFF#32
      | .long => 0xFFFFFFFF#32) }
    (∀ low, aligned n (fullAddress 0b010#3 low) = true →
      decode (busWord false n (fullAddress 0b010#3 low)) wd = .ok (Instr.prd n low) ∧ exec (Instr.prd n low) s = .next t)
    ∧ (∀ low, n = .byte →
      decode (busWord false n (fullAddress 0b011#3 low)) wd = .ok (.aardB low) ∧ exec (.aardB low) s = .next t
      ∧ decode (busWord true n (fullAddress 0b011#3 low)) wd = .ok (.aawrB low wd)
      ∧ exec (.aawrB low wd) s = .next { s with result := none })
    ∧ (∀ low, n = .word → aligned n (fullAddress 0b011#3 low) = true →
      decode (busWord false n (fullAddress 0b011#3 low)) wd = .ok (.aardW low) ∧ exec (.aardW low) s = .next t
      ∧ decode (busWord true n (fullAddress 0b011#3 low)) wd = .ok (.aawrW low wd)
      ∧ exec (.aawrW low wd) s = .next { s with result := none })
    ∧ (∀ low, aligned n (0b10#2 ++ low) = true →
      decode (busWord false n (0b10#2 ++ low)) wd = .ok (Instr.rsvrd n low) ∧ exec (Instr.rsvrd n low) s = .next t)
    ∧ ∀ low, aligned n (fullAddress 0b111#3 low) = true →
      ((Instr.regrsvRd n low).wellFormed = true →
        decode (busWord false n (fullAddress 0b111#3 low)) wd = .ok (Instr.regrsvRd n low))
      ∧ exec (Instr.regrsvRd n low) s = .next t

/-- Writes of the reserved classes and of the rest of class 111 are discarded: no state change, no bus access, no
notification (R156, R189; the spec's own choice, decisions D32 and D42, log 15). -/
def Obligations.ReservedWrites : Prop :=
  ∀ (n : Width) (wd : Word) (s : State),
    (∀ low, aligned n (0b10#2 ++ low) = true →
      decode (busWord true n (0b10#2 ++ low)) wd = .ok (Instr.rsvwr n low wd)
      ∧ exec (Instr.rsvwr n low wd) s = .next { s with result := none })
    ∧ ∀ low, aligned n (fullAddress 0b111#3 low) = true →
      ((Instr.regrsvWr n low wd).wellFormed = true →
        decode (busWord true n (fullAddress 0b111#3 low)) wd = .ok (Instr.regrsvWr n low wd))
      ∧ exec (Instr.regrsvWr n low wd) s = .next { s with result := none }

/-- AARD.L (R146): tag, LRU and valid bit of the line's way that CCR.W selects; no state change. -/
def Obligations.AddressArrayRead : Prop :=
  ∀ (low : BitVec 29) (wd : Word) (s : State),
    let a := fullAddress 0b011#3 low
    let x := s.blk.line (a.extractLsb' 4 6).toFin
    let slot := x.slots[(s.blk.ccr.extractLsb' 6 2).toFin]
    aligned .long a = true →
    decode (busWord false .long a) wd = .ok (.aardL low)
    ∧ exec (.aardL low) s = .next
        { s with result := some ((slot.tag.setWidth 32 <<< 10) ||| (x.lru.setWidth 32 <<< 4)
            ||| ((BitVec.ofBool slot.v).setWidth 32 <<< 2)) }

/-- AAWR.L (R147): tag, valid bit and LRU from the data word; the other ways, the other lines, DATA, the bus and the
trace are unchanged. -/
def Obligations.AddressArrayWrite : Prop :=
  ∀ (low : BitVec 29) (wd : Word) (s : State),
    let a := fullAddress 0b011#3 low
    let l : Fin 64 := (a.extractLsb' 4 6).toFin
    let w : Fin 4 := (s.blk.ccr.extractLsb' 6 2).toFin
    aligned .long a = true →
    decode (busWord true .long a) wd = .ok (.aawrL low wd)
    ∧ exec (.aawrL low wd) s = .next
        { s.setBlk (s.blk.setLine l
            { lru := wd.extractLsb' 4 6
              slots := (s.blk.line l).slots.set w ⟨wd.getLsbD 2, wd.extractLsb' 10 19⟩ }) with
          result := none }

/-- What is written to the Address Array is read back at every address of the same line: the tag, LRU and valid fields,
the other bits 0 (R94). -/
def Obligations.AddressArrayReadsBack : Prop :=
  ∀ (low low' : BitVec 29) (wd : Word) (s t u : State),
    low.extractLsb' 4 6 = low'.extractLsb' 4 6 →
    exec (.aawrL low wd) s = .next t → exec (.aardL low') t = .next u →
    u.result = some (wd &&& 0x1FFFFFF4#32)

/-- DARD and DAWR at the three widths (R149 to R154): byte a[11:0] and the bytes after it, the most significant first;
a read changes nothing, a write nothing but those bytes of DA, and neither reaches the bus or notifies. -/
def Obligations.DataArrayCommands : Prop :=
  ∀ (n : Width) (low : BitVec 29) (wd : Word) (s : State),
    let a := fullAddress 0b110#3 low
    let i := (a.extractLsb' 0 12).toNat
    aligned n a = true →
    decode (busWord false n a) wd = .ok (Instr.dard n low)
    ∧ decode (busWord true n a) wd = .ok (Instr.dawr n low wd)
    ∧ exec (Instr.dard n low) s = .next
        { s with result := some (match n with
            | .byte => (s.blk.da.read i).setWidth 32
            | .word => (s.blk.da.read i ++ s.blk.da.read (i + 1)).setWidth 32
            | .long => s.blk.da.read i ++ s.blk.da.read (i + 1) ++ s.blk.da.read (i + 2) ++ s.blk.da.read (i + 3)) }
    ∧ (s.blk.da.wf = true → ∃ m : Memory,
        exec (Instr.dawr n low wd) s = .next { s.setBlk { s.blk with da := m } with result := none }
        ∧ m.wf = true
        ∧ (∀ k < n.bytes, m.read (i + k) = (wd >>> (8 * (n.bytes - 1 - k))).setWidth 8)
        ∧ ∀ k, k < i ∨ i + n.bytes ≤ k → m.read k = s.blk.da.read k)

/-! ### The LRU functions -/

/-- R121 and R122 read against the meaning R34 gives the bits: on the code of an order of the four ways, LRU_TOUCH
moves the way to the front, the four-way victim is the last of the order, and the two-way victim the later of ways 2
and 3. The spec marks the two functions as from general knowledge (log 16). -/
def Obligations.LruFunctionsKeepTheOrder : Prop :=
  ∀ (p : List (Fin 4)) (w : Fin 4), p.Perm [0, 1, 2, 3] →
    lruTouch (lruCode p) w = lruCode (w :: p.erase w)
    ∧ p.getLast? = some (lruVictim (lruCode p) false)
    ∧ lruVictim (lruCode p) true = (if p.idxOf 2 < p.idxOf 3 then 3 else 2)

/-- LRU_TOUCH is idempotent (R121), and the four-way LRU_VICTIM gives way 0 on every value that meets none of its four
tests (R122), which is the spec's own choice (log 16). The parameters after reset hold these two functions, and any
other two functions are a pair that parameters can hold (R9). -/
def Obligations.LruFunctionsTotal : Prop :=
  (∀ (x : BitVec 6) (w : Fin 4), lruTouch (lruTouch x w) w = lruTouch x w)
  ∧ (∀ x : BitVec 6,
      x &&& 0x38#6 ≠ 0x38#6 → x &&& 0x26#6 ≠ 0x06#6 → x &&& 0x15#6 ≠ 0x01#6 → x &&& 0x0B#6 ≠ 0x00#6 →
      lruVictim x false = 0)
  ∧ (∀ x w, State.reset.params.lru.touched x w = lruTouch x w)
  ∧ (∀ x tw, State.reset.params.lru.victimOf x tw = lruVictim x tw)
  ∧ ∀ (touch : BitVec 6 → Fin 4 → BitVec 6) (victim : BitVec 6 → Bool → Fin 4), ∃ p : LruPair,
      (∀ x w, p.touched x w = touch x w) ∧ ∀ x tw, p.victimOf x tw = victim x tw

/-! ### Registers -/

/-- The reads of SAR, DAR, TCR and VCRDMA of both channels, of DMAOR, CCR and IPRA return the stored bits, zero-extended,
and change nothing; bits 5:4 of CCR and 3:0 of IPRA are then 0 wherever the invariant of StepKeepsFlagsWf holds (R161,
R163, R165, R169, R171, R173, R178, R180, R182, R184, R186). -/
def Obligations.RegisterReads : Prop :=
  ∀ (n : ChannelId) (wd : Word) (s : State),
    let c := s.chan n
    (decode (busWord false .long (channelAddress n)) wd = .ok (Instr.rdSar n)
      ∧ exec (Instr.rdSar n) s = .next { s with result := some c.sar })
    ∧ (decode (busWord false .long (channelAddress n + 4#32)) wd = .ok (Instr.rdDar n)
      ∧ exec (Instr.rdDar n) s = .next { s with result := some c.dar })
    ∧ (decode (busWord false .long (channelAddress n + 8#32)) wd = .ok (Instr.rdTcr n)
      ∧ exec (Instr.rdTcr n) s = .next { s with result := some (c.tcr.setWidth 32) })
    ∧ (decode (busWord false .long (vectorAddress n)) wd = .ok (Instr.rdVcrdma n)
      ∧ exec (Instr.rdVcrdma n) s = .next { s with result := some (c.vcrdma.setWidth 32) })
    ∧ (decode 0x04FFFFFFB0#40 wd = .ok .rdDmaor
      ∧ exec .rdDmaor s = .next { s with result := some (s.blk.dmaor.setWidth 32) })
    ∧ (decode 0x00FFFFFE92#40 wd = .ok .rdCcr
      ∧ exec .rdCcr s = .next { s with result := some (s.blk.ccr.setWidth 32) })
    ∧ (decode 0x02FFFFFEE2#40 wd = .ok .rdIpra
      ∧ exec .rdIpra s = .next { s with result := some (s.blk.ipra.setWidth 32) })
    ∧ (s.blk.FlagsWf →
        (s.blk.ccr.setWidth 32).extractLsb' 4 2 = 0#2 ∧ (s.blk.ipra.setWidth 32).extractLsb' 0 4 = 0#4)

/-- The read of CHCR returns the stored bits and clears TEM of that channel, and nothing else (R167, R175). -/
def Obligations.ChcrReads : Prop :=
  ∀ (n : ChannelId) (wd : Word) (s : State),
    decode (busWord false .long (channelAddress n + 0xC#32)) wd = .ok (Instr.rdChcr n)
    ∧ exec (Instr.rdChcr n) s = .next
        { s.setChan n { s.chan n with tem := false } with result := some ((s.chan n).chcr.setWidth 32) }

/-- The writes of SAR, DAR, TCR and VCRDMA of both channels and of IPRA store the data's stored bits and change nothing
else; none starts a pass (R162, R164, R166, R170, R172, R174, R179, R181, R187). -/
def Obligations.OperandRegisterWrites : Prop :=
  ∀ (n : ChannelId) (wd : Word) (s : State),
    let c := s.chan n
    (decode (busWord true .long (channelAddress n)) wd = .ok (Instr.wrSar n wd)
      ∧ exec (Instr.wrSar n wd) s = .next { s.setChan n { c with sar := wd } with result := none })
    ∧ (decode (busWord true .long (channelAddress n + 4#32)) wd = .ok (Instr.wrDar n wd)
      ∧ exec (Instr.wrDar n wd) s = .next { s.setChan n { c with dar := wd } with result := none })
    ∧ (decode (busWord true .long (channelAddress n + 8#32)) wd = .ok (Instr.wrTcr n wd)
      ∧ exec (Instr.wrTcr n wd) s = .next { s.setChan n { c with tcr := wd.setWidth 24 } with result := none })
    ∧ (decode (busWord true .long (vectorAddress n)) wd = .ok (Instr.wrVcrdma n wd)
      ∧ exec (Instr.wrVcrdma n wd) s = .next { s.setChan n { c with vcrdma := wd.setWidth 8 } with result := none })
    ∧ (decode 0x0AFFFFFEE2#40 wd = .ok (.wrIpra wd)
      ∧ exec (.wrIpra wd) s = .next
          { s.setBlk { s.blk with ipra := wd.setWidth 16 &&& 0xFFF0#16 } with result := none })

/-- The write of DMAOR (R183): PR and DME take the data, AE and NMIF can be cleared and not set, nothing else changes
and nothing is kicked. -/
def Obligations.DmaorWrite : Prop :=
  ∀ (wd : Word) (s : State),
    let v := wd.setWidth 4
    decode 0x0CFFFFFFB0#40 wd = .ok (.wrDmaor wd)
    ∧ exec (.wrDmaor wd) s = .next
        { s.setBlk { s.blk with dmaor := (v &&& 0x9#4) ||| (s.blk.dmaor &&& v &&& 0x6#4) } with result := none }

/-- The write of CCR (R185, with R126): the data under the mask 0xCF; with CP = 1, or when CE goes from 1 to 0, every V,
TAG and LRU becomes 0 and each run of WINDOW pages gets one notification, ascending; DATA, DA and the rest stay. -/
def Obligations.CcrWrite : Prop :=
  ∀ (wd : Word) (s : State),
    let b : Block := { s.blk with ccr := wd.setWidth 8 &&& 0xCF#8 }
    let invalidates : Prop := wd.getLsbD 4 = true ∨ (s.blk.ccr.getLsbD 0 = true ∧ wd.getLsbD 0 = false)
    decode 0x08FFFFFE92#40 wd = .ok (.wrCcr wd)
    ∧ (¬ invalidates → exec (.wrCcr wd) s = .next { s.setBlk b with result := none })
    ∧ (invalidates →
        exec (.wrCcr wd) s = .next
          { s.setBlk { b with lines := Vector.replicate 64 { lru := 0, slots := Vector.replicate 4 ⟨false, 0⟩ } } with
            trace := s.trace ++ windowEvents s, result := none })

/-- The write of CHCR (R168, R177, with R176): TE stays only where it was set and the data has it set or software has
not read the register since; the other bits take the data; then, with the engine on and the channel requesting, one
whole pass of KICK_BUDGET. -/
def Obligations.ChcrWrites : Prop :=
  ∀ (n : ChannelId) (wd : Word) (s : State),
    let c := s.chan n
    let te : Bool := c.chcr.getLsbD 1 && (wd.getLsbD 1 || c.tem)
    let s' := s.setChan n
      { c with chcr := (wd.setWidth 16 &&& 0xFFFD#16) ||| (if te = true then 0x0002#16 else 0x0000#16) }
    decode (busWord true .long (channelAddress n + 0xC#32)) wd = .ok (Instr.wrChcr n wd)
    ∧ (EngineOn s'.blk ∧ Requesting (s'.chan n) →
        exec (Instr.wrChcr n wd) s = .next { s'.pass s.params.kickBudget with result := none })
    ∧ (¬ (EngineOn s'.blk ∧ Requesting (s'.chan n)) →
        exec (Instr.wrChcr n wd) s = .next { s' with result := none })

/-- The Transfer-End protocol (R287): a completed channel whose CHCR has not been read keeps TE whatever is written and
moves nothing; after a read of CHCR a write with TE = 0 and DE = 0 clears TE, stores the data and moves nothing; and
software cannot set TE. -/
def Obligations.TransferEndProtocol : Prop :=
  ∀ (n : ChannelId) (wd : Word) (s t u : State),
    ((s.chan n).tem = true → (s.chan n).chcr.getLsbD 1 = true → exec (Instr.wrChcr n wd) s = .next t →
      (t.chan n).chcr = wd.setWidth 16 ||| 0x0002#16 ∧ (t.chan n).tcr = (s.chan n).tcr ∧ t.bus = s.bus)
    ∧ (wd.getLsbD 1 = false → wd.getLsbD 0 = false →
        exec (Instr.rdChcr n) s = .next t → exec (Instr.wrChcr n wd) t = .next u →
        (u.chan n).chcr = wd.setWidth 16 ∧ (u.chan n).tcr = (s.chan n).tcr ∧ u.bus = s.bus)
    ∧ ((s.chan n).chcr.getLsbD 1 = false → wd.getLsbD 0 = false → exec (Instr.wrChcr n wd) s = .next t →
        (t.chan n).chcr.getLsbD 1 = false)

/-! ### The DMA engine -/

/-- One pass (R203, R204): nothing with the engine off or no channel requesting; the one channel that requests gets the
budget; when both request, channel 0 alone in fixed priority, and in round-robin channel 0 then channel 1, each with
the budget doubled when its CHCR bit 3 is 0. -/
def Obligations.PassArbitration : Prop :=
  ∀ (c wd : Word) (s : State),
    let p0 := Requesting (s.chan .ch0)
    let p1 := Requesting (s.chan .ch1)
    let share (n : ChannelId) : Nat := if (s.chan n).chcr.getLsbD 3 = false then 2 * c.toNat else c.toNat
    decode (0x10#8 ++ c) wd = .ok (.execPass c)
    ∧ (¬ EngineOn s.blk ∨ (¬ p0 ∧ ¬ p1) → exec (.execPass c) s = .next { s with result := none })
    ∧ (EngineOn s.blk → p0 → (¬ p1 ∨ s.blk.dmaor.getLsbD 3 = false) →
        exec (.execPass c) s = .next { s.run .ch0 c.toNat with result := none })
    ∧ (EngineOn s.blk → ¬ p0 → p1 → exec (.execPass c) s = .next { s.run .ch1 c.toNat with result := none })
    ∧ (EngineOn s.blk → p0 → p1 → s.blk.dmaor.getLsbD 3 = true →
        exec (.execPass c) s = .next { (s.run .ch0 (share .ch0)).run .ch1 (share .ch1) with result := none })

/-- RUN(n, b) is the loop of R205, which its fuel never cuts short: after the budget is added to the copy clock it makes
`k` unit turns, each with units left and the clock covering the cost, and stops with no unit left or the clock short;
then one notification for the hull of the destination addresses, when a unit moved and CCR.CE = 0 (R208); then, with
no unit left, TE and TEM are set, the clock is 0 and with IE = 1 the interrupt is requested (R207). -/
def Obligations.RunIsTheLoop : Prop :=
  ∀ (s : State) (n : ChannelId) (b : Nat),
    let turn (j : Nat) : State :=
      (fun t : State => t.unitTurn n)^[j] (s.setChan n { s.chan n with clk := (s.chan n).clk + b })
    let unitSize := unitBytes ((s.chan n).chcr.extractLsb' 10 2)
    let ready (t : State) : Prop :=
      (t.chan n).tcr ≠ 0#24 ∧ eat t.params (t.chan n).sar (t.chan n).dar ≤ (t.chan n).clk
    let finish (t : State) : State :=
      if (t.chan n).tcr = 0#24 then
        let c' : Channel := { t.chan n with chcr := (t.chan n).chcr ||| 0x0002#16, tem := true, clk := 0 }
        let t' := t.setChan n c'
        if (t.chan n).chcr.getLsbD 2 = true then
          t'.setBlk (t'.blk.raiseIrq t.params.irqCap c'.vcrdma (t.blk.ipra.extractLsb' 8 4).toNat)
        else t'
      else t
    ∃ k, (∀ j < k, ready (turn j)) ∧ ¬ ready (turn k)
      ∧ (k = 0 ∨ (turn k).blk.ccr.getLsbD 0 = true → s.run n b = finish (turn k))
      ∧ (k ≠ 0 → (turn k).blk.ccr.getLsbD 0 = false →
          ∃ lo hi : Nat,
            (∃ j < k, lo = ((turn j).chan n).dar.toNat) ∧ (∀ j < k, lo ≤ ((turn j).chan n).dar.toNat)
            ∧ (∃ j < k, hi = ((turn j).chan n).dar.toNat + unitSize)
            ∧ (∀ j < k, ((turn j).chan n).dar.toNat + unitSize ≤ hi)
            ∧ s.run n b = finish { turn k with
                trace := (turn k).trace ++ [.notify s.cur (BitVec.ofNat 32 lo) (hi - lo)] })

/-- One unit (R206): a read and a write of the unit's width, or for a 16-byte unit four longs ascending, each read
followed by its write; SAR and DAR step modulo 2^32 by the modes; TCR falls by the step and stops at 0; the turn takes
the unit's cost from the copy clock (R205). -/
def Obligations.UnitTransfer : Prop :=
  ∀ (s : State) (n : ChannelId),
    let c := s.chan n
    let ts := c.chcr.extractLsb' 10 2
    let step (mode : BitVec 2) : Word :=
      if mode = 1#2 then BitVec.ofNat 32 (unitBytes ts) else if mode = 2#2 then -BitVec.ofNat 32 (unitBytes ts) else 0
    let down : Nat := if ts = 3#2 ∧ s.params.tcrStep16 = .four then 4 else 1
    let moved : State :=
      if ts = 0#2 then copied s c.sar c.dar .byte
      else if ts = 1#2 then copied s c.sar c.dar .word
      else if ts = 2#2 then copied s c.sar c.dar .long
      else (List.range 4).foldl
        (fun t i => copied t (c.sar + BitVec.ofNat 32 (4 * i)) (c.dar + BitVec.ofNat 32 (4 * i)) .long) s
    c.chcr.extractLsb' 12 2 ≠ 3#2 → c.chcr.extractLsb' 14 2 ≠ 3#2 →
    ∃ tcr : BitVec 24, tcr.toNat = max (c.tcr.toNat - down) 0
      ∧ s.unitTurn n = moved.setChan n
          { c with
            sar := c.sar + step (c.chcr.extractLsb' 12 2)
            dar := c.dar + step (c.chcr.extractLsb' 14 2)
            tcr := tcr
            clk := c.clk - eat s.params c.sar c.dar }

/-- A channel alone with TCR = N, CLK = 0, cost C for every unit and STEP = 1 (R213 a, b): a budget of at least N * C
completes it, with TE and TEM set, the clock 0 and, with IE = 1, exactly one interrupt requested; a smaller budget b
moves floor(b / C) units and leaves CLK = b mod C, TE = 0 and Q as it was. SAR and DAR have stepped once per unit. -/
def Obligations.LoneChannelTransfer : Prop :=
  ∀ (s : State) (n : ChannelId) (b : Word) (cost : Nat),
    let c := s.chan n
    let left := c.tcr.toNat
    let unitSize := unitBytes (c.chcr.extractLsb' 10 2)
    let advanced (mode : BitVec 2) (a : Word) (k : Nat) : Word :=
      if mode = 1#2 then a + BitVec.ofNat 32 (k * unitSize)
      else if mode = 2#2 then a - BitVec.ofNat 32 (k * unitSize) else a
    LoneChannel s n → c.clk = 0 → 0 < left → (∀ x y, eat s.params x y = cost) →
    (c.chcr.extractLsb' 10 2 = 3#2 → s.params.tcrStep16 = .one) →
    ∃ t, exec (.execPass b) s = .next t
      ∧ (left * cost ≤ b.toNat →
          t.chan n =
            { c with
              sar := advanced (c.chcr.extractLsb' 12 2) c.sar left
              dar := advanced (c.chcr.extractLsb' 14 2) c.dar left
              tcr := 0, chcr := c.chcr ||| 0x0002#16, tem := true, clk := 0 }
          ∧ (c.chcr.getLsbD 2 = false → t.blk.q = s.blk.q)
          ∧ (c.chcr.getLsbD 2 = true →
              t.blk.q = (s.blk.raiseIrq s.params.irqCap c.vcrdma (s.blk.ipra.extractLsb' 8 4).toNat).q))
      ∧ (b.toNat < left * cost →
          t.chan n =
            { c with
              sar := advanced (c.chcr.extractLsb' 12 2) c.sar (b.toNat / cost)
              dar := advanced (c.chcr.extractLsb' 14 2) c.dar (b.toNat / cost)
              tcr := BitVec.ofNat 24 (left - b.toNat / cost), clk := b.toNat % cost }
          ∧ t.blk.q = s.blk.q)

/-- A completed incrementing transfer between disjoint RAM ranges copies the source range to the destination range and
changes no other byte of the bus (R205, R206); TE is set (R207). -/
def Obligations.CompletedTransferCopies : Prop :=
  ∀ (s t : State) (n : ChannelId) (b : Word) (cost : Nat),
    let c := s.chan n
    let down : Nat := if c.chcr.extractLsb' 10 2 = 3#2 ∧ s.params.tcrStep16 = .four then 4 else 1
    let len := (c.tcr.toNat + down - 1) / down * unitBytes (c.chcr.extractLsb' 10 2)
    let src := (busAddress c.sar).toNat
    let dst := (busAddress c.dar).toNat
    LoneChannel s n → c.chcr.extractLsb' 12 2 = 1#2 → c.chcr.extractLsb' 14 2 = 1#2 →
    (∀ x y, eat s.params x y = cost) → (c.tcr.toNat + down - 1) / down * cost ≤ b.toNat →
    (∀ page, pageKindIn s.pages page = .ram) → s.bus.wf = true →
    src + len ≤ 2 ^ 28 → dst + len ≤ 2 ^ 28 → src + len ≤ dst ∨ dst + len ≤ src →
    exec (.execPass b) s = .next t →
    (t.chan n).chcr.getLsbD 1 = true
    ∧ (∀ j < len, t.bus.read (dst + j) = s.bus.read (src + j))
    ∧ ∀ k, k < dst ∨ dst + len ≤ k → t.bus.read k = s.bus.read k

/-- After a pass the copy clock of every channel that had a turn and did not complete is below the cost of its next unit
(R213 d). -/
def Obligations.ClockBelowNextCost : Prop :=
  ∀ (s t : State) (b : Word) (n : ChannelId),
    GetsTurn s n → exec (.execPass b) s = .next t → (t.chan n).chcr.getLsbD 1 = false →
    (t.chan n).clk < eat t.params (t.chan n).sar (t.chan n).dar

/-- A well-formed channel stays well-formed through a pass (R213 e). -/
def Obligations.PassKeepsChannelsWellFormed : Prop :=
  ∀ (s t : State) (b : Word) (n : ChannelId),
    ¬ Malformed (s.chan n) → exec (.execPass b) s = .next t → ¬ Malformed (t.chan n)

/-- What a pass leaves unchanged (R213 f, R266): DMAOR, CCR, IPRA, the vectors, the tag and LRU arrays, DATA, DA, the
other instance, the parameters, the page map and the inputs; of CHCR every bit but TE; and SEQ never falls. -/
def Obligations.PassFrame : Prop :=
  ∀ (s t : State) (b : Word), exec (.execPass b) s = .next t →
    t.blk.dmaor = s.blk.dmaor ∧ t.blk.ccr = s.blk.ccr ∧ t.blk.ipra = s.blk.ipra
    ∧ t.blk.lines = s.blk.lines ∧ t.blk.data = s.blk.data ∧ t.blk.da = s.blk.da
    ∧ s.blk.seq ≤ t.blk.seq
    ∧ (∀ n, (t.chan n).vcrdma = (s.chan n).vcrdma
        ∧ (t.chan n).chcr &&& 0xFFFD#16 = (s.chan n).chcr &&& 0xFFFD#16)
    ∧ (s.cur = .master → t.slave = s.slave) ∧ (s.cur = .slave → t.master = s.master)
    ∧ t.cur = s.cur ∧ t.params = s.params ∧ t.pages = s.pages ∧ t.inputs = s.inputs
    ∧ t.masterOn = s.masterOn ∧ t.slaveOn = s.slaveOn

/-- A channel that gets no turn is not touched by a pass: one that is disabled, done or malformed, and in fixed priority
channel 1 while channel 0 requests, however large the budget (R202, R204 a, R291). -/
def Obligations.NoTurnNoChange : Prop :=
  ∀ (s t : State) (b : Word) (n : ChannelId),
    ¬ GetsTurn s n → exec (.execPass b) s = .next t → t.chan n = s.chan n

/-- The notification of a burst (R208): an incrementing channel alone, with CCR.CE = 0, that moved `k` units without
wrapping past 2^32 emits one notification, for exactly the bytes written, and none when it moved none; with CCR.CE = 1
it emits none. -/
def Obligations.BurstNotification : Prop :=
  ∀ (s t : State) (n : ChannelId) (b : Word),
    let c := s.chan n
    let unitSize := unitBytes (c.chcr.extractLsb' 10 2)
    LoneChannel s n → c.chcr.extractLsb' 14 2 = 1#2 → c.dar.toNat + c.tcr.toNat * unitSize ≤ 2 ^ 32 →
    exec (.execPass b) s = .next t →
    ∃ (k : Nat) (es : List Event), k ≤ c.tcr.toNat ∧ t.trace = s.trace ++ es
      ∧ (t.chan n).dar = c.dar + BitVec.ofNat 32 (k * unitSize)
      ∧ es.filter Event.isNotify =
          if s.blk.ccr.getLsbD 0 = true ∨ k = 0 then [] else [.notify s.cur c.dar (k * unitSize)]

/-- The bytes of the bus are what the bus writes of the trace made of them: whatever command runs, the trace only grows,
and replaying the new events over the old bus gives the new bus (R12, R67, R70). Two points are the model's choice: the
one trace for the events of both instances (log 11), and that a write to a handler page stores nothing (log 9, unsafe
for writes), where R12 leaves the page to its handler. -/
def Obligations.BusIsTheReplayOfTheTrace : Prop :=
  ∀ (i : Instr) (s t : State), exec i s = .next t →
    ∃ es : List Event, t.trace = s.trace ++ es ∧ t.bus = replay s.pages es s.bus

/-- LATCH.NMIF and LATCH.AE (R209, R210): one bit of DMAOR is set, nothing else changes, and a pass then changes
nothing. -/
def Obligations.FlagLatches : Prop :=
  ∀ (wd : Word) (s : State),
    decode 0x6000000000#40 wd = .ok .latchNmif
    ∧ exec .latchNmif s = .next { s.setBlk { s.blk with dmaor := s.blk.dmaor ||| 0b0010#4 } with result := none }
    ∧ decode 0x6000000001#40 wd = .ok .latchAe
    ∧ exec .latchAe s = .next { s.setBlk { s.blk with dmaor := s.blk.dmaor ||| 0b0100#4 } with result := none }
    ∧ ∀ t b, exec .latchNmif s = .next t ∨ exec .latchAe s = .next t → exec (.execPass b) t = .next t

/-! ### The interrupt encoder -/

/-- IRQ (R230, R231, R232): level 0, a pending vector and a full queue drop the request and change nothing; any other
becomes an entry numbered SEQ, and SEQ grows by 1. -/
def Obligations.InterruptRequests : Prop :=
  ∀ (v : BitVec 8) (lv : Nat) (i : Instr) (s : State),
    let dropped := lv = 0 ∨ (∃ e ∈ s.blk.q, e.vector = v) ∨ s.params.irqCap ≤ s.blk.q.length
    (∃ l : BitVec 4, i = .irq v l ∧ lv = l.toNat) ∨ (i = .irqNmi v ∧ lv = 16) →
    (∀ wd, decode (0x20#8 ++ BitVec.ofNat 24 lv ++ v) wd = .ok i)
    ∧ (dropped → exec i s = .next { s with result := none })
    ∧ (¬ dropped →
        exec i s = .next
          { s.setBlk { s.blk with q := s.blk.q ++ [⟨v, lv, s.blk.seq⟩], seq := s.blk.seq + 1 } with result := none })

/-- IACK (R234, R235): with no entry above the mask the port carries 0 and nothing changes; otherwise the entry of the
greatest level, and among its equals the one TIE puts first, leaves Q and stands on the port; it is the entry IRQ_OUT
shows. -/
def Obligations.InterruptAcknowledge : Prop :=
  ∀ (m : BitVec 4) (wd : Word) (s : State),
    decode (0x300000000#36 ++ m) wd = .ok (.iack m)
    ∧ ((∀ e ∈ s.blk.q, e.level ≤ m.toNat) →
        s.irqOut s.cur m = none ∧ exec (.iack m) s = .next { s with result := some 0#32 })
    ∧ ∀ e ∈ s.blk.q, m.toNat < e.level →
        (∀ f ∈ s.blk.q, f ≠ e →
          f.level < e.level ∨ (f.level = e.level ∧ (match s.params.tie with
            | .earliest => e.seq < f.seq
            | .platform => Config.tieRank e.vector e.level e.seq < Config.tieRank f.vector f.level f.seq))) →
        s.irqOut s.cur m = some (e.vector, e.level)
        ∧ exec (.iack m) s = .next
            { s.setBlk { s.blk with q := s.blk.q.filter (fun f => f ≠ e) } with
              result := some (0x80000000#32 ||| (BitVec.ofNat 32 e.level <<< 8) ||| e.vector.setWidth 32) }

/-- With the default TIE an acknowledge never passes over a pending entry of a higher level, nor one of the same level
requested earlier; and with any entry above the mask it accepts one (R234, R235). -/
def Obligations.AcknowledgeTakesTheBest : Prop :=
  ∀ (m : BitVec 4) (s t : State),
    s.blk.QueueWf s.params.irqCap → s.params.tie = .earliest → (∃ e ∈ s.blk.q, m.toNat < e.level) →
    exec (.iack m) s = .next t →
    ∃ e ∈ s.blk.q, s.irqOut s.cur m = some (e.vector, e.level) ∧ e ∉ t.blk.q ∧ t.blk.q.length + 1 = s.blk.q.length
      ∧ ∀ f ∈ t.blk.q, f.level < e.level ∨ (f.level = e.level ∧ e.seq < f.seq)

/-- No command but IRQ, IACK, RESET, POWERON, EXEC and a CHCR write changes Q or SEQ (R236 e). -/
def Obligations.OnlyTheseChangeTheQueue : Prop :=
  ∀ (i : Instr) (s t : State),
    (∀ v l, i ≠ .irq v l) → (∀ v, i ≠ .irqNmi v) → (∀ m, i ≠ .iack m) → i ≠ .reset → i ≠ .poweron →
    (∀ c, i ≠ .execPass c) → (∀ n wd, i ≠ Instr.wrChcr n wd) →
    exec i s = .next t → t.blk.q = s.blk.q ∧ t.blk.seq = s.blk.seq

/-! ### Reset -/

/-- What RESET and POWERON leave (R44, R280, R281, with R126): every register, flag, tag, LRU value and copy clock of the
instance zero, Q empty, SEQ 0; DATA and DA kept by RESET and zeroed by POWERON; the notifications of InvalidateAll; and
after POWERON the instance exists, which no other command may come before. -/
def Obligations.ResetCommands : Prop :=
  ∀ (wd : Word) (s : State),
    let ch : Channel := { sar := 0, dar := 0, tcr := 0, chcr := 0, tem := false, vcrdma := 0, clk := 0 }
    let b (data da : Memory) : Block :=
      { ch0 := ch, ch1 := ch, dmaor := 0, ipra := 0, ccr := 0
        lines := Vector.replicate 64 { lru := 0, slots := Vector.replicate 4 ⟨false, 0⟩ }
        data := data, da := da, q := [], seq := 0 }
    decode 0x4000000000#40 wd = .ok .reset
    ∧ exec .reset s = .next
        { s.setBlk (b s.blk.data s.blk.da) with trace := s.trace ++ windowEvents s, result := none }
    ∧ decode 0x5000000000#40 wd = .ok .poweron
    ∧ exec .poweron s = .next
        { s.setBlk (b [] []) with
          masterOn := s.masterOn || decide (s.cur = .master)
          slaveOn := s.slaveOn || decide (s.cur = .slave)
          trace := s.trace ++ windowEvents s, result := none }
    ∧ (∀ k, Memory.read [] k = 0x00#8)
    ∧ ∀ i, i ≠ .poweron → (if s.cur = .master then s.masterOn else s.slaveOn) = false → s.accepts i = false

/-- The state after reset (R44): both instances as POWERON leaves them. That both have been through POWERON is the
model's choice (log 12). -/
def Obligations.ResetState : Prop :=
  ∀ ctx : ContextId,
    let b := State.reset.instOf ctx
    (∀ n, b.chan n = { sar := 0, dar := 0, tcr := 0, chcr := 0, tem := false, vcrdma := 0, clk := 0 })
    ∧ b.dmaor = 0 ∧ b.ipra = 0 ∧ b.ccr = 0 ∧ b.q = [] ∧ b.seq = 0
    ∧ (∀ l, (b.line l).lru = 0) ∧ (∀ l (w : Fin 4), (b.line l).slots[w] = ⟨false, 0⟩)
    ∧ (∀ k, b.data.read k = 0x00#8) ∧ (∀ k, b.da.read k = 0x00#8)
    ∧ State.reset.masterOn = true ∧ State.reset.slaveOn = true

/-! ### Invariants of every step -/

/-- A step of any kind keeps every byte store in canonical form and inside its address space (R35, R36, R63). -/
def Obligations.StepKeepsMemoryWf : Prop :=
  ∀ s t : State, s.memoryWf → step s = .next t → t.memoryWf

/-- A step of any kind keeps both queues as R39 and R236 a say: at most IRQ_CAP entries, levels 1 to 16, one entry per
vector, sequence numbers rising and below SEQ. -/
def Obligations.StepKeepsQueuesWf : Prop :=
  ∀ s t : State, s.queuesWf → step s = .next t → t.queuesWf

/-- A step of any kind keeps the bits that read 0 at 0 (R31, R32) and TEM = 1 only with TE = 1 (R27). -/
def Obligations.StepKeepsFlagsWf : Prop :=
  ∀ s t : State, s.flagsWf → step s = .next t → t.flagsWf

/-- Every step but an Address Array write keeps at most one way of a line per tag, in both instances (R38, R157 a). -/
def Obligations.StepKeepsTagsUnique : Prop :=
  ∀ s t : State,
    (∀ ctx cw wd rest low v, s.inputs = .command ctx cw wd :: rest → decode cw wd ≠ .ok (.aawrL low v)) →
    s.master.tagsUnique → s.slave.tagsUnique → step s = .next t → t.master.tagsUnique ∧ t.slave.tagsUnique

/-- The four invariants hold at reset. -/
def Obligations.ResetMeetsInvariants : Prop :=
  State.reset.memoryWf ∧ State.reset.queuesWf ∧ State.reset.flagsWf
    ∧ State.reset.master.tagsUnique ∧ State.reset.slave.tagsUnique

/-- The two instances share no element of state (R266), and no command changes what R43 says is not the block's: a
command leaves the other instance, the page map, the parameters and the pending inputs as they were. -/
def Obligations.InstancesShareNothing : Prop :=
  ∀ (i : Instr) (s t : State), exec i s = .next t →
    (s.cur = .master → t.slave = s.slave ∧ t.slaveOn = s.slaveOn)
    ∧ (s.cur = .slave → t.master = s.master ∧ t.masterOn = s.masterOn)
    ∧ t.cur = s.cur ∧ t.pages = s.pages ∧ t.params = s.params ∧ t.inputs = s.inputs

end
end

