-- ==== Sys2Proof/Laws/Memory.lean ====
section
/-! SUPPORT. The laws of the byte store: read after write, and that every write keeps the canonical form. -/

namespace Sys2Proof.Machine

theorem Memory.wfFrom_weaken {lo lo' : Nat} (h : lo' ≤ lo) : ∀ {m : Memory}, Memory.wfFrom lo m → Memory.wfFrom lo' m
  | [], _ => rfl
  | (k, x) :: m, hm => by
    simp only [Memory.wfFrom, Bool.and_eq_true, decide_eq_true_eq] at hm ⊢
    exact ⟨⟨by omega, hm.1.2⟩, hm.2⟩

/-- Below the first address of a canonical store every byte is unlisted. -/
theorem Memory.read_below {lo a : Nat} (h : a < lo) : ∀ {m : Memory}, Memory.wfFrom lo m → m.read a = Memory.unlisted
  | [], _ => rfl
  | (k, x) :: m, hm => by
    simp only [Memory.wfFrom, Bool.and_eq_true, decide_eq_true_eq] at hm
    have : a ≠ k := by omega
    simp only [Memory.read, this, if_false]
    exact Memory.read_below (by omega) hm.2

theorem Memory.wfFrom_write {lo a : Nat} (v : Byte) (h : lo ≤ a) :
    ∀ {m : Memory}, Memory.wfFrom lo m → Memory.wfFrom lo (m.write a v)
  | [], _ => by
    unfold Memory.write
    split
    · rfl
    · simp [Memory.wfFrom, *]
  | (k, x) :: m, hm => by
    have hm' := hm
    simp only [Memory.wfFrom, Bool.and_eq_true, decide_eq_true_eq] at hm'
    unfold Memory.write
    split
    · split
      · exact hm
      · simp only [Memory.wfFrom, Bool.and_eq_true, decide_eq_true_eq]
        exact ⟨⟨h, ‹_›⟩, ⟨by omega, hm'.1.2⟩, hm'.2⟩
    · split
      · split
        · exact Memory.wfFrom_weaken (by omega) hm'.2
        · simp only [Memory.wfFrom, Bool.and_eq_true, decide_eq_true_eq]
          exact ⟨⟨h, ‹_›⟩, by have := hm'.2; simp_all⟩
      · simp only [Memory.wfFrom, Bool.and_eq_true, decide_eq_true_eq]
        exact ⟨hm'.1, Memory.wfFrom_write v (by omega) hm'.2⟩

/-- A write keeps the canonical form. -/
theorem Memory.wf_write {m : Memory} (a : Nat) (v : Byte) (h : m.wf) : (m.write a v).wf :=
  Memory.wfFrom_write v (Nat.zero_le a) h

@[simp] theorem Memory.below_nil (n : Nat) : Memory.below n [] = true := rfl

@[simp] theorem Memory.below_cons (n k : Nat) (x : Byte) (m : Memory) :
    Memory.below n ((k, x) :: m) = (decide (k < n) && Memory.below n m) := rfl

theorem Memory.below_write {n : Nat} {a : Nat} (v : Byte) (ha : a < n) :
    ∀ {m : Memory}, m.below n → (m.write a v).below n
  | [], _ => by unfold Memory.write; split <;> simp [ha]
  | (k, x) :: m, hm => by
    obtain ⟨hk, hb⟩ : k < n ∧ Memory.below n m = true := by simpa using hm
    unfold Memory.write
    split
    · split <;> simp [ha, hk, hb]
    · split
      · split <;> simp [ha, hb]
      · simpa [hk] using Memory.below_write v ha hb

/-- Reading after a write to the same address gives the byte written. -/
theorem Memory.read_write_self {lo a : Nat} (v : Byte) :
    ∀ {m : Memory}, Memory.wfFrom lo m → (m.write a v).read a = v
  | [], _ => by
    unfold Memory.write
    split
    · simp [Memory.read, *]
    · simp [Memory.read]
  | (k, x) :: m, hm => by
    have hm' := hm
    simp only [Memory.wfFrom, Bool.and_eq_true, decide_eq_true_eq] at hm'
    unfold Memory.write
    split
    · split
      · subst v
        exact Memory.read_below (lo := k) (by omega)
          (by simp only [Memory.wfFrom, Bool.and_eq_true, decide_eq_true_eq]; exact ⟨⟨Nat.le_refl k, hm'.1.2⟩, hm'.2⟩)
      · simp [Memory.read]
    · split
      · split
        · subst v
          exact Memory.read_below (lo := k + 1) (by omega) hm'.2
        · simp [Memory.read]
      · have : ¬ a = k := ‹_›
        simp only [Memory.read, this, if_false]
        exact Memory.read_write_self v hm'.2

/-- A write leaves every other address alone. -/
theorem Memory.read_write_other {a b : Nat} (v : Byte) (h : b ≠ a) :
    ∀ {m : Memory}, (m.write a v).read b = m.read b
  | [] => by
    unfold Memory.write
    split
    · rfl
    · simp [Memory.read, h]
  | (k, x) :: m => by
    unfold Memory.write
    split
    · split
      · rfl
      · simp [Memory.read, h]
    · split
      · have : b ≠ k := by omega
        split
        · simp [Memory.read, this]
        · simp [Memory.read, h, this]
      · simp only [Memory.read]
        split
        · rfl
        · exact Memory.read_write_other v h

/-- Two canonical stores that read alike everywhere are equal. -/
theorem Memory.ext_of_wfFrom {lo : Nat} : ∀ {m m' : Memory}, Memory.wfFrom lo m → Memory.wfFrom lo m' →
    (∀ a, m.read a = m'.read a) → m = m'
  | [], [], _, _, _ => rfl
  | [], (k, x) :: m', _, h', e => by
    simp only [Memory.wfFrom, Bool.and_eq_true, decide_eq_true_eq] at h'
    exact absurd (by simpa [Memory.read] using (e k).symm) h'.1.2
  | (k, x) :: m, [], h, _, e => by
    simp only [Memory.wfFrom, Bool.and_eq_true, decide_eq_true_eq] at h
    exact absurd (by simpa [Memory.read] using e k) h.1.2
  | (k, x) :: m, (k', x') :: m', h, h', e => by
    simp only [Memory.wfFrom, Bool.and_eq_true, decide_eq_true_eq] at h h'
    have hk : k = k' := by
      rcases Nat.lt_trichotomy k k' with hlt | heq | hgt
      · have := e k
        have hne : k ≠ k' := by omega
        simp only [Memory.read, if_true, hne, if_false] at this
        rw [Memory.read_below (lo := k' + 1) (by omega) h'.2] at this
        exact absurd this h.1.2
      · exact heq
      · have := e k'
        have hne : k' ≠ k := by omega
        simp only [Memory.read, if_true, hne, if_false] at this
        rw [Memory.read_below (lo := k + 1) (by omega) h.2] at this
        exact absurd this.symm h'.1.2
    subst hk
    have hx : x = x' := by simpa [Memory.read] using e k
    subst hx
    congr 1
    refine Memory.ext_of_wfFrom h.2 h'.2 fun a => ?_
    by_cases ha : a = k
    · subst ha
      rw [Memory.read_below (lo := a + 1) (by omega) h.2, Memory.read_below (lo := a + 1) (by omega) h'.2]
    · have := e a
      simpa [Memory.read, ha] using this

/-- The canonical form determines a store by what it reads. -/
theorem Memory.ext {m m' : Memory} (h : m.wf) (h' : m'.wf) (e : ∀ a, m.read a = m'.read a) : m = m' :=
  Memory.ext_of_wfFrom h h' e

/-! ### Big-endian accesses -/

theorem Memory.wf_writeBE {m : Memory} (key : Nat → Nat) (n : Width) (v : Word) (h : m.wf) : (m.writeBE key n v).wf := by
  cases n <;> simp only [Memory.writeBE] <;> repeat (first | exact h | apply Memory.wf_write)

theorem Memory.below_writeBE {m : Memory} {b : Nat} (key : Nat → Nat) (n : Width) (v : Word) (hk : ∀ i, key i < b)
    (h : m.below b) : (m.writeBE key n v).below b := by
  cases n <;> simp only [Memory.writeBE] <;> repeat (first | exact h | exact hk _ | apply Memory.below_write)

/-- A big-endian write leaves every other address alone. -/
theorem Memory.read_writeBE_other {m : Memory} {key : Nat → Nat} {n : Width} (v : Word) {b : Nat}
    (h : ∀ i < n.bytes, b ≠ key i) : (m.writeBE key n v).read b = m.read b := by
  cases n with
  | byte => exact Memory.read_write_other _ (h 0 (by decide))
  | word =>
    simp only [Memory.writeBE]
    rw [Memory.read_write_other _ (h 1 (by decide)), Memory.read_write_other _ (h 0 (by decide))]
  | long =>
    simp only [Memory.writeBE]
    rw [Memory.read_write_other _ (h 3 (by decide)), Memory.read_write_other _ (h 2 (by decide)),
      Memory.read_write_other _ (h 1 (by decide)), Memory.read_write_other _ (h 0 (by decide))]

/-- Byte `i` of a big-endian write is found at `key i`, the keys being distinct. -/
theorem Memory.read_writeBE_self {m : Memory} {key : Nat → Nat} {n : Width} (v : Word) (hm : m.wf)
    (hk : ∀ i < n.bytes, ∀ j < n.bytes, key i = key j → i = j) {i : Nat} (hi : i < n.bytes) :
    (m.writeBE key n v).read (key i) = beByte n v i := by
  have ne : ∀ {i j}, i < n.bytes → j < n.bytes → i ≠ j → key i ≠ key j := fun hi hj h e => h (hk _ hi _ hj e)
  cases n with
  | byte =>
    obtain rfl : i = 0 := by simp [Width.bytes] at hi; omega
    exact Memory.read_write_self _ hm
  | word =>
    have h2 : i = 0 ∨ i = 1 := by simp [Width.bytes] at hi; omega
    have w0 := Memory.wf_write (key 0) (beByte .word v 0) hm
    simp only [Memory.writeBE]
    rcases h2 with rfl | rfl
    · rw [Memory.read_write_other _ (ne (by decide) (by decide) (by decide)), Memory.read_write_self _ hm]
    · rw [Memory.read_write_self _ w0]
  | long =>
    have h4 : i = 0 ∨ i = 1 ∨ i = 2 ∨ i = 3 := by simp [Width.bytes] at hi; omega
    have w0 := Memory.wf_write (key 0) (beByte .long v 0) hm
    have w1 := Memory.wf_write (key 1) (beByte .long v 1) w0
    have w2 := Memory.wf_write (key 2) (beByte .long v 2) w1
    simp only [Memory.writeBE]
    rcases h4 with rfl | rfl | rfl | rfl
    · rw [Memory.read_write_other _ (ne (by decide) (by decide) (by decide)),
        Memory.read_write_other _ (ne (by decide) (by decide) (by decide)),
        Memory.read_write_other _ (ne (by decide) (by decide) (by decide)), Memory.read_write_self _ hm]
    · rw [Memory.read_write_other _ (ne (by decide) (by decide) (by decide)),
        Memory.read_write_other _ (ne (by decide) (by decide) (by decide)), Memory.read_write_self _ w0]
    · rw [Memory.read_write_other _ (ne (by decide) (by decide) (by decide)), Memory.read_write_self _ w1]
    · rw [Memory.read_write_self _ w2]

/-- The value a big-endian read assembles depends on its own bytes only. -/
theorem beRead_congr {f g : Nat → Byte} {n : Width} (h : ∀ i < n.bytes, f i = g i) : beRead f n = beRead g n := by
  cases n with
  | byte => simp [beRead, h 0 (by decide)]
  | word => simp [beRead, h 0 (by decide), h 1 (by decide)]
  | long => simp [beRead, h 0 (by decide), h 1 (by decide), h 2 (by decide), h 3 (by decide)]

/-- Splitting a value into its bytes and assembling them gives its low bytes (R64). -/
theorem beRead_beByte (n : Width) (v : Word) : beRead (beByte n v) n = lowBytes n v := by
  cases n with
  | byte => rfl
  | word =>
    simp only [beRead, beByte, lowBytes, Width.bytes]
    rw [BitVec.extractLsb'_append_extractLsb'_eq_extractLsb' (by rfl)]
  | long =>
    simp only [beRead, beByte, lowBytes, Width.bytes]
    rw [BitVec.extractLsb'_append_extractLsb'_eq_extractLsb' (by rfl),
      BitVec.extractLsb'_append_extractLsb'_eq_extractLsb' (by rfl),
      BitVec.extractLsb'_append_extractLsb'_eq_extractLsb' (by rfl)]
    exact BitVec.extractLsb'_eq_self

/-- A big-endian read after a big-endian write of the same width at the same keys gives the value's low bytes. -/
theorem Memory.readBE_writeBE {m : Memory} {key : Nat → Nat} {n : Width} (v : Word) (hm : m.wf)
    (hk : ∀ i < n.bytes, ∀ j < n.bytes, key i = key j → i = j) :
    (m.writeBE key n v).readBE key n = lowBytes n v := by
  rw [Memory.readBE, ← beRead_beByte]
  exact beRead_congr fun i hi => Memory.read_writeBE_self v hm hk hi

/-! ### The keys -/

theorem busKey_lt (a : Word) (i : Nat) : busKey a i < 2 ^ 28 :=
  (busAddress (a + BitVec.ofNat 32 i)).isLt

theorem busKey_inj (a : Word) {i j : Nat} (hi : i < 4) (hj : j < 4) (h : busKey a i = busKey a j) : i = j := by
  simp only [busKey, busAddress, BitVec.extractLsb'_toNat, BitVec.toNat_add, BitVec.toNat_ofNat] at h
  omega

theorem daKey_lt (a : Word) (i : Nat) : daKey a i < 4096 :=
  (a.extractLsb' 0 12 + BitVec.ofNat 12 i).isLt

theorem daKey_inj (a : Word) {i j : Nat} (hi : i < 4) (hj : j < 4) (h : daKey a i = daKey a j) : i = j := by
  simp only [daKey, BitVec.extractLsb'_toNat, BitVec.toNat_add, BitVec.toNat_ofNat] at h
  omega

theorem dataKey_lt (l : Fin 64) (w : Fin 4) (o : BitVec 4) (i : Nat) : dataKey l w o i < 4096 := by
  have := (o + BitVec.ofNat 4 i).isLt
  have := l.isLt
  have := w.isLt
  simp only [dataKey]
  omega

theorem dataKey_inj (l : Fin 64) (w : Fin 4) (o : BitVec 4) {i j : Nat} (hi : i < 4) (hj : j < 4)
    (h : dataKey l w o i = dataKey l w o j) : i = j := by
  simp only [dataKey, BitVec.toNat_add, BitVec.toNat_ofNat] at h
  omega

theorem Width.bytes_le (n : Width) : n.bytes ≤ 4 := by cases n <;> decide

end Sys2Proof.Machine
end

