-- ==== Sys2Proof/Laws/State.lean ====
section
/-! SUPPORT. One lemma per field per update of State and Block, so that no later proof unfolds a record update. -/

namespace Sys2Proof.Machine

/-! ### Channels of an instance -/

@[simp] theorem Block.chan_setChan_self (b : Block) (n : ChannelId) (c : Channel) : (b.setChan n c).chan n = c := by
  cases n <;> rfl

theorem Block.chan_setChan_other (b : Block) {n m : ChannelId} (c : Channel) (h : m ≠ n) :
    (b.setChan n c).chan m = b.chan m := by
  cases n <;> cases m <;> first | rfl | exact absurd rfl h

@[simp] theorem Block.setChan_chan (b : Block) (n : ChannelId) : b.setChan n (b.chan n) = b := by
  cases n <;> rfl

@[simp] theorem Block.setChan_setChan (b : Block) (n : ChannelId) (c d : Channel) :
    (b.setChan n c).setChan n d = b.setChan n d := by
  cases n <;> rfl

@[simp] theorem Block.setChan_dmaor (b : Block) (n : ChannelId) (c : Channel) : (b.setChan n c).dmaor = b.dmaor := by
  cases n <;> rfl

@[simp] theorem Block.setChan_ipra (b : Block) (n : ChannelId) (c : Channel) : (b.setChan n c).ipra = b.ipra := by
  cases n <;> rfl

@[simp] theorem Block.setChan_ccr (b : Block) (n : ChannelId) (c : Channel) : (b.setChan n c).ccr = b.ccr := by
  cases n <;> rfl

@[simp] theorem Block.setChan_lines (b : Block) (n : ChannelId) (c : Channel) : (b.setChan n c).lines = b.lines := by
  cases n <;> rfl

@[simp] theorem Block.setChan_data (b : Block) (n : ChannelId) (c : Channel) : (b.setChan n c).data = b.data := by
  cases n <;> rfl

@[simp] theorem Block.setChan_da (b : Block) (n : ChannelId) (c : Channel) : (b.setChan n c).da = b.da := by
  cases n <;> rfl

@[simp] theorem Block.setChan_q (b : Block) (n : ChannelId) (c : Channel) : (b.setChan n c).q = b.q := by
  cases n <;> rfl

@[simp] theorem Block.setChan_seq (b : Block) (n : ChannelId) (c : Channel) : (b.setChan n c).seq = b.seq := by
  cases n <;> rfl

/-! ### Lines of an instance -/

@[simp] theorem Block.line_setLine_self (b : Block) (l : Fin 64) (x : Line) : (b.setLine l x).line l = x := by
  simp [Block.line, Block.setLine]

theorem Block.line_setLine_other (b : Block) {l k : Fin 64} (x : Line) (h : k ≠ l) :
    (b.setLine l x).line k = b.line k := by
  have : (l : Nat) ≠ k := fun e => h (Fin.ext e.symm)
  simp [Block.line, Block.setLine, this]

@[simp] theorem Block.setLine_ch0 (b : Block) (l : Fin 64) (x : Line) : (b.setLine l x).ch0 = b.ch0 := rfl
@[simp] theorem Block.setLine_ch1 (b : Block) (l : Fin 64) (x : Line) : (b.setLine l x).ch1 = b.ch1 := rfl
@[simp] theorem Block.setLine_chan (b : Block) (l : Fin 64) (x : Line) (n : ChannelId) :
    (b.setLine l x).chan n = b.chan n := by cases n <;> rfl
@[simp] theorem Block.setLine_dmaor (b : Block) (l : Fin 64) (x : Line) : (b.setLine l x).dmaor = b.dmaor := rfl
@[simp] theorem Block.setLine_ipra (b : Block) (l : Fin 64) (x : Line) : (b.setLine l x).ipra = b.ipra := rfl
@[simp] theorem Block.setLine_ccr (b : Block) (l : Fin 64) (x : Line) : (b.setLine l x).ccr = b.ccr := rfl
@[simp] theorem Block.setLine_data (b : Block) (l : Fin 64) (x : Line) : (b.setLine l x).data = b.data := rfl
@[simp] theorem Block.setLine_da (b : Block) (l : Fin 64) (x : Line) : (b.setLine l x).da = b.da := rfl
@[simp] theorem Block.setLine_q (b : Block) (l : Fin 64) (x : Line) : (b.setLine l x).q = b.q := rfl
@[simp] theorem Block.setLine_seq (b : Block) (l : Fin 64) (x : Line) : (b.setLine l x).seq = b.seq := rfl

/-! ### The addressed instance -/

@[simp] theorem State.blk_setBlk (s : State) (b : Block) : (s.setBlk b).blk = b := by
  cases h : s.cur <;> simp [State.blk, State.instOf, State.setBlk, h]

theorem State.instOf_setBlk_other (s : State) (b : Block) {ctx : ContextId} (h : ctx ≠ s.cur) :
    (s.setBlk b).instOf ctx = s.instOf ctx := by
  cases ctx <;> cases hc : s.cur <;> simp_all [State.instOf, State.setBlk]

@[simp] theorem State.setBlk_blk (s : State) : s.setBlk s.blk = s := by
  cases s with
  | mk m sl mo so c => cases c <;> rfl

@[simp] theorem State.setBlk_setBlk (s : State) (b c : Block) : (s.setBlk b).setBlk c = s.setBlk c := by
  cases h : s.cur <;> simp [State.setBlk, h]

@[simp] theorem State.setBlk_masterOn (s : State) (b : Block) : (s.setBlk b).masterOn = s.masterOn := rfl
@[simp] theorem State.setBlk_slaveOn (s : State) (b : Block) : (s.setBlk b).slaveOn = s.slaveOn := rfl
@[simp] theorem State.setBlk_cur (s : State) (b : Block) : (s.setBlk b).cur = s.cur := rfl
@[simp] theorem State.setBlk_bus (s : State) (b : Block) : (s.setBlk b).bus = s.bus := rfl
@[simp] theorem State.setBlk_pages (s : State) (b : Block) : (s.setBlk b).pages = s.pages := rfl
@[simp] theorem State.setBlk_params (s : State) (b : Block) : (s.setBlk b).params = s.params := rfl
@[simp] theorem State.setBlk_draws (s : State) (b : Block) : (s.setBlk b).draws = s.draws := rfl
@[simp] theorem State.setBlk_inputs (s : State) (b : Block) : (s.setBlk b).inputs = s.inputs := rfl
@[simp] theorem State.setBlk_result (s : State) (b : Block) : (s.setBlk b).result = s.result := rfl
@[simp] theorem State.setBlk_trace (s : State) (b : Block) : (s.setBlk b).trace = s.trace := rfl

@[simp] theorem State.blk_setChan (s : State) (n : ChannelId) (c : Channel) :
    (s.setChan n c).blk = s.blk.setChan n c := by simp [State.setChan]

@[simp] theorem State.chan_setChan_self (s : State) (n : ChannelId) (c : Channel) : (s.setChan n c).chan n = c := by
  simp [State.chan]

theorem State.chan_setChan_other (s : State) {n m : ChannelId} (c : Channel) (h : m ≠ n) :
    (s.setChan n c).chan m = s.chan m := by
  simp [State.chan, Block.chan_setChan_other _ _ h]

@[simp] theorem State.setChan_cur (s : State) (n : ChannelId) (c : Channel) : (s.setChan n c).cur = s.cur := rfl
@[simp] theorem State.setChan_bus (s : State) (n : ChannelId) (c : Channel) : (s.setChan n c).bus = s.bus := rfl
@[simp] theorem State.setChan_pages (s : State) (n : ChannelId) (c : Channel) : (s.setChan n c).pages = s.pages := rfl
@[simp] theorem State.setChan_params (s : State) (n : ChannelId) (c : Channel) : (s.setChan n c).params = s.params := rfl
@[simp] theorem State.setChan_draws (s : State) (n : ChannelId) (c : Channel) : (s.setChan n c).draws = s.draws := rfl
@[simp] theorem State.setChan_inputs (s : State) (n : ChannelId) (c : Channel) : (s.setChan n c).inputs = s.inputs := rfl
@[simp] theorem State.setChan_result (s : State) (n : ChannelId) (c : Channel) : (s.setChan n c).result = s.result := rfl
@[simp] theorem State.setChan_trace (s : State) (n : ChannelId) (c : Channel) : (s.setChan n c).trace = s.trace := rfl

/-! ### Events and bus accesses -/

@[simp] theorem State.emit_blk (s : State) (e : Event) : (s.emit e).blk = s.blk := rfl
@[simp] theorem State.emit_chan (s : State) (e : Event) (n : ChannelId) : (s.emit e).chan n = s.chan n := rfl
@[simp] theorem State.emit_cur (s : State) (e : Event) : (s.emit e).cur = s.cur := rfl
@[simp] theorem State.emit_bus (s : State) (e : Event) : (s.emit e).bus = s.bus := rfl
@[simp] theorem State.emit_pages (s : State) (e : Event) : (s.emit e).pages = s.pages := rfl
@[simp] theorem State.emit_params (s : State) (e : Event) : (s.emit e).params = s.params := rfl
@[simp] theorem State.emit_draws (s : State) (e : Event) : (s.emit e).draws = s.draws := rfl
@[simp] theorem State.emit_trace (s : State) (e : Event) : (s.emit e).trace = s.trace ++ [e] := rfl

@[simp] theorem State.notify_blk (s : State) (a : Word) (k : Nat) : (s.notify a k).blk = s.blk := rfl
@[simp] theorem State.notify_chan (s : State) (a : Word) (k : Nat) (n : ChannelId) : (s.notify a k).chan n = s.chan n := rfl
@[simp] theorem State.notify_cur (s : State) (a : Word) (k : Nat) : (s.notify a k).cur = s.cur := rfl
@[simp] theorem State.notify_bus (s : State) (a : Word) (k : Nat) : (s.notify a k).bus = s.bus := rfl
@[simp] theorem State.notify_pages (s : State) (a : Word) (k : Nat) : (s.notify a k).pages = s.pages := rfl
@[simp] theorem State.notify_params (s : State) (a : Word) (k : Nat) : (s.notify a k).params = s.params := rfl
@[simp] theorem State.notify_draws (s : State) (a : Word) (k : Nat) : (s.notify a k).draws = s.draws := rfl
@[simp] theorem State.notify_trace (s : State) (a : Word) (k : Nat) :
    (s.notify a k).trace = s.trace ++ [.notify s.cur a k] := rfl

@[simp] theorem State.afterRead_blk (s : State) (a : Word) (n : Width) : (s.afterRead a n).blk = s.blk := rfl
@[simp] theorem State.afterRead_chan (s : State) (a : Word) (n : Width) (m : ChannelId) :
    (s.afterRead a n).chan m = s.chan m := rfl
@[simp] theorem State.afterRead_cur (s : State) (a : Word) (n : Width) : (s.afterRead a n).cur = s.cur := rfl
@[simp] theorem State.afterRead_bus (s : State) (a : Word) (n : Width) : (s.afterRead a n).bus = s.bus := rfl
@[simp] theorem State.afterRead_pages (s : State) (a : Word) (n : Width) : (s.afterRead a n).pages = s.pages := rfl
@[simp] theorem State.afterRead_params (s : State) (a : Word) (n : Width) : (s.afterRead a n).params = s.params := rfl
@[simp] theorem State.afterRead_pageKind (s : State) (a b : Word) (n : Width) :
    (s.afterRead a n).pageKind b = s.pageKind b := rfl
@[simp] theorem State.afterRead_trace (s : State) (a : Word) (n : Width) :
    (s.afterRead a n).trace = s.trace ++ [.busRead s.cur (busAddress a) n (s.busValue a n)] := rfl

@[simp] theorem State.busWrite_blk (s : State) (a : Word) (n : Width) (v : Word) : (s.busWrite a n v).blk = s.blk := rfl
@[simp] theorem State.busWrite_chan (s : State) (a : Word) (n : Width) (v : Word) (m : ChannelId) :
    (s.busWrite a n v).chan m = s.chan m := rfl
@[simp] theorem State.busWrite_cur (s : State) (a : Word) (n : Width) (v : Word) : (s.busWrite a n v).cur = s.cur := rfl
@[simp] theorem State.busWrite_bus (s : State) (a : Word) (n : Width) (v : Word) :
    (s.busWrite a n v).bus = s.busStored a n v := rfl
@[simp] theorem State.busWrite_pages (s : State) (a : Word) (n : Width) (v : Word) :
    (s.busWrite a n v).pages = s.pages := rfl
@[simp] theorem State.busWrite_params (s : State) (a : Word) (n : Width) (v : Word) :
    (s.busWrite a n v).params = s.params := rfl
@[simp] theorem State.busWrite_draws (s : State) (a : Word) (n : Width) (v : Word) :
    (s.busWrite a n v).draws = s.draws := rfl
@[simp] theorem State.busWrite_trace (s : State) (a : Word) (n : Width) (v : Word) :
    (s.busWrite a n v).trace = s.trace ++ [.busWrite s.cur (busAddress a) n (lowBytes n v)] := rfl

@[simp] theorem State.busWriteNotify_blk (s : State) (a : Word) (n : Width) (v : Word) :
    (s.busWriteNotify a n v).blk = s.blk := rfl
@[simp] theorem State.busWriteNotify_bus (s : State) (a : Word) (n : Width) (v : Word) :
    (s.busWriteNotify a n v).bus = s.busStored a n v := rfl
@[simp] theorem State.busWriteNotify_pages (s : State) (a : Word) (n : Width) (v : Word) :
    (s.busWriteNotify a n v).pages = s.pages := rfl
@[simp] theorem State.busWriteNotify_params (s : State) (a : Word) (n : Width) (v : Word) :
    (s.busWriteNotify a n v).params = s.params := rfl

/-! ### The output fields hold no part of an instance -/

@[simp] theorem State.blk_with_result (s : State) (r : Option Word) : State.blk { s with result := r } = s.blk := rfl
@[simp] theorem State.chan_with_result (s : State) (r : Option Word) (n : ChannelId) :
    State.chan { s with result := r } n = s.chan n := rfl
@[simp] theorem State.blk_with_trace (s : State) (x : List Event) : State.blk { s with trace := x } = s.blk := rfl
@[simp] theorem State.blk_with_bus (s : State) (m : Memory) : State.blk { s with bus := m } = s.blk := rfl
@[simp] theorem State.blk_with_draws (s : State) (d : Nat) : State.blk { s with draws := d } = s.blk := rfl

/-! ### How a command ends -/

@[simp] theorem State.ret_eq (s : State) (v : Word) : s.ret v = .next { s with result := some v } := rfl
@[simp] theorem State.done_eq (s : State) : s.done = .next { s with result := none } := rfl

theorem guardAligned_of_aligned {n : Width} {a : Word} {r : Result} (h : aligned n a = true) : guardAligned n a r = r := by
  simp [guardAligned, h]

theorem guardAligned_of_misaligned {n : Width} {a : Word} {r : Result} (h : aligned n a = false) :
    guardAligned n a r = .refused .misaligned := by
  simp [guardAligned, h]

/-- A guarded command that ends in a next state was aligned. -/
theorem guardAligned_next {n : Width} {a : Word} {r : Result} {t : State} (h : guardAligned n a r = .next t) :
    aligned n a = true ∧ r = .next t := by
  unfold guardAligned at h
  split at h
  · exact ⟨‹_›, h⟩
  · cases h

end Sys2Proof.Machine
end

