-- ==== Sys2Proof/Laws/Ops.lean ====
section
/-! SUPPORT. One spec lemma per shared operation: what it answers, in the terms the statements use, so that no later
proof unfolds it. -/

namespace Sys2Proof.Machine

/-! ### The predicates -/

theorem inWindow_iff (p : Params) (page : Nat) :
    inWindow p page = true ↔ ∃ r ∈ p.window, r.first ≤ page ∧ page ≤ r.last := by
  simp [inWindow, PageRun.holds]

theorem State.cacheable_iff (s : State) (a : Word) : s.cacheable a = true ↔ Cacheable s a := by
  simp [State.cacheable, Cacheable, ccrCE, inWindow_iff, and_assoc]

theorem Block.holds_iff (b : Block) (a : Word) (w : Fin 4) :
    (b.line (lineOf a)).holds w (tagOf a) = true ↔ HoldsTag b a w := by
  simp [Line.holds, HoldsTag]

theorem Block.lookup_eq_some_iff (b : Block) (a : Word) (w : Fin 4) : b.lookup a = some w ↔ HitsAt b a w := by
  simp only [HitsAt, ← Block.holds_iff, Block.lookup, Line.wayOf]
  generalize b.line (lineOf a) = x
  generalize tagOf a = t
  match w with
  | 0 | 1 | 2 | 3 =>
    cases h0 : x.holds 0 t <;> cases h1 : x.holds 1 t <;> cases h2 : x.holds 2 t <;> cases h3 : x.holds 3 t <;>
      simp [h0, h1, h2, h3, Fin.forall_fin_succ]

theorem Block.lookup_eq_none_iff (b : Block) (a : Word) : b.lookup a = none ↔ Misses b a := by
  simp only [Misses, ← Block.holds_iff, Block.lookup, Line.wayOf]
  generalize b.line (lineOf a) = x
  generalize tagOf a = t
  cases h0 : x.holds 0 t <;> cases h1 : x.holds 1 t <;> cases h2 : x.holds 2 t <;> cases h3 : x.holds 3 t <;>
    simp [h0, h1, h2, h3, Fin.forall_fin_succ]

theorem engineOn_iff (b : Block) : engineOn b = true ↔ EngineOn b := by
  simp [engineOn, EngineOn, dmaorDME, dmaorAE, dmaorNMIF, and_assoc]

theorem malformed_iff (c : Channel) : malformed c = true ↔ Malformed c := by
  simp [malformed, Malformed, chcrSM, chcrDM, chcrTS, Nat.dvd_iff_mod_eq_zero, or_assoc]

theorem requesting_iff (c : Channel) : requesting c = true ↔ Requesting c := by
  simp [requesting, Requesting, chcrDE, chcrTE, ← malformed_iff, and_assoc]

theorem Bool.eq_false_of_not_iff {x : Bool} {p : Prop} (h : x = true ↔ p) : x = false ↔ ¬ p := by
  cases x <;> simp_all

/-! ### The bus -/

theorem State.busValue_eq (s : State) (a : Word) (n : Width) : s.busValue a n = busAnswer s a n 0 := rfl

theorem State.busStored_eq (s : State) (a : Word) (n : Width) (v : Word) : s.busStored a n v = storedBus s a n v := rfl

theorem State.afterRead_eq (s : State) (a : Word) (n : Width) :
    s.afterRead a n = { s with
      draws := drawsAfter s a 1
      trace := s.trace ++ [.busRead s.cur (busAddress a) n (busAnswer s a n 0)] } := rfl

theorem State.busWriteNotify_eq (s : State) (a : Word) (n : Width) (v : Word) :
    s.busWriteNotify a n v = { s with
      bus := storedBus s a n v
      trace := s.trace ++ [.busWrite s.cur (busAddress a) n (lowBytes n v), .notify s.cur a n.bytes] } := by
  simp [State.busWriteNotify, State.busWrite, State.notify, State.emit, State.busStored_eq]

theorem State.copy_eq (s : State) (src dst : Word) (n : Width) : s.copy src dst n = copied s src dst n := by
  simp only [State.copy, copied, State.busWrite, State.emit, State.afterRead_eq, State.busValue_eq, List.append_assoc,
    List.singleton_append]
  rfl

/-- A bus write keeps the canonical form and stays inside the 28-bit address space. -/
theorem storedBus_wf {s : State} (a : Word) (n : Width) (v : Word) (h : s.bus.wf = true) :
    (storedBus s a n v).wf = true := by
  unfold storedBus
  split
  · exact Memory.wf_writeBE _ n v h
  · exact h

theorem storedBus_below {s : State} (a : Word) (n : Width) (v : Word) (h : s.bus.below (2 ^ 28) = true) :
    (storedBus s a n v).below (2 ^ 28) = true := by
  unfold storedBus
  split
  · exact Memory.below_writeBE _ n v (busKey_lt a) h
  · exact h

/-- Only a[27:0] reaches the bus: two addresses that agree there have the same keys (R12). -/
theorem busKey_congr {a b : Word} (h : busAddress a = busAddress b) (i : Nat) : busKey a i = busKey b i := by
  have h' : a.toNat % 2 ^ 28 = b.toNat % 2 ^ 28 := by
    have := congrArg BitVec.toNat h
    simpa [busAddress, BitVec.extractLsb'_toNat] using this
  simp only [busKey, busAddress, BitVec.extractLsb'_toNat, BitVec.toNat_add, BitVec.toNat_ofNat]
  omega

theorem pageOf_congr {a b : Word} (h : busAddress a = busAddress b) : pageOf a = pageOf b := by
  have h' : a.toNat % 2 ^ 28 = b.toNat % 2 ^ 28 := by
    have := congrArg BitVec.toNat h
    simpa [busAddress, BitVec.extractLsb'_toNat] using this
  simp only [pageOf, BitVec.extractLsb'_toNat, Nat.shiftRight_eq_div_pow]
  omega

theorem busAddress_fullAddress (c c' : BitVec 3) (low : BitVec 29) :
    busAddress (fullAddress c low) = busAddress (fullAddress c' low) := by
  apply BitVec.eq_of_toNat_eq
  simp only [busAddress, fullAddress, BitVec.extractLsb'_toNat, BitVec.toNat_append, Nat.shiftRight_zero,
    Nat.shiftLeft_eq]
  have := low.isLt
  rw [← Nat.shiftLeft_eq, ← Nat.shiftLeft_eq, ← Nat.shiftLeft_add_eq_or_of_lt this, ← Nat.shiftLeft_add_eq_or_of_lt this]
  simp only [Nat.shiftLeft_eq]
  omega

/-- An aligned access does not wrap at the top of the bus. -/
theorem busKey_of_aligned {n : Width} {a : Word} (h : aligned n a = true) {k : Nat} (hk : k < n.bytes) :
    busKey a k = (busAddress a).toNat + k := by
  have ha : a.toNat % n.bytes = 0 := by
    cases n with
    | byte => simp [Width.bytes, Nat.mod_one]
    | word =>
      have := congrArg BitVec.toNat (beq_iff_eq.mp h)
      simpa [BitVec.extractLsb'_toNat, Width.bytes] using this
    | long =>
      have := congrArg BitVec.toNat (beq_iff_eq.mp h)
      simpa [BitVec.extractLsb'_toNat, Width.bytes] using this
  have := a.isLt
  simp only [busKey, busAddress, BitVec.extractLsb'_toNat, BitVec.toNat_add, BitVec.toNat_ofNat]
  cases n <;> simp only [Width.bytes] at ha hk <;> omega

/-! ### The fill -/

theorem lineBase_toNat (a : Word) : (lineBase a).toNat = a.toNat - a.toNat % 16 := by
  have h : lineBase a = (a >>> 4) <<< 4 := by
    apply BitVec.eq_of_getLsbD_eq
    intro i hi
    interval_cases i <;> simp [lineBase]
  rw [h]
  simp only [BitVec.toNat_shiftLeft, BitVec.toNat_ushiftRight, Nat.shiftLeft_eq, Nat.shiftRight_eq_div_pow]
  have := a.isLt
  omega

theorem fillAddress_toNat (a : Word) {i : Nat} (hi : i < 4) :
    (fillAddress a i).toNat = a.toNat - a.toNat % 16 + 4 * i := by
  simp only [fillAddress, BitVec.toNat_add, lineBase_toNat, BitVec.toNat_ofNat]
  have := a.isLt
  omega

/-- The four longs of a line lie in the page of every address of the line. -/
theorem pageOf_fillAddress (a : Word) {i : Nat} (hi : i < 4) : pageOf (fillAddress a i) = pageOf a := by
  simp only [pageOf, BitVec.extractLsb'_toNat, fillAddress_toNat a hi, Nat.shiftRight_eq_div_pow]
  omega

theorem dataKey_zero (l : Fin 64) (w : Fin 4) {b : Nat} (hb : b < 16) : dataKey l w 0 b = (4 * l.val + w.val) * 16 + b := by
  simp [dataKey, Nat.mod_eq_of_lt hb]

theorem dataKey_four (l : Fin 64) (w : Fin 4) (i j : Nat) :
    dataKey l w (BitVec.ofNat 4 (4 * i)) j = dataKey l w 0 (4 * i + j) := by
  have h0 : (0 : BitVec 4).toNat = 0 := rfl
  simp only [dataKey, BitVec.toNat_add, BitVec.toNat_ofNat, h0]
  omega

/-- Byte `o + i` of a line lies where an aligned access at `o` looks for its byte `i`. -/
theorem dataKey_off {n : Width} {a : Word} (h : aligned n a = true) (l : Fin 64) (w : Fin 4) {i : Nat} (hi : i < n.bytes) :
    dataKey l w (offOf a) i = dataKey l w 0 ((offOf a).toNat + i) ∧ (offOf a).toNat + i < 16 := by
  have ha : a.toNat % n.bytes = 0 := by
    cases n with
    | byte => simp [Width.bytes, Nat.mod_one]
    | word =>
      have := congrArg BitVec.toNat (beq_iff_eq.mp h)
      simpa [BitVec.extractLsb'_toNat, Width.bytes] using this
    | long =>
      have := congrArg BitVec.toNat (beq_iff_eq.mp h)
      simpa [BitVec.extractLsb'_toNat, Width.bytes] using this
  have ho : (offOf a).toNat = a.toNat % 16 := by simp [offOf, BitVec.extractLsb'_toNat]
  have : a.toNat % 16 + i < 16 := by cases n <;> simp only [Width.bytes] at ha hi <;> omega
  refine ⟨?_, by omega⟩
  rw [dataKey_zero l w (by omega)]
  simp only [dataKey, BitVec.toNat_add, BitVec.toNat_ofNat, ho]
  omega

/-! ### The LRU pair -/

@[simp] theorem LruPair.touched_ofFunctions (f : BitVec 6 → Fin 4 → BitVec 6) (g : BitVec 6 → Bool → Fin 4)
    (x : BitVec 6) (w : Fin 4) : (LruPair.ofFunctions f g).touched x w = f x w := by
  simp [LruPair.touched, LruPair.ofFunctions]

@[simp] theorem LruPair.victimOf_ofFunctions (f : BitVec 6 → Fin 4 → BitVec 6) (g : BitVec 6 → Bool → Fin 4)
    (x : BitVec 6) (tw : Bool) : (LruPair.ofFunctions f g).victimOf x tw = g x tw := by
  cases tw <;> simp [LruPair.victimOf, LruPair.ofFunctions]

/-- The default pair is that of R121 and R122. -/
@[simp] theorem documentedLru_touched (x : BitVec 6) (w : Fin 4) : documentedLru.touched x w = lruTouch x w :=
  LruPair.touched_ofFunctions _ _ x w

@[simp] theorem documentedLru_victimOf (x : BitVec 6) (tw : Bool) : documentedLru.victimOf x tw = lruVictim x tw :=
  LruPair.victimOf_ofFunctions _ _ x tw

/-- DATA after the first `k` fetches of a fill of slot (l, w), ascending. -/
def fetchedData (s : State) (a : Word) (w : Fin 4) : Nat → Memory
  | 0 => s.blk.data
  | k + 1 =>
    (fetchedData s a w k).writeBE (dataKey (lineOf a) w (BitVec.ofNat 4 (4 * k))) .long
      (busAnswer s (fillAddress a k) .long k)

/-- The state after the first `k` fetches of a fill. -/
def fetched (s : State) (a : Word) (w : Fin 4) (k : Nat) : State :=
  { s.setBlk { s.blk with data := fetchedData s a w k } with
    draws := drawsAfter s a k
    trace := s.trace ++ (List.range k).map fun i =>
      .busRead s.cur (busAddress (fillAddress a i)) .long (busAnswer s (fillAddress a i) .long i) }

theorem fetched_blk (s : State) (a : Word) (w : Fin 4) (k : Nat) :
    (fetched s a w k).blk = { s.blk with data := fetchedData s a w k } :=
  State.blk_setBlk s _

theorem fetched_setBlk (s : State) (a : Word) (w : Fin 4) (k : Nat) (b : Block) :
    (fetched s a w k).setBlk b = { s.setBlk b with
      draws := drawsAfter s a k
      trace := s.trace ++ (List.range k).map fun i =>
        .busRead s.cur (busAddress (fillAddress a i)) .long (busAnswer s (fillAddress a i) .long i) } := by
  cases h : s.cur <;> simp [fetched, State.setBlk, h]

theorem fetchLong_fetched (s : State) (a : Word) (w : Fin 4) {k : Nat} (hk : k < 4) :
    (fetched s a w k).fetchLong a w k = fetched s a w (k + 1) := by
  have hp := pageOf_fillAddress a hk
  have hv : (fetched s a w k).busValue (fillAddress a k) .long = busAnswer s (fillAddress a k) .long k := by
    simp only [State.busValue_eq, busAnswer, hp]
    cases h : pageKindIn s.pages (pageOf a) <;> simp [fetched, State.setBlk, drawsAfter, h]
  have hd : drawsAfter (fetched s a w k) (fillAddress a k) 1 = drawsAfter s a (k + 1) := by
    simp only [drawsAfter, hp]
    cases h : pageKindIn s.pages (pageOf a) <;> simp [fetched, State.setBlk, drawsAfter, h]
    omega
  have h1 : (fetched s a w k).fetchLong a w k =
      ((fetched s a w k).afterRead (fillAddress a k) .long).setBlk
        { (fetched s a w k).blk with
          data := (fetched s a w k).blk.data.writeBE (dataKey (lineOf a) w (BitVec.ofNat 4 (4 * k))) .long
            ((fetched s a w k).busValue (fillAddress a k) .long) } := rfl
  rw [h1, State.afterRead_eq, hv, hd, fetched_blk, ← State.busValue_eq, hv]
  cases h : s.cur <;> simp [fetched, State.setBlk, h, fetchedData, List.range_succ]

/-- What FILL does, all of it (R123). -/
theorem State.fill_eq (s : State) (a : Word) (w : Fin 4) :
    s.fill a w =
      { s.setBlk { s.blk.setLine (lineOf a)
          { lru := s.params.lru.touched (s.blk.line (lineOf a)).lru w
            slots := (s.blk.line (lineOf a)).slots.set w ⟨true, tagOf a⟩ } with data := fetchedData s a w 4 } with
        draws := drawsAfter s a 4
        trace := s.trace ++ fillReads s a ++ [.notify s.cur (lineBase a) 16] } := by
  have h0 : s = fetched s a w 0 := by
    cases s with
    | mk m sl mo so c => cases c <;> simp [fetched, State.setBlk, State.blk, State.instOf, fetchedData, drawsAfter]
  have h4 : (((s.fetchLong a w 0).fetchLong a w 1).fetchLong a w 2).fetchLong a w 3 = fetched s a w 4 := by
    conv_lhs => rw [h0]
    rw [fetchLong_fetched s a w (by decide), fetchLong_fetched s a w (by decide), fetchLong_fetched s a w (by decide),
      fetchLong_fetched s a w (by decide)]
  have hb : (((fetched s a w 4).blk.setSlot (lineOf a) w ⟨true, tagOf a⟩).touch s.params.lru (lineOf a) w) =
      { s.blk.setLine (lineOf a)
          { lru := s.params.lru.touched (s.blk.line (lineOf a)).lru w
            slots := (s.blk.line (lineOf a)).slots.set w ⟨true, tagOf a⟩ } with data := fetchedData s a w 4 } := by
    rw [fetched_blk]
    simp [Block.setSlot, Block.touch, Block.setLine, Block.line]
  simp only [State.fill, h4, hb, fetched_setBlk]
  rfl

theorem fetchedData_wf (s : State) (a : Word) (w : Fin 4) (hm : s.blk.data.wf = true) (k : Nat) :
    (fetchedData s a w k).wf = true := by
  induction k with
  | zero => exact hm
  | succ k ih => exact Memory.wf_writeBE _ _ _ ih

/-- Byte `b` of the filled slot is byte `b` of the line fetched (R123). -/
theorem fetchedData_read (s : State) (a : Word) (w : Fin 4) (hm : s.blk.data.wf = true) :
    ∀ {k b : Nat}, k ≤ 4 → b < 4 * k → (fetchedData s a w k).read (dataKey (lineOf a) w 0 b) = fillByte s a b := by
  intro k
  induction k with
  | zero => intro b _ hb; omega
  | succ k ih =>
    intro b hk hb
    by_cases hlt : b < 4 * k
    · rw [fetchedData, Memory.read_writeBE_other, ih (by omega) hlt]
      intro i hi he
      simp only [Width.bytes] at hi
      rw [dataKey_four, dataKey_zero _ _ (by omega), dataKey_zero _ _ (by omega)] at he
      omega
    · obtain ⟨j, rfl⟩ : ∃ j, b = 4 * k + j := ⟨b - 4 * k, by omega⟩
      rw [← dataKey_four, fetchedData,
        Memory.read_writeBE_self (n := .long) _ (fetchedData_wf s a w hm k) (fun i hi j hj => dataKey_inj _ _ _ hi hj) (show j < 4 by omega)]
      have h1 : (4 * k + j) / 4 = k := by omega
      have h2 : (4 * k + j) % 4 = j := by omega
      rw [fillByte, h1, h2]

/-- A fill changes no other byte of DATA. -/
theorem fetchedData_read_other (s : State) (a : Word) (w : Fin 4) {x : Nat}
    (h : ∀ b < 16, x ≠ dataKey (lineOf a) w 0 b) :
    ∀ {k : Nat}, k ≤ 4 → (fetchedData s a w k).read x = s.blk.data.read x := by
  intro k
  induction k with
  | zero => intro _; rfl
  | succ k ih =>
    intro hk
    rw [fetchedData, Memory.read_writeBE_other, ih (by omega)]
    intro i hi
    simp only [Width.bytes] at hi
    rw [dataKey_four]
    exact h _ (by omega)

theorem fetchedData_below (s : State) (a : Word) (w : Fin 4) (hm : s.blk.data.below 4096 = true) (k : Nat) :
    (fetchedData s a w k).below 4096 = true := by
  induction k with
  | zero => exact hm
  | succ k ih => exact Memory.below_writeBE _ _ _ (dataKey_lt _ _ _) ih

/-! ### InvalidateAll -/

theorem Block.invalidateAll_line (b : Block) (l : Fin 64) : b.invalidateAll.line l = Line.invalid := by
  simp [Block.invalidateAll, Block.line]

/-- One notification for each run of WINDOW pages, ascending (R126). -/
theorem State.notifyWindows_eq (s : State) : s.notifyWindows = { s with trace := s.trace ++ windowEvents s } := by
  have h : ∀ (rs : List PageRun) (t : State),
      rs.foldl (fun t r => t.notify (BitVec.ofNat 32 (r.first * 2 ^ 16)) ((r.last - r.first + 1) * 2 ^ 16)) t =
        { t with trace := t.trace ++ rs.map fun r =>
            .notify t.cur (BitVec.ofNat 32 (r.first * 2 ^ 16)) ((r.last - r.first + 1) * 2 ^ 16) } := by
    intro rs
    induction rs with
    | nil => intro t; simp
    | cons r rs ih => intro t; rw [List.foldl_cons, ih]; simp [State.notify, State.emit]
  exact h _ s

theorem State.invalidateAll_eq (s : State) :
    s.invalidateAll = { s.setBlk s.blk.invalidateAll with trace := s.trace ++ windowEvents s } := by
  rw [State.invalidateAll, State.notifyWindows_eq]
  rfl

/-! ### The interrupt queue -/

/-- A dropped request changes nothing (R230 a to c). -/
theorem Block.raiseIrq_dropped {cap : Nat} {b : Block} {v : BitVec 8} {lv : Nat}
    (h : lv = 0 ∨ (∃ e ∈ b.q, e.vector = v) ∨ cap ≤ b.q.length) : b.raiseIrq cap v lv = b := by
  unfold Block.raiseIrq
  rcases h with rfl | ⟨e, he, rfl⟩ | h
  · simp
  · split
    · rfl
    · rw [if_pos (List.any_eq_true.mpr ⟨e, he, by simp⟩)]
  · split
    · rfl
    · split
      · rfl
      · rfl

/-- Any other request becomes the entry numbered SEQ (R230 d). -/
theorem Block.raiseIrq_queued {cap : Nat} {b : Block} {v : BitVec 8} {lv : Nat}
    (h : ¬ (lv = 0 ∨ (∃ e ∈ b.q, e.vector = v) ∨ cap ≤ b.q.length)) :
    b.raiseIrq cap v lv = { b with q := b.q ++ [⟨v, lv, b.seq⟩], seq := b.seq + 1 } := by
  simp only [not_or, not_exists, not_and] at h
  unfold Block.raiseIrq
  rw [if_neg h.1, if_neg (by simpa using h.2.1), if_neg h.2.2]

/-- All RaiseIrq can do: leave Q, or append one entry. -/
theorem Block.raiseIrq_cases (cap : Nat) (b : Block) (v : BitVec 8) (lv : Nat) :
    b.raiseIrq cap v lv = b
    ∨ (lv ≠ 0 ∧ (∀ e ∈ b.q, e.vector ≠ v) ∧ b.q.length < cap
        ∧ b.raiseIrq cap v lv = { b with q := b.q ++ [⟨v, lv, b.seq⟩], seq := b.seq + 1 }) := by
  by_cases h : lv = 0 ∨ (∃ e ∈ b.q, e.vector = v) ∨ cap ≤ b.q.length
  · exact .inl (Block.raiseIrq_dropped h)
  · refine .inr ⟨?_, ?_, ?_, Block.raiseIrq_queued h⟩
    · exact fun e => h (.inl e)
    · exact fun e he hv => h (.inr (.inl ⟨e, he, hv⟩))
    · exact Nat.lt_of_not_le fun hc => h (.inr (.inr hc))

/-- RaiseIrq touches Q and SEQ only. -/
theorem Block.raiseIrq_fields (cap : Nat) (b : Block) (v : BitVec 8) (lv : Nat) :
    b.raiseIrq cap v lv = { b with q := (b.raiseIrq cap v lv).q, seq := (b.raiseIrq cap v lv).seq } := by
  rcases Block.raiseIrq_cases cap b v lv with h | ⟨_, _, _, h⟩ <;> rw [h]

theorem shownBefore_irrefl (tie : Tie) (e : Entry) : shownBefore tie e e = false := by
  cases tie <;> simp [shownBefore, tieBefore]

theorem shownBefore_asymm {tie : Tie} {e f : Entry} (h : shownBefore tie e f = true) : shownBefore tie f e = false := by
  cases tie <;> simp [shownBefore, tieBefore] at h ⊢ <;> omega

/-- BEST is an entry of Q. -/
theorem best_mem {tie : Tie} : ∀ {q : List Entry} {e : Entry}, best tie q = some e → e ∈ q
  | f :: q, e, h => by
    simp only [best] at h
    cases hb : best tie q with
    | none => simp_all
    | some g =>
      have := best_mem hb
      simp only [hb] at h
      split at h <;> simp_all

theorem best_eq_none {tie : Tie} {q : List Entry} : best tie q = none ↔ q = [] := by
  cases q with
  | nil => simp [best]
  | cons e q =>
    simp only [best]
    cases best tie q with
    | none => simp
    | some f => simp only []; split <;> simp

/-- No entry of Q is shown before BEST (R234): shownBefore is a strict order on levels and TIE. -/
theorem not_shownBefore_best {tie : Tie} : ∀ {q : List Entry} {e : Entry}, best tie q = some e →
    ∀ f ∈ q, shownBefore tie f e = false
  | g :: q, e, h => by
    intro f hf
    simp only [best] at h
    cases hb : best tie q with
    | none =>
      have := best_eq_none.mp hb
      simp only [hb] at h
      simp_all [shownBefore_irrefl]
    | some k =>
      simp only [hb] at h
      have ih := not_shownBefore_best hb
      split at h
      · rename_i hk
        obtain rfl : k = e := by simpa using h
        rcases List.mem_cons.mp hf with rfl | hf
        · exact shownBefore_asymm hk
        · exact ih f hf
      · rename_i hk
        obtain rfl : g = e := by simpa using h
        rcases List.mem_cons.mp hf with rfl | hf
        · exact shownBefore_irrefl _ _
        · have h1 := ih f hf
          cases tie <;> simp [shownBefore, tieBefore] at h1 hk ⊢ <;> omega

/-- An entry shown before all others of Q is BEST. -/
theorem best_of_first {tie : Tie} {q : List Entry} {e : Entry} (he : e ∈ q)
    (h : ∀ f ∈ q, f ≠ e → shownBefore tie e f = true) : best tie q = some e := by
  cases hb : best tie q with
  | none => rw [best_eq_none.mp hb] at he; simp at he
  | some f =>
    by_cases hfe : f = e
    · rw [hfe]
    · have := not_shownBefore_best hb e he
      rw [h f (best_mem hb) hfe] at this
      simp at this

end Sys2Proof.Machine
end

