-- ==== Sys2Proof/Laws/Commands.lean ====
section
/-! SUPPORT. One lemma per shared meaning: all that it does when it answers a next state, and that it does so whenever
the address is aligned. -/

namespace Sys2Proof.Machine

/-- A command that answers a next state ended in one of the two ways a command ends. -/
theorem State.ret_next {s t : State} {v : Word} (h : s.ret v = .next t) : t = { s with result := some v } := by
  simpa using h.symm

theorem State.done_next {s t : State} (h : s.done = .next t) : t = { s with result := none } := by
  simpa using h.symm

theorem cachedRead_eq {n : Width} {low : BitVec 29} {s : State} (h : aligned n (fullAddress 0b000#3 low) = true) :
    cachedRead n low s = .next
      (if s.cacheable (fullAddress 0b000#3 low) then { s.afterCacheRead (fullAddress 0b000#3 low) with result := some (s.cacheValue (fullAddress 0b000#3 low) n) }
        else { s.afterRead (fullAddress 0b000#3 low) n with result := some (s.busValue (fullAddress 0b000#3 low) n) }) := by
  rw [cachedRead]
  simp only [guardAligned_of_aligned h]
  split <;> rfl

theorem cachedRead_next {n : Width} {low : BitVec 29} {s t : State} (h : cachedRead n low s = .next t) :
    aligned n (fullAddress 0b000#3 low) = true ∧ t =
      (if s.cacheable (fullAddress 0b000#3 low) then { s.afterCacheRead (fullAddress 0b000#3 low) with result := some (s.cacheValue (fullAddress 0b000#3 low) n) }
        else { s.afterRead (fullAddress 0b000#3 low) n with result := some (s.busValue (fullAddress 0b000#3 low) n) }) := by
  have ha := (guardAligned_next h).1
  rw [cachedRead_eq ha] at h
  exact ⟨ha, by simpa using h.symm⟩

theorem cachedWrite_eq {n : Width} {low : BitVec 29} {wd : Word} {s : State} (h : aligned n (fullAddress 0b000#3 low) = true) :
    cachedWrite n low wd s = .next
      (if s.cacheable (fullAddress 0b000#3 low) then { s.cacheWrite (fullAddress 0b000#3 low) n wd with result := none }
        else { s.busWriteNotify (fullAddress 0b000#3 low) n wd with result := none }) := by
  rw [cachedWrite]
  simp only [guardAligned_of_aligned h]
  split <;> rfl

theorem cachedWrite_next {n : Width} {low : BitVec 29} {wd : Word} {s t : State} (h : cachedWrite n low wd s = .next t) :
    aligned n (fullAddress 0b000#3 low) = true ∧ t =
      (if s.cacheable (fullAddress 0b000#3 low) then { s.cacheWrite (fullAddress 0b000#3 low) n wd with result := none }
        else { s.busWriteNotify (fullAddress 0b000#3 low) n wd with result := none }) := by
  have ha := (guardAligned_next h).1
  rw [cachedWrite_eq ha] at h
  exact ⟨ha, by simpa using h.symm⟩

theorem uncachedRead_eq {n : Width} {low : BitVec 29} {s : State} (h : aligned n (fullAddress 0b001#3 low) = true) :
    uncachedRead n low s = .next
      { s.afterRead (fullAddress 0b001#3 low) n with result := some (s.busValue (fullAddress 0b001#3 low) n) } := by
  rw [uncachedRead]
  simp only [guardAligned_of_aligned h]
  rfl

theorem uncachedRead_next {n : Width} {low : BitVec 29} {s t : State} (h : uncachedRead n low s = .next t) :
    aligned n (fullAddress 0b001#3 low) = true ∧ t =
      { s.afterRead (fullAddress 0b001#3 low) n with result := some (s.busValue (fullAddress 0b001#3 low) n) } := by
  have ha := (guardAligned_next h).1
  rw [uncachedRead_eq ha] at h
  exact ⟨ha, by simpa using h.symm⟩

theorem uncachedWrite_eq {n : Width} {low : BitVec 29} {wd : Word} {s : State} (h : aligned n (fullAddress 0b001#3 low) = true) :
    uncachedWrite n low wd s = .next
      { s.busWriteNotify (fullAddress 0b001#3 low) n wd with result := none } := by
  rw [uncachedWrite]
  simp only [guardAligned_of_aligned h]
  rfl

theorem uncachedWrite_next {n : Width} {low : BitVec 29} {wd : Word} {s t : State} (h : uncachedWrite n low wd s = .next t) :
    aligned n (fullAddress 0b001#3 low) = true ∧ t =
      { s.busWriteNotify (fullAddress 0b001#3 low) n wd with result := none } := by
  have ha := (guardAligned_next h).1
  rw [uncachedWrite_eq ha] at h
  exact ⟨ha, by simpa using h.symm⟩

theorem purgeWrite_eq {n : Width} {low : BitVec 29} {s : State} (h : aligned n (fullAddress 0b010#3 low) = true) :
    purgeWrite n low s = .next
      { s.setBlk (s.blk.purgeOne (fullAddress 0b010#3 low)) with result := none } := by
  rw [purgeWrite]
  simp only [guardAligned_of_aligned h]
  rfl

theorem purgeWrite_next {n : Width} {low : BitVec 29} {s t : State} (h : purgeWrite n low s = .next t) :
    aligned n (fullAddress 0b010#3 low) = true ∧ t =
      { s.setBlk (s.blk.purgeOne (fullAddress 0b010#3 low)) with result := none } := by
  have ha := (guardAligned_next h).1
  rw [purgeWrite_eq ha] at h
  exact ⟨ha, by simpa using h.symm⟩

theorem purgeRead_eq {n : Width} {low : BitVec 29} {s : State} (h : aligned n (fullAddress 0b010#3 low) = true) :
    purgeRead n low s = .next
      { s with result := some (unmapped n) } := by
  rw [purgeRead]
  simp only [guardAligned_of_aligned h]
  rfl

theorem purgeRead_next {n : Width} {low : BitVec 29} {s t : State} (h : purgeRead n low s = .next t) :
    aligned n (fullAddress 0b010#3 low) = true ∧ t =
      { s with result := some (unmapped n) } := by
  have ha := (guardAligned_next h).1
  rw [purgeRead_eq ha] at h
  exact ⟨ha, by simpa using h.symm⟩

theorem addressArrayReserved_eq {n : Width} {low : BitVec 29} {s : State} (h : aligned n (fullAddress 0b011#3 low) = true) :
    addressArrayReserved n low s = .next
      { s with result := some (unmapped n) } := by
  rw [addressArrayReserved]
  simp only [guardAligned_of_aligned h]
  rfl

theorem addressArrayReserved_next {n : Width} {low : BitVec 29} {s t : State} (h : addressArrayReserved n low s = .next t) :
    aligned n (fullAddress 0b011#3 low) = true ∧ t =
      { s with result := some (unmapped n) } := by
  have ha := (guardAligned_next h).1
  rw [addressArrayReserved_eq ha] at h
  exact ⟨ha, by simpa using h.symm⟩

theorem addressArrayDiscard_eq {n : Width} {low : BitVec 29} {s : State} (h : aligned n (fullAddress 0b011#3 low) = true) :
    addressArrayDiscard n low s = .next
      { s with result := none } := by
  rw [addressArrayDiscard]
  simp only [guardAligned_of_aligned h]
  rfl

theorem addressArrayDiscard_next {n : Width} {low : BitVec 29} {s t : State} (h : addressArrayDiscard n low s = .next t) :
    aligned n (fullAddress 0b011#3 low) = true ∧ t =
      { s with result := none } := by
  have ha := (guardAligned_next h).1
  rw [addressArrayDiscard_eq ha] at h
  exact ⟨ha, by simpa using h.symm⟩

theorem dataArrayRead_eq {n : Width} {low : BitVec 29} {s : State} (h : aligned n (fullAddress 0b110#3 low) = true) :
    dataArrayRead n low s = .next
      { s with result := some (s.blk.da.readBE (daKey (fullAddress 0b110#3 low)) n) } := by
  rw [dataArrayRead]
  simp only [guardAligned_of_aligned h]
  rfl

theorem dataArrayRead_next {n : Width} {low : BitVec 29} {s t : State} (h : dataArrayRead n low s = .next t) :
    aligned n (fullAddress 0b110#3 low) = true ∧ t =
      { s with result := some (s.blk.da.readBE (daKey (fullAddress 0b110#3 low)) n) } := by
  have ha := (guardAligned_next h).1
  rw [dataArrayRead_eq ha] at h
  exact ⟨ha, by simpa using h.symm⟩

theorem dataArrayWrite_eq {n : Width} {low : BitVec 29} {wd : Word} {s : State} (h : aligned n (fullAddress 0b110#3 low) = true) :
    dataArrayWrite n low wd s = .next
      { s.setBlk { s.blk with da := s.blk.da.writeBE (daKey (fullAddress 0b110#3 low)) n wd } with result := none } := by
  rw [dataArrayWrite]
  simp only [guardAligned_of_aligned h]
  rfl

theorem dataArrayWrite_next {n : Width} {low : BitVec 29} {wd : Word} {s t : State} (h : dataArrayWrite n low wd s = .next t) :
    aligned n (fullAddress 0b110#3 low) = true ∧ t =
      { s.setBlk { s.blk with da := s.blk.da.writeBE (daKey (fullAddress 0b110#3 low)) n wd } with result := none } := by
  have ha := (guardAligned_next h).1
  rw [dataArrayWrite_eq ha] at h
  exact ⟨ha, by simpa using h.symm⟩

theorem reservedRead_eq {n : Width} {a : Word} {s : State} (h : aligned n a = true) :
    reservedRead n a s = .next
      { s with result := some (unmapped n) } := by
  rw [reservedRead]
  simp only [guardAligned_of_aligned h]
  rfl

theorem reservedRead_next {n : Width} {a : Word} {s t : State} (h : reservedRead n a s = .next t) :
    aligned n a = true ∧ t =
      { s with result := some (unmapped n) } := by
  have ha := (guardAligned_next h).1
  rw [reservedRead_eq ha] at h
  exact ⟨ha, by simpa using h.symm⟩

theorem reservedWrite_eq {n : Width} {a : Word} {s : State} (h : aligned n a = true) :
    reservedWrite n a s = .next
      { s with result := none } := by
  rw [reservedWrite]
  simp only [guardAligned_of_aligned h]
  rfl

theorem reservedWrite_next {n : Width} {a : Word} {s t : State} (h : reservedWrite n a s = .next t) :
    aligned n a = true ∧ t =
      { s with result := none } := by
  have ha := (guardAligned_next h).1
  rw [reservedWrite_eq ha] at h
  exact ⟨ha, by simpa using h.symm⟩

end Sys2Proof.Machine
end

