-- ==== Sys2Proof/Laws/Dma.lean ====
section
/-! SUPPORT. The laws of the DMA engine: what one unit turn does, an induction principle for RUN's loop, and what a pass
can do at most. -/

namespace Sys2Proof.Machine

/-! ### One unit -/

theorem unitBytes_pos (ts : BitVec 2) : 0 < unitBytes ts := by
  unfold unitBytes
  split <;> decide

theorem eat_pos (p : Params) (s d : Word) : 0 < eat p s d := by
  simp only [eat]
  omega

theorem tcrStep_pos (p : Params) (ts : BitVec 2) : 0 < tcrStep p ts := by
  unfold tcrStep
  split
  · split <;> decide
  · decide

@[simp] theorem copied_blk (s : State) (a b : Word) (n : Width) : (copied s a b n).blk = s.blk := rfl
@[simp] theorem copied_cur (s : State) (a b : Word) (n : Width) : (copied s a b n).cur = s.cur := rfl
@[simp] theorem copied_params (s : State) (a b : Word) (n : Width) : (copied s a b n).params = s.params := rfl
@[simp] theorem copied_pages (s : State) (a b : Word) (n : Width) : (copied s a b n).pages = s.pages := rfl

/-- The bus accesses of a unit touch no instance and no parameter. -/
theorem State.moveUnit_frame (s : State) (a b : Word) (ts : BitVec 2) :
    (s.moveUnit a b ts).blk = s.blk ∧ (s.moveUnit a b ts).cur = s.cur ∧ (s.moveUnit a b ts).params = s.params
      ∧ (s.moveUnit a b ts).pages = s.pages := by
  unfold State.moveUnit
  split <;> simp [State.copy_eq]

theorem State.moveUnit_chan (s : State) (a b : Word) (ts : BitVec 2) (n : ChannelId) :
    (s.moveUnit a b ts).chan n = s.chan n := by
  simp only [State.chan, (s.moveUnit_frame a b ts).1]

/-- The channel's registers after one turn (R205, R206). -/
theorem State.unitTurn_chan (s : State) (n : ChannelId) :
    (s.unitTurn n).chan n =
      { (s.chan n).advance s.params with clk := (s.chan n).clk - eat s.params (s.chan n).sar (s.chan n).dar } := by
  simp [State.unitTurn]

theorem State.unitTurn_chan_other (s : State) {n m : ChannelId} (h : m ≠ n) : (s.unitTurn n).chan m = s.chan m := by
  rw [State.unitTurn, State.chan_setChan_other _ _ h, State.moveUnit_chan]

@[simp] theorem State.unitTurn_cur (s : State) (n : ChannelId) : (s.unitTurn n).cur = s.cur := by
  simp [State.unitTurn, (s.moveUnit_frame _ _ _).2.1]

@[simp] theorem State.unitTurn_params (s : State) (n : ChannelId) : (s.unitTurn n).params = s.params := by
  simp [State.unitTurn, (s.moveUnit_frame _ _ _).2.2.1]

@[simp] theorem State.unitTurn_pages (s : State) (n : ChannelId) : (s.unitTurn n).pages = s.pages := by
  simp [State.unitTurn, (s.moveUnit_frame _ _ _).2.2.2]

theorem State.unitTurn_blk (s : State) (n : ChannelId) :
    (s.unitTurn n).blk = s.blk.setChan n
      { (s.chan n).advance s.params with clk := (s.chan n).clk - eat s.params (s.chan n).sar (s.chan n).dar } := by
  simp [State.unitTurn, (s.moveUnit_frame _ _ _).1]

/-- A turn lowers the count. -/
theorem Channel.advance_tcr (p : Params) (c : Channel) :
    ((c.advance p).tcr).toNat = c.tcr.toNat - tcrStep p (chcrTS c.chcr) := by
  have := c.tcr.isLt
  simp only [Channel.advance, BitVec.toNat_ofNat]
  omega

theorem State.unitTurn_tcr_lt (s : State) (n : ChannelId) (h : (s.chan n).tcr ≠ 0#24) :
    ((s.unitTurn n).chan n).tcr.toNat < (s.chan n).tcr.toNat := by
  have h0 : (s.chan n).tcr.toNat ≠ 0 := fun e => h (BitVec.eq_of_toNat_eq (by simpa using e))
  have := tcrStep_pos s.params (chcrTS (s.chan n).chcr)
  rw [State.unitTurn_chan]
  have := Channel.advance_tcr s.params (s.chan n)
  simp only at this ⊢
  omega

/-! ### The loop -/

/-- A turn of RUN's loop is due: units are left and the copy clock covers the next one (R205). -/
def State.ready (s : State) (n : ChannelId) : Prop :=
  (s.chan n).tcr ≠ 0#24 ∧ eat s.params (s.chan n).sar (s.chan n).dar ≤ (s.chan n).clk

/-- The loop makes `k` turns, each when it is due, and stops when none is due or its fuel is spent. -/
theorem runUnits_eq (n : ChannelId) : ∀ (fuel : Nat) (s : State) (x : Span),
    ∃ k, k ≤ fuel ∧ (∀ j < k, ((fun t : State => t.unitTurn n)^[j] s).ready n)
      ∧ (k < fuel → ¬ ((fun t : State => t.unitTurn n)^[k] s).ready n)
      ∧ runUnits fuel n s x =
          ((fun t : State => t.unitTurn n)^[k] s,
            (List.range k).foldl
              (fun x j => x.add (((fun t : State => t.unitTurn n)^[j] s).chan n).dar
                (unitBytes (chcrTS (((fun t : State => t.unitTurn n)^[j] s).chan n).chcr))) x)
  | 0, s, x => ⟨0, Nat.le_refl 0, by simp, by simp, by simp [runUnits]⟩
  | fuel + 1, s, x => by
    by_cases h : s.ready n
    · obtain ⟨k, hk, hr, hs, he⟩ := runUnits_eq n fuel (s.unitTurn n)
        (x.add (s.chan n).dar (unitBytes (chcrTS (s.chan n).chcr)))
      refine ⟨k + 1, by omega, ?_, ?_, ?_⟩
      · intro j hj
        cases j with
        | zero => exact h
        | succ j => exact hr j (by omega)
      · intro hlt
        exact hs (by omega)
      · rw [runUnits]
        simp only [h.1, if_false, Nat.not_lt.mpr h.2, he, List.range_succ_eq_map, List.foldl_cons, List.foldl_map,
          Function.iterate_succ_apply, Function.iterate_zero_apply]
    · refine ⟨0, Nat.zero_le _, by simp, fun _ => h, ?_⟩
      rw [runUnits]
      by_cases h0 : (s.chan n).tcr = 0#24
      · simp [h0]
      · have : (s.chan n).clk < eat s.params (s.chan n).sar (s.chan n).dar :=
          Nat.lt_of_not_le fun hc => h ⟨h0, hc⟩
        simp [h0, this]

/-- `k` turns that were all due lower the count by at least `k`. -/
theorem iterate_tcr_le (n : ChannelId) (s : State) : ∀ k,
    (∀ j < k, ((fun t : State => t.unitTurn n)^[j] s).ready n) →
    (((fun t : State => t.unitTurn n)^[k] s).chan n).tcr.toNat + k ≤ (s.chan n).tcr.toNat
  | 0, _ => by simp
  | k + 1, h => by
    have ih := iterate_tcr_le n s k fun j hj => h j (by omega)
    have := State.unitTurn_tcr_lt _ n (h k (by omega)).1
    rw [Function.iterate_succ_apply']
    omega

/-- RUN's loop is never cut short by its fuel, which is the count (R205). -/
theorem runUnits_stops (n : ChannelId) (s : State) (x : Span) :
    ∃ k, (∀ j < k, ((fun t : State => t.unitTurn n)^[j] s).ready n)
      ∧ ¬ ((fun t : State => t.unitTurn n)^[k] s).ready n
      ∧ runUnits (s.chan n).tcr.toNat n s x =
          ((fun t : State => t.unitTurn n)^[k] s,
            (List.range k).foldl
              (fun x j => x.add (((fun t : State => t.unitTurn n)^[j] s).chan n).dar
                (unitBytes (chcrTS (((fun t : State => t.unitTurn n)^[j] s).chan n).chcr))) x) := by
  obtain ⟨k, hk, hr, hs, he⟩ := runUnits_eq n (s.chan n).tcr.toNat s x
  refine ⟨k, hr, ?_, he⟩
  by_cases hlt : k < (s.chan n).tcr.toNat
  · exact hs hlt
  · intro hc
    have h := iterate_tcr_le n s k hr
    exact hc.1 (BitVec.eq_of_toNat_eq (by simp; omega))

/-- What holds before RUN's loop and is kept by every turn that is due holds after it. -/
theorem runUnits_induct {P : State → Prop} (n : ChannelId) (hs : ∀ t, t.ready n → P t → P (t.unitTurn n)) :
    ∀ (fuel : Nat) (s : State) (x : Span), P s → P (runUnits fuel n s x).1
  | 0, _, _, h => h
  | fuel + 1, s, x, h => by
    rw [runUnits]
    split
    · exact h
    · split
      · exact h
      · exact runUnits_induct n hs fuel _ _ (hs s ⟨‹_›, Nat.le_of_not_lt ‹_›⟩ h)

/-- What holds before RUN and is kept by each of its parts holds after it (R205, R207, R208). -/
theorem State.run_induct {P : State → Prop} (n : ChannelId) (budget : Nat) (s : State)
    (hbudget : P s → P (s.addBudget n budget))
    (hturn : ∀ t, t.ready n → P t → P (t.unitTurn n))
    (hnotify : ∀ t a k, P t → P (t.notify a k))
    (hcomplete : ∀ t, (t.chan n).tcr = 0#24 → P t → P (t.setBlk (t.blk.complete t.params.irqCap n)))
    (h : P s) : P (s.run n budget) := by
  have h1 := runUnits_induct n hturn ((s.addBudget n budget).chan n).tcr.toNat (s.addBudget n budget) none (hbudget h)
  have h2 : ∀ x, P ((runUnits ((s.addBudget n budget).chan n).tcr.toNat n (s.addBudget n budget) none).1.burstNotify x) := by
    intro x
    unfold State.burstNotify
    split
    · exact h1
    · split
      · exact h1
      · exact hnotify _ _ _ h1
  unfold State.run
  simp only
  split
  · exact hcomplete _ ‹_› (h2 _)
  · exact h2 _

/-- A pass is at most one RUN of channel 0 and one of channel 1, each only for a channel that requests at its start
(R204). -/
theorem State.pass_cases (s : State) (budget : Nat) :
    (s.pass budget = s ∧ (¬ EngineOn s.blk ∨ (¬ Requesting (s.chan .ch0) ∧ ¬ Requesting (s.chan .ch1))))
    ∨ (EngineOn s.blk ∧ Requesting (s.chan .ch0) ∧ (¬ Requesting (s.chan .ch1) ∨ s.blk.dmaor.getLsbD 3 = false)
        ∧ s.pass budget = s.run .ch0 budget)
    ∨ (EngineOn s.blk ∧ ¬ Requesting (s.chan .ch0) ∧ Requesting (s.chan .ch1) ∧ s.pass budget = s.run .ch1 budget)
    ∨ (EngineOn s.blk ∧ Requesting (s.chan .ch0) ∧ Requesting (s.chan .ch1) ∧ s.blk.dmaor.getLsbD 3 = true
        ∧ s.pass budget =
            (s.run .ch0 (rrBudget (s.chan .ch0) budget)).run .ch1 (rrBudget (s.chan .ch1) budget)) := by
  have e := engineOn_iff s.blk
  have r0 : requesting s.blk.ch0 = true ↔ Requesting (s.chan .ch0) := requesting_iff _
  have r1 : requesting s.blk.ch1 = true ↔ Requesting (s.chan .ch1) := requesting_iff _
  have hpr : dmaorPR s.blk.dmaor = s.blk.dmaor.getLsbD 3 := rfl
  rw [← e, ← r0, ← r1, ← hpr]
  have hc0 : s.chan .ch0 = s.blk.ch0 := rfl
  have hc1 : s.chan .ch1 = s.blk.ch1 := rfl
  rw [hc0, hc1]
  unfold State.pass
  cases engineOn s.blk <;> cases requesting s.blk.ch0 <;> cases requesting s.blk.ch1 <;> cases dmaorPR s.blk.dmaor <;> simp

/-- A kick is nothing or a pass (R176). -/
theorem State.kick_cases (s : State) (n : ChannelId) :
    (¬ (EngineOn s.blk ∧ Requesting (s.chan n)) ∧ s.kick n = s)
    ∨ ((EngineOn s.blk ∧ Requesting (s.chan n)) ∧ s.kick n = s.pass s.params.kickBudget) := by
  rw [← engineOn_iff, ← requesting_iff]
  unfold State.kick
  cases engineOn s.blk <;> cases requesting (s.chan n) <;> simp

end Sys2Proof.Machine
end

