-- ==== Sys2Proof/Laws/Encoding.lean ====
section
/-! SUPPORT. The laws of the encoding: the fields of a command word made of its kind byte and its payload, and the fields
of an address. -/

namespace Sys2Proof

theorem toNat_append (m n : Nat) (x : BitVec m) (y : BitVec n) : (x ++ y).toNat = x.toNat * 2 ^ n + y.toNat := by
  rw [BitVec.toNat_append, ← Nat.shiftLeft_add_eq_or_of_lt y.isLt, Nat.shiftLeft_eq]

/-! ### A command word, as kind byte and payload -/

theorem word_cls (k : BitVec 8) (p : Word) : (k ++ p : BitVec 40).extractLsb' 36 4 = k.extractLsb' 4 4 := by
  apply BitVec.eq_of_toNat_eq
  have := p.isLt
  simp only [BitVec.extractLsb'_toNat, toNat_append, Nat.shiftRight_eq_div_pow]
  omega

theorem word_top (k : BitVec 8) (p : Word) : (k ++ p : BitVec 40).extractLsb' 39 1 = k.extractLsb' 7 1 := by
  apply BitVec.eq_of_toNat_eq
  have := p.isLt
  simp only [BitVec.extractLsb'_toNat, toNat_append, Nat.shiftRight_eq_div_pow]
  omega

theorem word_rw (k : BitVec 8) (p : Word) : (k ++ p : BitVec 40).extractLsb' 35 1 = k.extractLsb' 3 1 := by
  apply BitVec.eq_of_toNat_eq
  have := p.isLt
  simp only [BitVec.extractLsb'_toNat, toNat_append, Nat.shiftRight_eq_div_pow]
  omega

theorem word_sz (k : BitVec 8) (p : Word) : (k ++ p : BitVec 40).extractLsb' 33 2 = k.extractLsb' 1 2 := by
  apply BitVec.eq_of_toNat_eq
  have := p.isLt
  simp only [BitVec.extractLsb'_toNat, toNat_append, Nat.shiftRight_eq_div_pow]
  omega

theorem word_bit32 (k : BitVec 8) (p : Word) : (k ++ p : BitVec 40).extractLsb' 32 1 = k.extractLsb' 0 1 := by
  apply BitVec.eq_of_toNat_eq
  have := p.isLt
  simp only [BitVec.extractLsb'_toNat, toNat_append, Nat.shiftRight_eq_div_pow]
  omega

theorem word_low4 (k : BitVec 8) (p : Word) : (k ++ p : BitVec 40).extractLsb' 32 4 = k.extractLsb' 0 4 := by
  apply BitVec.eq_of_toNat_eq
  have := p.isLt
  simp only [BitVec.extractLsb'_toNat, toNat_append, Nat.shiftRight_eq_div_pow]
  omega

theorem word_payload (k : BitVec 8) (p : Word) : (k ++ p : BitVec 40).extractLsb' 0 32 = p := by
  apply BitVec.eq_of_toNat_eq
  have := p.isLt
  simp only [BitVec.extractLsb'_toNat, toNat_append, Nat.shiftRight_eq_div_pow]
  omega

/-- Every command word is its kind byte and its payload. -/
theorem word_split (cw : BitVec 40) : cw = cw.extractLsb' 32 8 ++ cw.extractLsb' 0 32 := by
  apply BitVec.eq_of_toNat_eq
  have := cw.isLt
  simp only [BitVec.extractLsb'_toNat, toNat_append, Nat.shiftRight_eq_div_pow]
  omega

/-- Decoding by kind byte and payload (R90). -/
theorem decode_append (k : BitVec 8) (p wd : Word) :
    decode (k ++ p) wd =
      if k.extractLsb' 7 1 = 1#1 then .ok (.clsRsv8 ((k ++ p : BitVec 40).extractLsb' 0 39))
      else if k.extractLsb' 4 4 = 7#4 then .ok (.clsRsv7 ((k ++ p : BitVec 40).extractLsb' 0 36))
      else if k.extractLsb' 4 4 = 0#4 then
        match widthOf (k.extractLsb' 1 2) with
        | none => .ok (.busSz3 (k.extractLsb' 3 1) ((k ++ p : BitVec 40).extractLsb' 0 33))
        | some n =>
          if k.extractLsb' 0 1 = 0#1 then .ok (decodeBus (k.extractLsb' 3 1 = 1#1) n p wd) else .error .bit32
      else if k.extractLsb' 0 4 = 0#4 then decodePort (k.extractLsb' 4 4) p else .error .portBits := by
  simp only [decode, word_cls, word_top, word_rw, word_sz, word_bit32, word_low4, word_payload]
    <;> rfl

/-! ### An address -/

theorem address_class (c : BitVec 3) (a : BitVec 29) : (c ++ a : Word).extractLsb' 29 3 = c := by
  apply BitVec.eq_of_toNat_eq
  have := a.isLt
  have := c.isLt
  simp only [BitVec.extractLsb'_toNat, toNat_append, Nat.shiftRight_eq_div_pow]
  omega

theorem address_low (c : BitVec 3) (a : BitVec 29) : (c ++ a : Word).extractLsb' 0 29 = a := by
  apply BitVec.eq_of_toNat_eq
  have := a.isLt
  have := c.isLt
  simp only [BitVec.extractLsb'_toNat, toNat_append, Nat.shiftRight_eq_div_pow]
  omega

theorem address_split (p : Word) : p = p.extractLsb' 29 3 ++ p.extractLsb' 0 29 := by
  apply BitVec.eq_of_toNat_eq
  have := p.isLt
  simp only [BitVec.extractLsb'_toNat, toNat_append, Nat.shiftRight_eq_div_pow]
  omega

/-- An address of a reserved class is of class 100 or 101, by its bit 29. -/
theorem reserved_class (a : BitVec 30) : (0b10#2 ++ a : Word).extractLsb' 29 3 = 0b10#2 ++ a.extractLsb' 29 1 := by
  apply BitVec.eq_of_toNat_eq
  have := a.isLt
  simp only [BitVec.extractLsb'_toNat, toNat_append, Nat.shiftRight_eq_div_pow]
  simp only [BitVec.toNat_ofNat]
  omega

theorem reserved_low (a : BitVec 30) : (0b10#2 ++ a : Word).extractLsb' 0 30 = a := by
  apply BitVec.eq_of_toNat_eq
  have := a.isLt
  simp only [BitVec.extractLsb'_toNat, toNat_append, Nat.shiftRight_eq_div_pow]
  omega

theorem append_word (k : BitVec 8) (c : BitVec 3) (a : BitVec 29) : (k ++ c ++ a : BitVec 40) = k ++ (c ++ a : Word) := by
  apply BitVec.eq_of_toNat_eq
  simp only [toNat_append]
  omega

theorem append_reserved (k : BitVec 8) (c : BitVec 2) (a : BitVec 30) :
    (k ++ c ++ a : BitVec 40) = k ++ (c ++ a : Word) := by
  apply BitVec.eq_of_toNat_eq
  simp only [toNat_append]
  omega

end Sys2Proof
end

