-- ==== Sys2Proof/Laws/Forms.lean ====
section
/-! SUPPORT. What exec and decode are on a whole family of commands, by width or by channel, and the second spellings of
address fields, stored bytes and written registers. -/

namespace Sys2Proof.Machine

/-! ### One family, one shared meaning -/

theorem exec_crd (n : Width) (low : BitVec 29) (s : State) : exec (Instr.crd n low) s = cachedRead n low s := by
  cases n <;> rfl

theorem exec_cwr (n : Width) (low : BitVec 29) (wd : Word) (s : State) :
    exec (Instr.cwr n low wd) s = cachedWrite n low wd s := by
  cases n <;> rfl

theorem exec_urd (n : Width) (low : BitVec 29) (s : State) : exec (Instr.urd n low) s = uncachedRead n low s := by
  cases n <;> rfl

theorem exec_uwr (n : Width) (low : BitVec 29) (wd : Word) (s : State) :
    exec (Instr.uwr n low wd) s = uncachedWrite n low wd s := by
  cases n <;> rfl

theorem exec_purge (n : Width) (low : BitVec 29) (wd : Word) (s : State) :
    exec (Instr.purge n low wd) s = purgeWrite n low s := by
  cases n <;> rfl

theorem exec_prd (n : Width) (low : BitVec 29) (s : State) : exec (Instr.prd n low) s = purgeRead n low s := by
  cases n <;> rfl

theorem exec_dard (n : Width) (low : BitVec 29) (s : State) : exec (Instr.dard n low) s = dataArrayRead n low s := by
  cases n <;> rfl

theorem exec_dawr (n : Width) (low : BitVec 29) (wd : Word) (s : State) :
    exec (Instr.dawr n low wd) s = dataArrayWrite n low wd s := by
  cases n <;> rfl

theorem exec_rsvrd (n : Width) (low : BitVec 30) (s : State) :
    exec (Instr.rsvrd n low) s = reservedRead n (reservedAddress low) s := by
  cases n <;> rfl

theorem exec_rsvwr (n : Width) (low : BitVec 30) (wd : Word) (s : State) :
    exec (Instr.rsvwr n low wd) s = reservedWrite n (reservedAddress low) s := by
  cases n <;> rfl

theorem exec_regrsvRd (n : Width) (low : BitVec 29) (s : State) :
    exec (Instr.regrsvRd n low) s = reservedRead n (fullAddress 0b111#3 low) s := by
  cases n <;> rfl

theorem exec_regrsvWr (n : Width) (low : BitVec 29) (wd : Word) (s : State) :
    exec (Instr.regrsvWr n low wd) s = reservedWrite n (fullAddress 0b111#3 low) s := by
  cases n <;> rfl

theorem exec_rdChcr (n : ChannelId) (s : State) : exec (Instr.rdChcr n) s = readChcr n s := by
  cases n <;> rfl

theorem exec_wrChcr (n : ChannelId) (wd : Word) (s : State) : exec (Instr.wrChcr n wd) s = writeChcr n wd s := by
  cases n <;> rfl

/-! ### A BUS word decodes by its class -/

theorem decode_busWord (wr : Bool) (n : Width) (p wd : Word) : decode (busWord wr n p) wd = .ok (decodeBus wr n p wd) := by
  cases wr <;> cases n <;> exact decode_append _ p wd

/-! ### Address fields -/

theorem lineOf_fullAddress (c c' : BitVec 3) (low : BitVec 29) : lineOf (fullAddress c low) = lineOf (fullAddress c' low) := by
  refine congrArg BitVec.toFin (BitVec.eq_of_toNat_eq ?_)
  have := low.isLt
  simp only [fullAddress, BitVec.extractLsb'_toNat, toNat_append, Nat.shiftRight_eq_div_pow]
  omega

theorem tagOf_fullAddress (c c' : BitVec 3) (low : BitVec 29) : tagOf (fullAddress c low) = tagOf (fullAddress c' low) := by
  unfold tagOf
  apply BitVec.eq_of_toNat_eq
  have := low.isLt
  simp only [fullAddress, BitVec.extractLsb'_toNat, toNat_append, Nat.shiftRight_eq_div_pow]
  omega

/-- An aligned Data Array access does not wrap at the end of the array. -/
theorem daKey_of_aligned {n : Width} {a : Word} (h : aligned n a = true) {k : Nat} (hk : k < n.bytes) :
    daKey a k = (a.extractLsb' 0 12).toNat + k := by
  have ha : a.toNat % n.bytes = 0 := by
    cases n with
    | byte => simp [Width.bytes, Nat.mod_one]
    | word =>
      have := congrArg BitVec.toNat (beq_iff_eq.mp h)
      simpa [BitVec.extractLsb'_toNat, Width.bytes] using this
    | long =>
      have := congrArg BitVec.toNat (beq_iff_eq.mp h)
      simpa [BitVec.extractLsb'_toNat, Width.bytes] using this
  simp only [daKey, BitVec.extractLsb'_toNat, BitVec.toNat_add, BitVec.toNat_ofNat]
  cases n <;> simp only [Width.bytes] at ha hk <;> omega

/-! ### Second spellings -/

theorem extractLsb'_zero_eq_setWidth (w : Nat) (x : Word) : x.extractLsb' 0 w = x.setWidth w := by
  apply BitVec.eq_of_toNat_eq
  simp [BitVec.extractLsb'_toNat, BitVec.toNat_setWidth]

theorem beByte_eq (n : Width) (v : Word) (k : Nat) : beByte n v k = (v >>> (8 * (n.bytes - 1 - k))).setWidth 8 := by
  apply BitVec.eq_of_toNat_eq
  simp [beByte, BitVec.extractLsb'_toNat, BitVec.toNat_setWidth]

theorem chcrWritten_eq (c : Channel) (v : Word) :
    chcrWritten c v = (v.setWidth 16 &&& 0xFFFD#16)
      ||| (if (c.chcr.getLsbD 1 && (v.getLsbD 1 || c.tem)) = true then 0x0002#16 else 0x0000#16) := by
  simp only [chcrWritten, chcrTE, extractLsb'_zero_eq_setWidth]
  congr 1
  cases (c.chcr.getLsbD 1 && (v.getLsbD 1 || c.tem)) <;> rfl

/-- The Address Array word as R146 writes it. -/
theorem aaWord_eq (t : BitVec 19) (l : BitVec 6) (v : Bool) :
    aaWord t l v = (t.setWidth 32 <<< 10) ||| (l.setWidth 32 <<< 4) ||| ((BitVec.ofBool v).setWidth 32 <<< 2) := by
  apply BitVec.eq_of_toNat_eq
  have := t.isLt
  have := l.isLt
  have hv : (BitVec.ofBool v).toNat < 2 := (BitVec.ofBool v).isLt
  have h1 : (t.setWidth 32 <<< 10).toNat = t.toNat <<< 10 := by
    simp only [BitVec.toNat_shiftLeft, BitVec.toNat_setWidth, Nat.shiftLeft_eq]; omega
  have h2 : (l.setWidth 32 <<< 4).toNat = l.toNat <<< 4 := by
    simp only [BitVec.toNat_shiftLeft, BitVec.toNat_setWidth, Nat.shiftLeft_eq]; omega
  have h3 : ((BitVec.ofBool v).setWidth 32 <<< 2).toNat = (BitVec.ofBool v).toNat <<< 2 := by
    cases v <;> rfl
  have h4 : t.toNat <<< 10 + l.toNat <<< 4 = (t.toNat * 64 + l.toNat) <<< 4 := by simp only [Nat.shiftLeft_eq]; omega
  rw [BitVec.toNat_or, BitVec.toNat_or, h1, h2, h3,
    ← Nat.shiftLeft_add_eq_or_of_lt (b := l.toNat <<< 4) (by rw [Nat.shiftLeft_eq]; omega), h4,
    ← Nat.shiftLeft_add_eq_or_of_lt (by rw [Nat.shiftLeft_eq]; omega)]
  simp only [aaWord, toNat_append, Nat.shiftLeft_eq, BitVec.toNat_ofNat]
  omega

end Sys2Proof.Machine
end

