-- ==== Sys2Proof/Laws/Step.lean ====
section
/-! SUPPORT. Everything a command can do, said once: every command is a sequence of bus accesses, notifications and the
changes of an instance that BlockStep lists. A property that each of these keeps is kept by every command. -/

namespace Sys2Proof.Machine

/-- One change of an instance that is part of some command, an Address Array write apart. -/
inductive BlockStep (cap : Nat) (b : Block) : Block → Prop
  | touch (p : LruPair) (l : Fin 64) (w : Fin 4) : BlockStep cap b (b.touch p l w)
  | fillSlot (p : LruPair) (a : Word) (w : Fin 4) (h : b.lookup a = none) :
      BlockStep cap b ((b.setSlot (lineOf a) w ⟨true, tagOf a⟩).touch p (lineOf a) w)
  | purge (a : Word) : BlockStep cap b (b.purgeOne a)
  | invalidate : BlockStep cap b b.invalidateAll
  | data (key : Nat → Nat) (n : Width) (v : Word) (h : ∀ i, key i < 4096) :
      BlockStep cap b { b with data := b.data.writeBE key n v }
  | da (key : Nat → Nat) (n : Width) (v : Word) (h : ∀ i, key i < 4096) :
      BlockStep cap b { b with da := b.da.writeBE key n v }
  | clear : BlockStep cap b { b with data := [], da := [] }
  | chan (n : ChannelId) (c : Channel) (hc : c.chcr = (b.chan n).chcr)
      (ht : c.tem = true → (b.chan n).tem = true) : BlockStep cap b (b.setChan n c)
  | chcr (n : ChannelId) (v : Word) : BlockStep cap b (b.setChan n { b.chan n with chcr := chcrWritten (b.chan n) v })
  | completed (n : ChannelId) : BlockStep cap b (b.setChan n (b.chan n).completed)
  | raise (v : BitVec 8) (lv : Nat) (h : lv ≤ 16) : BlockStep cap b (b.raiseIrq cap v lv)
  | remove (e : Entry) : BlockStep cap b (b.removeEntry e)
  | dmaor (x : BitVec 4) : BlockStep cap b { b with dmaor := x }
  | ccr (v : Word) : BlockStep cap b { b with ccr := ccrWritten v }
  | ipra (v : Word) : BlockStep cap b { b with ipra := ipraWritten v }
  | resetRegisters : BlockStep cap b b.resetRegisters

/-- A property of states that every part of a command keeps. -/
structure Kept (P : State → Prop) : Prop where
  read    : ∀ s a n, P s → P (s.afterRead a n)
  write   : ∀ s a n v, P s → P (s.busWrite a n v)
  notify  : ∀ s a k, P s → P (s.notify a k)
  block   : ∀ s b, BlockStep s.params.irqCap s.blk b → P s → P (s.setBlk b)
  result  : ∀ s r, P s → P { s with result := r }
  powered : ∀ s, P s → P { s with
    masterOn := if s.cur = .master then true else s.masterOn
    slaveOn := if s.cur = .slave then true else s.slaveOn }

variable {P : State → Prop}

theorem Kept.copy (h : Kept P) {s : State} (a b : Word) (n : Width) (hs : P s) : P (s.copy a b n) :=
  h.write _ _ _ _ (h.read _ _ _ hs)

theorem Kept.moveUnit (h : Kept P) {s : State} (a b : Word) (ts : BitVec 2) (hs : P s) : P (s.moveUnit a b ts) := by
  unfold State.moveUnit
  split
  · exact h.copy _ _ _ hs
  · exact h.copy _ _ _ hs
  · exact h.copy _ _ _ hs
  · exact h.copy _ _ _ (h.copy _ _ _ (h.copy _ _ _ (h.copy _ _ _ hs)))

theorem Kept.unitTurn (h : Kept P) {s : State} (n : ChannelId) (hs : P s) : P (s.unitTurn n) := by
  have hb := State.moveUnit_chan s (s.chan n).sar (s.chan n).dar (chcrTS (s.chan n).chcr) n
  refine h.block _ _ (.chan n _ ?_ ?_) (h.moveUnit _ _ _ hs)
  · exact (congrArg Channel.chcr hb).symm
  · intro ht
    exact (congrArg Channel.tem hb).trans ht

theorem Kept.complete (h : Kept P) {s : State} (n : ChannelId) (hs : P s) :
    P (s.setBlk (s.blk.complete s.params.irqCap n)) := by
  have h1 := h.block s _ (.completed n) hs
  unfold Block.complete
  simp only
  split
  · have h2 := h.block _ _ (.raise (s.blk.chan n).vcrdma (ipraDMAIPL s.blk.ipra) ?_) h1
    · simpa using h2
    · have := (s.blk.ipra.extractLsb' 8 4).isLt
      simp only [ipraDMAIPL]
      omega
  · exact h1

theorem Kept.run (h : Kept P) {s : State} (n : ChannelId) (budget : Nat) (hs : P s) : P (s.run n budget) :=
  State.run_induct n budget s (fun hs => h.block _ _ (.chan n _ rfl fun ht => ht) hs) (fun _ _ => h.unitTurn n)
    (fun t a k => h.notify t a k) (fun _ _ => h.complete n) hs

theorem Kept.pass (h : Kept P) {s : State} (budget : Nat) (hs : P s) : P (s.pass budget) := by
  rcases s.pass_cases budget with ⟨e, -⟩ | ⟨-, -, -, e⟩ | ⟨-, -, -, e⟩ | ⟨-, -, -, -, e⟩ <;> rw [e]
  · exact hs
  · exact h.run _ _ hs
  · exact h.run _ _ hs
  · exact h.run _ _ (h.run _ _ hs)

theorem Kept.kick (h : Kept P) {s : State} (n : ChannelId) (hs : P s) : P (s.kick n) := by
  rcases s.kick_cases n with ⟨-, e⟩ | ⟨-, e⟩ <;> rw [e]
  · exact hs
  · exact h.pass _ hs

theorem Kept.fetchLong (h : Kept P) {s : State} (a : Word) (w : Fin 4) (i : Nat) (hs : P s) : P (s.fetchLong a w i) :=
  h.block _ _ (.data _ _ _ (dataKey_lt _ _ _)) (h.read _ _ _ hs)

theorem State.fetchLong_lookup (s : State) (a b : Word) (w : Fin 4) (i : Nat) :
    (s.fetchLong a w i).blk.lookup b = s.blk.lookup b := by
  simp [State.fetchLong, Block.lookup, Block.line]

theorem Kept.fill (h : Kept P) {s : State} (a : Word) (w : Fin 4) (hl : s.blk.lookup a = none) (hs : P s) :
    P (s.fill a w) := by
  refine h.notify _ _ _ (h.block _ _ (.fillSlot _ a w ?_)
    (h.fetchLong _ _ _ (h.fetchLong _ _ _ (h.fetchLong _ _ _ (h.fetchLong _ _ _ hs)))))
  rw [State.fetchLong_lookup, State.fetchLong_lookup, State.fetchLong_lookup, State.fetchLong_lookup]
  exact hl

theorem Kept.afterCacheRead (h : Kept P) {s : State} (a : Word) (hs : P s) : P (s.afterCacheRead a) := by
  unfold State.afterCacheRead
  split
  · exact h.block _ _ (.touch _ _ _) hs
  · exact h.fill a _ ‹_› hs

theorem Kept.busWriteNotify (h : Kept P) {s : State} (a : Word) (n : Width) (v : Word) (hs : P s) :
    P (s.busWriteNotify a n v) :=
  h.notify _ _ _ (h.write _ _ _ _ hs)

theorem Kept.cacheWrite (h : Kept P) {s : State} (a : Word) (n : Width) (v : Word) (hs : P s) : P (s.cacheWrite a n v) := by
  refine h.busWriteNotify _ _ _ ?_
  unfold Block.writeHit
  split
  · rename_i w _
    have h1 := h.block _ _ (.data (dataKey (lineOf a) w (offOf a)) n v (dataKey_lt _ _ _)) hs
    have h2 := h.block _ _ (.touch s.params.lru (lineOf a) w) h1
    simpa using h2
  · simpa using hs

theorem Kept.notifyWindows (h : Kept P) {s : State} (hs : P s) : P s.notifyWindows := by
  unfold State.notifyWindows
  generalize s.params.window = rs
  induction rs generalizing s with
  | nil => exact hs
  | cons r rs ih => exact ih (h.notify _ _ _ hs)

theorem Kept.invalidateAll (h : Kept P) {s : State} (hs : P s) : P s.invalidateAll :=
  h.notifyWindows (h.block _ _ .invalidate hs)

theorem Kept.resetBlock (h : Kept P) {s : State} (hs : P s) : P s.resetBlock :=
  h.invalidateAll (h.block _ _ .resetRegisters hs)

theorem Kept.powerOnBlock (h : Kept P) {s : State} (hs : P s) : P s.powerOnBlock := by
  have h1 := h.powered _ (h.resetBlock (h.block _ _ .clear hs))
  have e : s.powerOnBlock =
      { (s.setBlk { s.blk with data := [], da := [] }).resetBlock with
        masterOn := if (s.setBlk { s.blk with data := [], da := [] }).resetBlock.cur = .master then true
          else (s.setBlk { s.blk with data := [], da := [] }).resetBlock.masterOn
        slaveOn := if (s.setBlk { s.blk with data := [], da := [] }).resetBlock.cur = .slave then true
          else (s.setBlk { s.blk with data := [], da := [] }).resetBlock.slaveOn } := by
    simp [State.powerOnBlock, State.resetBlock, State.invalidateAll_eq]
  rw [e]
  exact h1

theorem Kept.ret (h : Kept P) {s t : State} {v : Word} (ht : s.ret v = .next t) (hs : P s) : P t := by
  rw [State.ret_next ht]
  exact h.result _ _ hs

theorem Kept.done (h : Kept P) {s t : State} (ht : s.done = .next t) (hs : P s) : P t := by
  rw [State.done_next ht]
  exact h.result _ _ hs

/-- A property that every part of a command keeps, and that an Address Array write keeps, is kept by every command. -/
theorem Kept.exec (h : Kept P) {i : Instr} {s t : State}
    (haa : ∀ low wd, i = .aawrL low wd → P s → P (s.setBlk (addressArrayWritten s.blk (fullAddress 0b011#3 low) wd)))
    (ht : exec i s = .next t) (hs : P s) : P t := by
  cases i
  case crdB =>
    rw [(cachedRead_next (n := .byte) ht).2]
    split
    · exact h.result _ _ (h.afterCacheRead _ hs)
    · exact h.result _ _ (h.read _ _ _ hs)
  case crdW =>
    rw [(cachedRead_next (n := .word) ht).2]
    split
    · exact h.result _ _ (h.afterCacheRead _ hs)
    · exact h.result _ _ (h.read _ _ _ hs)
  case crdL =>
    rw [(cachedRead_next (n := .long) ht).2]
    split
    · exact h.result _ _ (h.afterCacheRead _ hs)
    · exact h.result _ _ (h.read _ _ _ hs)
  case cwrB =>
    rw [(cachedWrite_next (n := .byte) ht).2]
    split
    · exact h.result _ _ (h.cacheWrite _ _ _ hs)
    · exact h.result _ _ (h.busWriteNotify _ _ _ hs)
  case cwrW =>
    rw [(cachedWrite_next (n := .word) ht).2]
    split
    · exact h.result _ _ (h.cacheWrite _ _ _ hs)
    · exact h.result _ _ (h.busWriteNotify _ _ _ hs)
  case cwrL =>
    rw [(cachedWrite_next (n := .long) ht).2]
    split
    · exact h.result _ _ (h.cacheWrite _ _ _ hs)
    · exact h.result _ _ (h.busWriteNotify _ _ _ hs)
  case urdB => rw [(uncachedRead_next (n := .byte) ht).2]; exact h.result _ _ (h.read _ _ _ hs)
  case urdW => rw [(uncachedRead_next (n := .word) ht).2]; exact h.result _ _ (h.read _ _ _ hs)
  case urdL => rw [(uncachedRead_next (n := .long) ht).2]; exact h.result _ _ (h.read _ _ _ hs)
  case uwrB => rw [(uncachedWrite_next (n := .byte) ht).2]; exact h.result _ _ (h.busWriteNotify _ _ _ hs)
  case uwrW => rw [(uncachedWrite_next (n := .word) ht).2]; exact h.result _ _ (h.busWriteNotify _ _ _ hs)
  case uwrL => rw [(uncachedWrite_next (n := .long) ht).2]; exact h.result _ _ (h.busWriteNotify _ _ _ hs)
  case purgeB => rw [(purgeWrite_next (n := .byte) ht).2]; exact h.result _ _ (h.block _ _ (.purge _) hs)
  case purgeW => rw [(purgeWrite_next (n := .word) ht).2]; exact h.result _ _ (h.block _ _ (.purge _) hs)
  case purgeL => rw [(purgeWrite_next (n := .long) ht).2]; exact h.result _ _ (h.block _ _ (.purge _) hs)
  case prdB => rw [(purgeRead_next (n := .byte) (low := ‹_›) ht).2]; exact h.result _ _ hs
  case prdW => rw [(purgeRead_next (n := .word) ht).2]; exact h.result _ _ hs
  case prdL => rw [(purgeRead_next (n := .long) ht).2]; exact h.result _ _ hs
  case aardB => rw [(addressArrayReserved_next (n := .byte) (low := ‹_›) ht).2]; exact h.result _ _ hs
  case aardW => rw [(addressArrayReserved_next (n := .word) ht).2]; exact h.result _ _ hs
  case aawrB => rw [(addressArrayDiscard_next (n := .byte) (low := ‹_›) ht).2]; exact h.result _ _ hs
  case aawrW => rw [(addressArrayDiscard_next (n := .word) ht).2]; exact h.result _ _ hs
  case aardL => exact h.ret (guardAligned_next ht).2 hs
  case aawrL low wd => exact h.done (guardAligned_next ht).2 (haa low wd rfl hs)
  case dardB => rw [(dataArrayRead_next (n := .byte) ht).2]; exact h.result _ _ hs
  case dardW => rw [(dataArrayRead_next (n := .word) ht).2]; exact h.result _ _ hs
  case dardL => rw [(dataArrayRead_next (n := .long) ht).2]; exact h.result _ _ hs
  case dawrB =>
    rw [(dataArrayWrite_next (n := .byte) ht).2]
    exact h.result _ _ (h.block _ _ (.da _ _ _ (daKey_lt _)) hs)
  case dawrW =>
    rw [(dataArrayWrite_next (n := .word) ht).2]
    exact h.result _ _ (h.block _ _ (.da _ _ _ (daKey_lt _)) hs)
  case dawrL =>
    rw [(dataArrayWrite_next (n := .long) ht).2]
    exact h.result _ _ (h.block _ _ (.da _ _ _ (daKey_lt _)) hs)
  case rsvrdB => rw [(reservedRead_next (n := .byte) (a := reservedAddress ‹_›) ht).2]; exact h.result _ _ hs
  case regrsvRdB => rw [(reservedRead_next (n := .byte) (a := fullAddress 0b111#3 ‹_›) ht).2]; exact h.result _ _ hs
  case rsvrdW | regrsvRdW => rw [(reservedRead_next (n := .word) ht).2]; exact h.result _ _ hs
  case rsvrdL | regrsvRdL => rw [(reservedRead_next (n := .long) ht).2]; exact h.result _ _ hs
  case rsvwrB => rw [(reservedWrite_next (n := .byte) (a := reservedAddress ‹_›) ht).2]; exact h.result _ _ hs
  case regrsvWrB => rw [(reservedWrite_next (n := .byte) (a := fullAddress 0b111#3 ‹_›) ht).2]; exact h.result _ _ hs
  case rsvwrW | regrsvWrW => rw [(reservedWrite_next (n := .word) ht).2]; exact h.result _ _ hs
  case rsvwrL | regrsvWrL => rw [(reservedWrite_next (n := .long) ht).2]; exact h.result _ _ hs
  case rdSar0 | rdDar0 | rdTcr0 | rdSar1 | rdDar1 | rdTcr1 | rdVcrdma0 | rdVcrdma1 | rdDmaor | rdCcr | rdIpra =>
    exact h.ret ht hs
  case wrSar0 | wrDar0 | wrTcr0 | wrSar1 | wrDar1 | wrTcr1 | wrVcrdma0 | wrVcrdma1 =>
    exact h.done ht (h.block _ _ (.chan _ _ rfl fun e => e) hs)
  case rdChcr0 | rdChcr1 => exact h.ret ht (h.block _ _ (.chan _ _ rfl fun e => nomatch e) hs)
  case wrChcr0 | wrChcr1 => exact h.done ht (h.kick _ (h.block _ _ (.chcr _ _) hs))
  case wrDmaor | latchNmif | latchAe => exact h.done ht (h.block _ _ (.dmaor _) hs)
  case wrCcr v =>
    have h1 := h.block _ _ (.ccr v) hs
    simp only [Sys2Proof.Machine.exec, execWrCcr] at ht
    split at ht
    · exact h.done ht (h.invalidateAll h1)
    · exact h.done ht h1
  case wrIpra v => exact h.done ht (h.block _ _ (.ipra v) hs)
  case execPass c => exact h.done ht (h.pass _ hs)
  case irq v lv =>
    refine h.done ht (h.block _ _ (.raise v lv.toNat ?_) hs)
    have := lv.isLt
    omega
  case irqNmi v => exact h.done ht (h.block _ _ (.raise v 16 (Nat.le_refl 16)) hs)
  case iack m =>
    simp only [Sys2Proof.Machine.exec, execIack] at ht
    split at ht
    · exact h.ret ht hs
    · exact h.ret ht (h.block _ _ (.remove _) hs)
  case reset => exact h.done ht (h.resetBlock hs)
  case poweron => exact h.done ht (h.powerOnBlock hs)
  case busSz3 | clsRsv7 | clsRsv8 => cases ht

/-- All a step can do: nothing, a write of another master, or exec of the decoded command. -/
theorem step_cases {s t : State} (h : step s = .next t) :
    (s.inputs = [] ∧ t = s)
    ∨ (∃ a n v rest, s.inputs = .busMaster a n v :: rest ∧ t = s.otherMaster rest a n v)
    ∨ ∃ ctx cw wd rest i, s.inputs = .command ctx cw wd :: rest ∧ decode cw wd = .ok i
        ∧ (s.take ctx rest).accepts i = true ∧ exec i (s.take ctx rest) = .next t := by
  unfold step at h
  split at h
  · exact .inl ⟨‹_›, by simpa using h.symm⟩
  · exact .inr (.inl ⟨_, _, _, _, ‹_›, by simpa using h.symm⟩)
  · split at h
    · cases h
    · split at h
      · exact .inr (.inr ⟨_, _, _, _, _, ‹_›, ‹_›, ‹_›, h⟩)
      · cases h

end Sys2Proof.Machine
end

