-- ==== Sys2Proof/Tests/Slice0.lean ====
section
/-! SUPPORT. Tests and witnesses. Expected values come from spec/95_test_vectors.md (the vector is named at each test)
or, where no vector is named, from the cited rule by hand. A witness shows values that meet all the hypotheses of one
clause of a statement. -/

namespace Sys2Proof.Tests

open Sys2Proof.Machine

/-! ### Well-formed and ill-formed terms -/

/-- CCR's address is no byte row of REGRSV, and at another width it is one. -/
theorem test_wellFormed_regrsvRdB :
    (Instr.regrsvRdB 0x1FFFFE92#29).wellFormed = false ∧ (Instr.regrsvRdB 0x1FFFFE10#29).wellFormed = true := by decide

theorem test_wellFormed_regrsvRdW :
    (Instr.regrsvRdW 0x1FFFFEE2#29).wellFormed = false ∧ (Instr.regrsvRdW 0x1FFFFF80#29).wellFormed = true := by decide

theorem test_wellFormed_regrsvRdL :
    (Instr.regrsvRdL 0x1FFFFF8C#29).wellFormed = false ∧ (Instr.regrsvRdL 0x1FFFFFA4#29).wellFormed = true := by decide

theorem test_wellFormed_regrsvWrB :
    (Instr.regrsvWrB 0x1FFFFE92#29 1#32).wellFormed = false ∧ (Instr.regrsvWrB 0x1FFFFFB0#29 1#32).wellFormed = true := by
  decide

theorem test_wellFormed_regrsvWrW :
    (Instr.regrsvWrW 0x1FFFFEE2#29 1#32).wellFormed = false ∧ (Instr.regrsvWrW 0x1FFFFE92#29 1#32).wellFormed = true := by
  decide

theorem test_wellFormed_regrsvWrL :
    (Instr.regrsvWrL 0x1FFFFFB0#29 1#32).wellFormed = false ∧ (Instr.regrsvWrL 0x1FFFFFAC#29 1#32).wellFormed = true := by
  decide

/-! ### Decoding and encoding: command words written out from R90 to R98, most of them the table of 2.1 -/

/-- The word and the write data decode to the command, and the command encodes to them. -/
def means (cw : BitVec 40) (wd : Word) (i : Instr) : Bool :=
  (match decode cw wd with
    | .ok j => j == i
    | .error _ => false)
  && encode i == (cw, wd)

theorem test_words_cached :
    means 0x0016000010#40 0#32 (.crdB 0x16000010#29) ∧ means 0x0206000016#40 0#32 (.crdW 0x06000016#29)
      ∧ means 0x0406000010#40 0#32 (.crdL 0x06000010#29) ∧ means 0x0806000010#40 0xAA#32 (.cwrB 0x06000010#29 0xAA#32)
      ∧ means 0x0A06000012#40 0xBEEF#32 (.cwrW 0x06000012#29 0xBEEF#32)
      ∧ means 0x0C06000410#40 0xCAFEF00D#32 (.cwrL 0x06000410#29 0xCAFEF00D#32) := by decide

theorem test_words_uncached :
    means 0x0026000013#40 0#32 (.urdB 0x06000013#29) ∧ means 0x0226000012#40 0#32 (.urdW 0x06000012#29)
      ∧ means 0x0426000010#40 0#32 (.urdL 0x06000010#29) ∧ means 0x0826000010#40 0x99#32 (.uwrB 0x06000010#29 0x99#32)
      ∧ means 0x0A26000012#40 0x1234#32 (.uwrW 0x06000012#29 0x1234#32)
      ∧ means 0x0C26000010#40 0xDEADBEEF#32 (.uwrL 0x06000010#29 0xDEADBEEF#32) := by decide

theorem test_words_purge :
    means 0x0046000010#40 0#32 (.prdB 0x06000010#29) ∧ means 0x0246000010#40 0#32 (.prdW 0x06000010#29)
      ∧ means 0x0446000100#40 0#32 (.prdL 0x06000100#29) ∧ means 0x0846000013#40 7#32 (.purgeB 0x06000013#29 7#32)
      ∧ means 0x0A46000410#40 7#32 (.purgeW 0x06000410#29 7#32) ∧ means 0x0C46000100#40 7#32 (.purgeL 0x06000100#29 7#32) := by
  decide

theorem test_words_addressArray :
    means 0x0460000010#40 0#32 (.aardL 0x10#29) ∧ means 0x0C60000020#40 0x0600013C#32 (.aawrL 0x20#29 0x0600013C#32)
      ∧ means 0x0060000020#40 0#32 (.aardB 0x20#29) ∧ means 0x0260000010#40 0#32 (.aardW 0x10#29)
      ∧ means 0x0860000021#40 1#32 (.aawrB 0x21#29 1#32) ∧ means 0x0A60000020#40 0xFFFF#32 (.aawrW 0x20#29 0xFFFF#32) := by
  decide

theorem test_words_dataArray :
    means 0x00C0000FFD#40 0#32 (.dardB 0xFFD#29) ∧ means 0x02C0000FFE#40 0#32 (.dardW 0xFFE#29)
      ∧ means 0x04DFFFFFFC#40 0#32 (.dardL 0x1FFFFFFC#29) ∧ means 0x08C0000000#40 0x7F#32 (.dawrB 0#29 0x7F#32)
      ∧ means 0x0AC0001002#40 0xA1B2#32 (.dawrW 0x1002#29 0xA1B2#32)
      ∧ means 0x0CC0000FFC#40 0x3456789A#32 (.dawrL 0xFFC#29 0x3456789A#32) := by decide

theorem test_words_reserved :
    means 0x0080000000#40 0#32 (.rsvrdB 0#30) ∧ means 0x02A0000000#40 0#32 (.rsvrdW 0x20000000#30)
      ∧ means 0x04BFFFFFFC#40 0#32 (.rsvrdL 0x3FFFFFFC#30) ∧ means 0x0880000003#40 1#32 (.rsvwrB 3#30 1#32)
      ∧ means 0x0AA0000002#40 1#32 (.rsvwrW 0x20000002#30 1#32)
      ∧ means 0x0CBFFFFFFC#40 1#32 (.rsvwrL 0x3FFFFFFC#30 1#32) := by decide

theorem test_words_channel0 :
    means 0x04FFFFFF80#40 0#32 .rdSar0 ∧ means 0x0CFFFFFF80#40 1#32 (.wrSar0 1#32)
      ∧ means 0x04FFFFFF84#40 0#32 .rdDar0 ∧ means 0x0CFFFFFF84#40 2#32 (.wrDar0 2#32)
      ∧ means 0x04FFFFFF88#40 0#32 .rdTcr0 ∧ means 0x0CFFFFFF88#40 3#32 (.wrTcr0 3#32)
      ∧ means 0x04FFFFFF8C#40 0#32 .rdChcr0 ∧ means 0x0CFFFFFF8C#40 4#32 (.wrChcr0 4#32)
      ∧ means 0x04FFFFFFA0#40 0#32 .rdVcrdma0 ∧ means 0x0CFFFFFFA0#40 5#32 (.wrVcrdma0 5#32) := by decide

theorem test_words_channel1 :
    means 0x04FFFFFF90#40 0#32 .rdSar1 ∧ means 0x0CFFFFFF90#40 1#32 (.wrSar1 1#32)
      ∧ means 0x04FFFFFF94#40 0#32 .rdDar1 ∧ means 0x0CFFFFFF94#40 2#32 (.wrDar1 2#32)
      ∧ means 0x04FFFFFF98#40 0#32 .rdTcr1 ∧ means 0x0CFFFFFF98#40 3#32 (.wrTcr1 3#32)
      ∧ means 0x04FFFFFF9C#40 0#32 .rdChcr1 ∧ means 0x0CFFFFFF9C#40 4#32 (.wrChcr1 4#32)
      ∧ means 0x04FFFFFFA8#40 0#32 .rdVcrdma1 ∧ means 0x0CFFFFFFA8#40 5#32 (.wrVcrdma1 5#32) := by decide

theorem test_words_sharedRegisters :
    means 0x04FFFFFFB0#40 0#32 .rdDmaor ∧ means 0x0CFFFFFFB0#40 9#32 (.wrDmaor 9#32)
      ∧ means 0x00FFFFFE92#40 0#32 .rdCcr ∧ means 0x08FFFFFE92#40 1#32 (.wrCcr 1#32)
      ∧ means 0x02FFFFFEE2#40 0#32 .rdIpra ∧ means 0x0AFFFFFEE2#40 0x500#32 (.wrIpra 0x500#32) := by decide

theorem test_words_regrsv :
    means 0x00FFFFFE10#40 0#32 (.regrsvRdB 0x1FFFFE10#29) ∧ means 0x02FFFFFF8C#40 0#32 (.regrsvRdW 0x1FFFFF8C#29)
      ∧ means 0x04E0000000#40 0#32 (.regrsvRdL 0#29) ∧ means 0x08FFFFFFB0#40 1#32 (.regrsvWrB 0x1FFFFFB0#29 1#32)
      ∧ means 0x0AFFFFFE92#40 0x101#32 (.regrsvWrW 0x1FFFFE92#29 0x101#32)
      ∧ means 0x0CFFFFFFA4#40 1#32 (.regrsvWrL 0x1FFFFFA4#29 1#32) := by decide

theorem test_words_ports :
    means 0x10FFFFFFFF#40 0#32 (.execPass 0xFFFFFFFF#32) ∧ means 0x2000000760#40 0#32 (.irq 0x60#8 7#4)
      ∧ means 0x200000100B#40 0#32 (.irqNmi 0x0B#8) ∧ means 0x300000000F#40 0#32 (.iack 15#4)
      ∧ means 0x4000000000#40 0#32 .reset ∧ means 0x5000000000#40 0#32 .poweron
      ∧ means 0x6000000000#40 0#32 .latchNmif ∧ means 0x6000000001#40 0#32 .latchAe := by decide

theorem test_words_undecodableRows :
    means 0x0600000000#40 0#32 (.busSz3 0#1 0#33) ∧ means 0x0E06000010#40 0#32 (.busSz3 1#1 0x06000010#33)
      ∧ means 0x7000000000#40 0#32 (.clsRsv7 0#36) ∧ means 0x8000000000#40 0#32 (.clsRsv8 0#39)
      ∧ means 0xF000000000#40 0#32 (.clsRsv8 0x7000000000#39) := by decide

/-- The words of 2.1 that no row matches, and one for each payload rule of R98. -/
theorem test_words_none :
    [0x0506000010#40, 0x1100000000#40, 0x1800000007#40, 0x2000001100#40, 0x2000001F00#40, 0x2000002000#40,
      0x3000000010#40, 0x4000000001#40, 0x5000000001#40, 0x6000000002#40].all
      (fun cw => (decode cw 0#32).toOption == none) := by decide

/-- The table word: CW in bits 39..0, the write data above, and what lies above the row's bits is 0. -/
theorem test_decodeTableWord :
    decodeTableWord 72 0xBEEF0A06000012 = some (.cwrW 0x06000012#29 0xBEEF#32)
      ∧ decodeTableWord 40 0xBEEF0A06000012 = some (.cwrW 0x06000012#29 0#32)
      ∧ decodeTableWord 40 0x2000001100 = none := by decide

/-! ### Small states -/

/-- The parameters of section 0 of the vectors, with the constant cost `c`. -/
def costs (c : Nat) : Params :=
  { window := defaultWindow, kickBudget := 0, tcrStep16 := .one, irqCap := 50, tie := .earliest, regions := [],
    eatCosts := Vector.replicate 9 (Vector.replicate 9 c), lru := documentedLru }

/-- The state after POWERON (section 0). -/
def quiet : State :=
  { State.reset with params := costs 1 }

/-- That state with the master's instance changed. -/
def withBlock (f : Block → Block) : State :=
  { quiet with master := f Block.powerOn }

/-- A store of longs. -/
def longs : List (Nat × Word) → Memory
  | [] => []
  | (a, v) :: xs => (longs xs).writeBE (fun i => a + i) .long v

/-- A field of the state after a command; none if the command does not complete. -/
def after {α : Type} (i : Instr) (s : State) (f : State → α) : Option α :=
  match exec i s with
  | .next t => some (f t)
  | _ => none

/-- A command that ends in a state with `P`. -/
theorem answers {i : Instr} {s : State} (P : State → Prop) [DecidablePred P]
    (h : after i s (fun t => decide (P t)) = some true) : ∃ t, exec i s = .next t ∧ P t := by
  unfold after at h
  split at h
  · next t ht => exact ⟨t, ht, by simpa using h⟩
  · cases h

/-- V-CACHE-1: the bus. -/
def cacheBus : Memory :=
  longs [(0x6000010, 0x11223344#32), (0x6000014, 0x15263748#32), (0x6000018, 0x192A3B4C#32), (0x600001C, 0x1D2E3F50#32)]

/-- V-CACHE-1 after step 1: cache on, nothing cached. -/
def cacheOn : State :=
  { withBlock (fun b => { b with ccr := 0x01#8 }) with bus := cacheBus }

/-- V-CACHE-1 after step 2: line 1 holds tag 0x18000 in way 3; `ccr` may be changed. -/
def line1 (ccr : BitVec 8) : State :=
  { withBlock (fun b =>
      { b with
        ccr := ccr
        lines := b.lines.set 1 { lru := 0x0B#6, slots := (Vector.replicate 4 ⟨false, 0⟩).set 3 ⟨true, 0x18000#19⟩ }
        data := longs [(112, 0x11223344#32), (116, 0x15263748#32), (120, 0x192A3B4C#32), (124, 0x1D2E3F50#32)] }) with
    bus := cacheBus }

/-- A channel set up as in V-DMA-1. -/
def channel (sar dar : Word) (tcr : BitVec 24) (chcr : BitVec 16) : Channel :=
  { sar := sar, dar := dar, tcr := tcr, chcr := chcr, tem := false, vcrdma := 0x48#8, clk := 0 }

/-- V-DMA-1: both channels, and some longs on the bus. -/
def twoChannels (dmaor : BitVec 4) : State :=
  { withBlock (fun b =>
      { b with
        dmaor := dmaor
        ch0 := channel 0x06001000#32 0x06002000#32 8#24 0x5801#16
        ch1 := channel 0x06003000#32 0x06004000#32 8#24 0x5809#16 }) with
    bus := longs [(0x6001000, 0x10000000#32), (0x6001004, 0x10000001#32), (0x6003000, 0x30000000#32)] }

/-- Channel 0 alone with a given count and CHCR, and the engine on. -/
def oneChannel (tcr : BitVec 24) (chcr : BitVec 16) (ccr : BitVec 8) (p : Params) : State :=
  { withBlock (fun b =>
      { b with
        dmaor := 1#4, ipra := 0x0500#16, ccr := ccr
        ch0 := channel 0x06001000#32 0x06002000#32 tcr chcr }) with
    params := p
    bus := longs [(0x6001000, 0x10000000#32), (0x6001004, 0x10000001#32), (0x6001008, 0x10000002#32)] }

/-- V-IRQ-1 after step 3. -/
def threeRequests : State :=
  withBlock (fun b => { b with q := [⟨0x40#8, 5, 0⟩, ⟨0x41#8, 9, 1⟩, ⟨0x42#8, 9, 2⟩], seq := 3 })

/-! ### The cached area (V-CACHE-1, V-CACHE-2) -/

/-- Step 2. -/
theorem test_crdL_miss : after (.crdL 0x06000010#29) cacheOn
    (fun t => (t.result, (t.blk.line 1).lru, (t.blk.line 1).slots[3], t.blk.data)) =
    some (some 0x11223344#32, 0x0B#6, ⟨true, 0x18000#19⟩, (line1 1#8).blk.data) := by decide

/-- With another pair (R9) the same miss fills the way that pair picks, and stores the LRU value it gives. -/
theorem test_crdL_otherLru : after (.crdL 0x06000010#29)
    { cacheOn with params := { cacheOn.params with lru := LruPair.ofFunctions (fun _ _ => 0x2A#6) (fun _ _ => 1) } }
    (fun t => ((t.blk.line 1).lru, (t.blk.line 1).slots[1], (t.blk.line 1).slots[3].v)) =
    some (0x2A#6, ⟨true, 0x18000#19⟩, false) := by decide

/-- Step 2: the events. -/
theorem test_crdL_miss_events : after (.crdL 0x06000010#29) cacheOn (fun t => t.trace) = some
    [.busRead .master 0x6000010#28 .long 0x11223344#32, .busRead .master 0x6000014#28 .long 0x15263748#32,
     .busRead .master 0x6000018#28 .long 0x192A3B4C#32, .busRead .master 0x600001C#28 .long 0x1D2E3F50#32,
     .notify .master 0x06000010#32 16] := by decide

/-- Step 3. -/
theorem test_crdB_hit : after (.crdB 0x0600001B#29) (line1 1#8) (fun t => (t.result, t.trace)) =
    some (some 0x4C#32, []) := by decide

/-- Step 4. -/
theorem test_crdW_hit : after (.crdW 0x06000016#29) (line1 1#8) (fun t => (t.result, t.trace)) =
    some (some 0x3748#32, []) := by decide

/-- V-CACHE-2 step 4: a page outside WINDOW. -/
theorem test_crdW_notShadowed : after (.crdW 0x05C00040#29) (line1 1#8) (fun t => t.trace) =
    some [.busRead .master 0x5C00040#28 .word 0#32] := by decide

/-- Step 5. -/
theorem test_cwrB_hit : after (.cwrB 0x06000010#29 0xAA#32) (line1 1#8)
    (fun t => (t.blk.data.read 112, t.bus.read 0x6000010, t.trace)) =
    some (0xAA#8, 0xAA#8, [.busWrite .master 0x6000010#28 .byte 0xAA#32, .notify .master 0x06000010#32 1]) := by
  decide

/-- Step 6. -/
theorem test_cwrW_hit : after (.cwrW 0x06000012#29 0xBEEF#32) (line1 1#8)
    (fun t => (t.blk.data.read 114, t.blk.data.read 115, t.bus.read 0x6000012, t.bus.read 0x6000013)) =
    some (0xBE#8, 0xEF#8, 0xBE#8, 0xEF#8) := by decide

/-- Step 11. -/
theorem test_cwrL_miss : after (.cwrL 0x06000410#29 0xCAFEF00D#32) (line1 1#8)
    (fun t => (t.blk == (line1 1#8).blk, t.bus.read 0x6000410, t.trace)) =
    some (true, 0xCA#8,
      [.busWrite .master 0x6000410#28 .long 0xCAFEF00D#32, .notify .master 0x06000410#32 4]) := by decide

/-! ### The uncached mirror (V-CACHE-1 steps 8 to 16) -/

theorem test_urdB : after (.urdB 0x06000013#29) (line1 1#8) (fun t => (t.result, t.blk == (line1 1#8).blk)) =
    some (some 0x44#32, true) := by decide

theorem test_urdW : after (.urdW 0x06000012#29) (line1 1#8) (fun t => (t.result, t.trace)) =
    some (some 0x3344#32, [.busRead .master 0x6000012#28 .word 0x3344#32]) := by decide

/-- V-UNMAPPED step 5. -/
theorem test_urdL_unmapped :
    after (.urdL 0x01000000#29) { quiet with pages := [⟨⟨0x100, 0x100⟩, .unmapped⟩] } (fun t => t.result) =
    some (some 0xFFFFFFFF#32) := by decide

/-- Step 12. -/
theorem test_uwrB : after (.uwrB 0x06000010#29 0x99#32) (line1 1#8)
    (fun t => (t.blk == (line1 1#8).blk, t.bus.read 0x6000010, t.trace)) =
    some (true, 0x99#8, [.busWrite .master 0x6000010#28 .byte 0x99#32, .notify .master 0x26000010#32 1]) := by
  decide

/-- Step 15. -/
theorem test_uwrW : after (.uwrW 0x06000012#29 0x1234#32) (line1 1#8)
    (fun t => (t.bus.read 0x6000012, t.bus.read 0x6000013, t.bus.read 0x6000014)) =
    some (0x12#8, 0x34#8, 0x15#8) := by decide

/-- Step 16, and a handler page, which stores nothing (R12). -/
theorem test_uwrL : after (.uwrL 0x06000010#29 0xDEADBEEF#32) (line1 1#8) (fun t => t.bus.read 0x6000013) = some 0xEF#8
    ∧ after (.uwrL 0x01000000#29 1#32) { quiet with pages := [⟨⟨0x100, 0x100⟩, .handler⟩] } (fun t => t.bus) = some [] := by
  decide

/-! ### The purge area -/

/-- V-CACHE-1 step 21. -/
theorem test_purgeB : after (.purgeB 0x06000013#29 7#32) (line1 1#8) (fun t => (t.blk.line 1, t.trace)) =
    some (Line.invalid, []) := by decide

/-- V-CACHE-1 step 24: no way holds the tag. -/
theorem test_purgeW : after (.purgeW 0x06000410#29 7#32) (line1 1#8) (fun t => t.blk == (line1 1#8).blk) = some true := by
  decide

/-- V-AA-1 step 13: of two ways with the tag the lower one is purged. -/
theorem test_purgeL : after (.purgeL 0x06000020#29 7#32)
    (withBlock (fun b => b.setLine 2 ⟨0#6, #v[⟨true, 0x18000⟩, ⟨true, 0x7FFFF⟩, ⟨true, 0x18000⟩, ⟨false, 0⟩]⟩))
    (fun t => (t.blk.line 2).slots) =
    some #v[⟨false, 0⟩, ⟨true, 0x7FFFF⟩, ⟨true, 0x18000⟩, ⟨false, 0⟩] := by decide

/-- V-CACHE-1 step 25. -/
theorem test_prd : after (.prdB 0x06000010#29) (line1 1#8) (fun t => (t.result, t.blk == (line1 1#8).blk)) = some (some 0#32, true)
    ∧ after (.prdW 0x06000010#29) (line1 1#8) (fun t => t.result) = some (some 0xFFFF#32)
    ∧ after (.prdL 0x06000010#29) (line1 1#8) (fun t => t.result) = some (some 0xFFFFFFFF#32) := by decide

/-! ### The Address Array and the Data Array (V-CACHE-1, V-AA-1, V-DA) -/

/-- V-CACHE-1 steps 18 and 20. -/
theorem test_aardL : after (.aardL 0x10#29) (line1 0x01#8) (fun t => t.result) = some (some 0x000000B0#32)
    ∧ after (.aardL 0x1FFFFC1C#29) (line1 0xC1#8) (fun t => t.result) = some (some 0x060000B4#32) := by decide

/-- V-AA-1 step 2. -/
theorem test_aawrL : after (.aawrL 0x20#29 0x0600013C#32) (withBlock (fun b => { b with ccr := 0x80#8 }))
    (fun t => ((t.blk.line 2).lru, (t.blk.line 2).slots)) =
    some (0x13#6, #v[⟨false, 0⟩, ⟨false, 0⟩, ⟨true, 0x18000⟩, ⟨false, 0⟩]) := by decide

/-- V-AA-1 steps 14 to 16. -/
theorem test_aa_reservedWidths : after (.aardB 0x20#29) quiet (fun t => t.result) = some (some 0#32)
    ∧ after (.aardW 0x20#29) quiet (fun t => t.result) = some (some 0xFFFF#32)
    ∧ after (.aawrB 0x21#29 0xFF#32) quiet (fun t => t.blk == quiet.blk) = some true
    ∧ after (.aawrW 0x20#29 0xFFFF#32) quiet (fun t => t.blk == quiet.blk) = some true := by decide

/-- V-DA after step 1: the four last bytes. -/
def dataArray : State :=
  withBlock (fun b => { b with da := [(4092, 0x34#8), (4093, 0x56#8), (4094, 0x78#8), (4095, 0x9A#8)] })

/-- V-DA steps 2, 3, 5. -/
theorem test_dard : after (.dardB 0xFFD#29) dataArray (fun t => t.result) = some (some 0x56#32)
    ∧ after (.dardW 0xFFE#29) dataArray (fun t => t.result) = some (some 0x789A#32)
    ∧ after (.dardL 0x1FFFFFFC#29) dataArray (fun t => t.result) = some (some 0x3456789A#32) := by decide

/-- V-DA steps 1, 6, 8. -/
theorem test_dawr : after (.dawrL 0xFFC#29 0x3456789A#32) quiet (fun t => t.blk.da) = some dataArray.blk.da
    ∧ after (.dawrW 0x1002#29 0xA1B2#32) quiet (fun t => t.blk.da) = some [(2, 0xA1#8), (3, 0xB2#8)]
    ∧ after (.dawrB 0#29 0x7F#32) quiet (fun t => t.blk.da) = some [(0, 0x7F#8)] := by decide

/-! ### Reserved space (V-RSV) and undecodable rows (R102) -/

theorem test_rsvrd : after (.rsvrdB 0#30) quiet (fun t => t.result) = some (some 0#32)
    ∧ after (.rsvrdW 0x20000000#30) quiet (fun t => t.result) = some (some 0xFFFF#32)
    ∧ after (.rsvrdL 0x3FFFFFFC#30) quiet (fun t => t.result) = some (some 0xFFFFFFFF#32) := by decide

theorem test_rsvwr : after (.rsvwrB 1#30 1#32) quiet (fun t => t == quiet) = some true
    ∧ after (.rsvwrW 2#30 1#32) quiet (fun t => t == quiet) = some true
    ∧ after (.rsvwrL 0#30 1#32) quiet (fun t => t == quiet) = some true := by decide

theorem test_regrsvRd : after (.regrsvRdB 0x1FFFFE10#29) quiet (fun t => t.result) = some (some 0#32)
    ∧ after (.regrsvRdW 0x1FFFFF80#29) quiet (fun t => t.result) = some (some 0xFFFF#32)
    ∧ after (.regrsvRdL 0x1FFFFFA4#29) quiet (fun t => t.result) = some (some 0xFFFFFFFF#32) := by decide

theorem test_regrsvWr : after (.regrsvWrB 0x1FFFFFB0#29 9#32) quiet (fun t => t == quiet) = some true
    ∧ after (.regrsvWrW 0x1FFFFE92#29 0x101#32) quiet (fun t => t == quiet) = some true
    ∧ after (.regrsvWrL 0x1FFFFFA4#29 1#32) quiet (fun t => t == quiet) = some true := by decide

theorem test_undecodable : after (.busSz3 1#1 0#33) quiet (fun t => t.cur) = none
    ∧ after (.clsRsv7 0#36) quiet (fun t => t.cur) = none ∧ after (.clsRsv8 0#39) quiet (fun t => t.cur) = none := by
  decide

/-- R65: a misaligned command is refused. -/
theorem test_misaligned : after (.crdW 0x06000011#29) (line1 1#8) (fun t => t.cur) = none
    ∧ after (.dawrL 2#29 1#32) quiet (fun t => t.cur) = none := by decide

/-! ### Registers (V-REG-1, V-REG-2, V-REG-3, V-TE-1, V-KICK-1) -/

/-- V-REG-1: what stays of the data, channel 0. -/
theorem test_write_channel0 : after (.wrSar0 0xFFFFFFFF#32) quiet (fun t => t.blk.ch0.sar) = some 0xFFFFFFFF#32
    ∧ after (.wrDar0 0x05C00000#32) quiet (fun t => t.blk.ch0.dar) = some 0x05C00000#32
    ∧ after (.wrTcr0 0xFFFFFFFF#32) quiet (fun t => t.blk.ch0.tcr) = some 0xFFFFFF#24
    ∧ after (.wrVcrdma0 0xFFFFFFFF#32) quiet (fun t => t.blk.ch0.vcrdma) = some 0xFF#8
    ∧ after (.wrChcr0 0xFFFFFFFE#32) quiet (fun t => t.blk.ch0.chcr) = some 0xFFFC#16 := by decide

/-- V-REG-1: channel 1. -/
theorem test_write_channel1 : after (.wrSar1 0x00200000#32) quiet (fun t => t.blk.ch1.sar) = some 0x00200000#32
    ∧ after (.wrDar1 0x25C00000#32) quiet (fun t => t.blk.ch1.dar) = some 0x25C00000#32
    ∧ after (.wrTcr1 0x01000000#32) quiet (fun t => t.blk.ch1.tcr) = some 0#24
    ∧ after (.wrVcrdma1 0x1234#32) quiet (fun t => t.blk.ch1.vcrdma) = some 0x34#8
    ∧ after (.wrChcr1 0x12345678#32) quiet (fun t => t.blk.ch1.chcr) = some 0x5678#16 := by decide

/-- The reads of channel 0 in the state V-DMA-1 sets up. -/
theorem test_read_channel0 : after .rdSar0 (twoChannels 1#4) (fun t => t.result) = some (some 0x06001000#32)
    ∧ after .rdDar0 (twoChannels 1#4) (fun t => t.result) = some (some 0x06002000#32)
    ∧ after .rdTcr0 (twoChannels 1#4) (fun t => t.result) = some (some 8#32)
    ∧ after .rdVcrdma0 (twoChannels 1#4) (fun t => t.result) = some (some 0x48#32)
    ∧ after .rdChcr0 (twoChannels 1#4) (fun t => t.result) = some (some 0x5801#32) := by decide

/-- The reads of channel 1. -/
theorem test_read_channel1 : after .rdSar1 (twoChannels 1#4) (fun t => t.result) = some (some 0x06003000#32)
    ∧ after .rdDar1 (twoChannels 1#4) (fun t => t.result) = some (some 0x06004000#32)
    ∧ after .rdTcr1 (twoChannels 1#4) (fun t => t.result) = some (some 8#32)
    ∧ after .rdVcrdma1 (twoChannels 1#4) (fun t => t.result) = some (some 0x48#32)
    ∧ after .rdChcr1 (twoChannels 1#4) (fun t => t.result) = some (some 0x5809#32) := by decide

/-- V-REG-1 (IPRA) and V-REG-2 step 5. -/
theorem test_ipra_dmaor : after (.wrIpra 0xFFFF#32) quiet (fun t => t.blk.ipra) = some 0xFFF0#16
    ∧ after .rdIpra (oneChannel 1#24 0x5801#16 0#8 (costs 1)) (fun t => t.result) = some (some 0x0500#32)
    ∧ after (.wrDmaor 0xB#32) (twoChannels 0xF#4) (fun t => t.blk.dmaor) = some 0xB#4
    ∧ after .rdDmaor (twoChannels 0xD#4) (fun t => t.result) = some (some 0xD#32) := by decide

/-- V-REG-2 step 6: a written 1 does not set AE. -/
theorem test_dmaor_clear_only : after (.wrDmaor 0x6#32) (twoChannels 0xB#4) (fun t => t.blk.dmaor) = some 0x2#4 := by
  decide

/-- V-REG-3 step 1. -/
theorem test_wrCcr_purge : after (.wrCcr 0xFF#32) (line1 1#8) (fun t => (t.blk.ccr, t.blk.line 1, t.trace)) =
    some (0xCF#8, Line.invalid,
      [.notify .master 0x00200000#32 0x100000, .notify .master 0x06000000#32 0x2000000]) := by decide

/-- V-REG-3 step 4, and the read. -/
theorem test_wrCcr_on : after (.wrCcr 0x01#32) quiet (fun t => (t.blk.ccr, t.trace)) = some (0x01#8, [])
    ∧ after .rdCcr (line1 0xC1#8) (fun t => t.result) = some (some 0xC1#32) := by decide

/-- V-TE-1 after its setup: the transfer is done and CHCR has not been read. -/
def done0 (tem : Bool) : State :=
  withBlock (fun b => { b with
    dmaor := 1#4, ch0 := { channel 0x06001004#32 0x06002004#32 0#24 0x5807#16 with tem := tem } })

/-- V-TE-1 steps 1 and 2. -/
theorem test_te_protocol : after (.wrChcr0 0x5804#32) (done0 true) (fun t => (t.blk.ch0.chcr, t.blk.ch0.tem)) =
      some (0x5806#16, true)
    ∧ after .rdChcr0 (done0 true) (fun t => (t.result, t.blk.ch0.chcr, t.blk.ch0.tem)) =
      some (some 0x5807#32, 0x5807#16, false)
    ∧ after (.wrChcr0 0x5804#32) (done0 false) (fun t => (t.blk.ch0.chcr, t.blk.ch0.tem)) = some (0x5804#16, false) := by
  decide

/-- V-KICK-1. -/
theorem test_kick : after (.wrChcr0 0x5801#32) (oneChannel 2#24 0x5800#16 0#8 { costs 1 with kickBudget := 8 })
    (fun t => (t.blk.ch0.sar, t.blk.ch0.dar, t.blk.ch0.tcr, t.blk.ch0.chcr, t.blk.ch0.clk)) =
    some (0x06001008#32, 0x06002008#32, 0#24, 0x5803#16, 0) := by decide

/-! ### The DMA engine -/

/-- V-DMA-1: `EXEC 2`. -/
theorem test_exec_roundRobin : after (.execPass 2#32) (twoChannels 9#4)
    (fun t => (t.blk.ch0.tcr, t.blk.ch0.sar, t.blk.ch1.tcr, t.blk.ch1.dar, t.trace.filter Event.isNotify)) =
    some (4#24, 0x06001010#32, 6#24, 0x06004008#32,
      [.notify .master 0x06002000#32 16, .notify .master 0x06004000#32 8]) := by decide

/-- V-DMA-5 with b = 11 and b = 12. -/
theorem test_exec_budget : after (.execPass 11#32) (oneChannel 4#24 0x5805#16 0#8 (costs 3))
      (fun t => (t.blk.ch0.tcr, t.blk.ch0.clk, t.blk.ch0.chcr, t.blk.q)) = some (1#24, 2, 0x5805#16, [])
    ∧ after (.execPass 12#32) (oneChannel 4#24 0x5805#16 0#8 (costs 3))
      (fun t => (t.blk.ch0.tcr, t.blk.ch0.clk, t.blk.ch0.chcr, t.blk.q)) = some (0#24, 0, 0x5807#16, [⟨0x48#8, 5, 0⟩]) := by
  decide

/-- V-REG-2 steps 2 and 4. -/
theorem test_latches : after .latchAe (twoChannels 9#4) (fun t => t.blk.dmaor) = some 0xD#4
    ∧ after .latchNmif (twoChannels 0xD#4) (fun t => t.blk.dmaor) = some 0xF#4 := by decide

/-! ### The interrupt encoder (V-IRQ-1, V-IRQ-2, V-IRQ-3) -/

theorem test_irq : after (.irq 0x43#8 1#4) threeRequests (fun t => (t.blk.q.getLast?, t.blk.seq)) = some (some ⟨0x43#8, 1, 3⟩, 4)
    ∧ after (.irq 0x40#8 9#4) threeRequests (fun t => t.blk == threeRequests.blk) = some true := by decide

theorem test_irqNmi : after (.irqNmi 0x0B#8) quiet (fun t => t.blk.q) = some [⟨0x0B#8, 16, 0⟩] := by decide

theorem test_iack : after (.iack 8#4) threeRequests (fun t => (t.result, t.blk.q)) =
      some (some 0x80000941#32, [⟨0x40#8, 5, 0⟩, ⟨0x42#8, 9, 2⟩])
    ∧ after (.iack 9#4) threeRequests (fun t => (t.result, t.blk == threeRequests.blk)) = some (some 0#32, true) := by
  decide

/-! ### Reset (V-RESET) -/

theorem test_reset : after .reset (line1 0xC1#8) (fun t => (t.blk.ccr, t.blk.line 1, t.blk.data, t.trace)) =
    some (0#8, Line.invalid, (line1 0#8).blk.data,
      [.notify .master 0x00200000#32 0x100000, .notify .master 0x06000000#32 0x2000000]) := by decide

theorem test_poweron : after .poweron { dataArray with masterOn := false } (fun t => (t.blk == Block.powerOn, t.masterOn)) =
    some (true, true) := by decide

/-! ### One step -/

/-- What a step answers, by its result port. -/
def stepResult (s : State) : Option (Option Word) :=
  match step s with
  | .next t => some t.result
  | _ => none

/-- The word `RD.B CCR` placed by withFetchWord runs in the next step; in the slave's instance before its POWERON it
would be refused. -/
theorem test_withFetchWord : stepResult ((line1 0xC1#8).withFetchWord 40 0x00FFFFFE92) = some (some 0xC1#32)
    ∧ stepResult { quiet with slaveOn := false, inputs := [.command .slave 0x00FFFFFE92#40 0#32] } = none
    ∧ stepResult { quiet with inputs := [.command .slave 0x00FFFFFE92#40 0#32] } = some (some 0#32) := by decide

/-- The default WINDOW and parameters are as R5 and R8 ask. -/
theorem test_paramsWf : paramsWf defaultParams = true ∧ paramsWf (costs 1) = true := by decide

/-! ### Witnesses: encoding and the step -/

theorem witness_DecodeOfEncode : (Instr.regrsvRdB 0x1FFFFE93#29).wellFormed = true := by decide

theorem witness_EncodeOfDecode : decode 0x0C60000020#40 0x0600013C#32 = .ok (.aawrL 0x20#29 0x0600013C#32) := by rfl

theorem witness_HeaviestRowDecodes_chosen : decode 0x04FFFFFF8C#40 0#32 = .ok .rdChcr0
    ∧ (Instr.regrsvRdL 0x1FFFFF8C#29).row.hits 0x04FFFFFF8C#40 = true
    ∧ (Instr.regrsvRdL 0x1FFFFF8C#29).row ≠ Instr.rdChcr0.row := ⟨rfl, by decide, by decide⟩

theorem witness_HeaviestRowDecodes_none : decode 0x2000001100#40 0#32 = .error .level := by rfl

theorem witness_HeaviestRowDecodes_overlap : Instr.rdCcr.row.hits 0x00FFFFFE92#40 = true
    ∧ (Instr.regrsvRdB 0#29).row.hits 0x00FFFFFE92#40 = true ∧ Instr.rdCcr.row ≠ (Instr.regrsvRdB 0#29).row := by decide

/-- Levels 15, 16 and 17, and the other clauses at their boundaries. -/
theorem witness_UndecodableWords : decode 0x2000000F00#40 0#32 = .ok (.irq 0#8 15#4)
    ∧ decode 0x2000001000#40 0#32 = .ok (.irqNmi 0#8) ∧ decode 0x2000001100#40 0#32 = .error .level
    ∧ decode 0x2000002000#40 0#32 = .error .payload ∧ decode 0x0100000000#40 0#32 = .error .bit32
    ∧ decode 0x0700000000#40 0#32 = .ok (.busSz3 0#1 0x100000000#33) ∧ decode 0x1100000000#40 0#32 = .error .portBits
    ∧ decode 0x3000000010#40 0#32 = .error .payload ∧ decode 0x4000000001#40 0#32 = .error .payload
    ∧ decode 0x5000000001#40 0#32 = .error .payload ∧ decode 0x6000000002#40 0#32 = .error .payload :=
  ⟨rfl, rfl, rfl, rfl, rfl, rfl, rfl, rfl, rfl, rfl, rfl⟩

/-- One pending command. -/
def pending (ctx : ContextId) (cw : BitVec 40) (wd : Word) : State :=
  { quiet with slaveOn := false, inputs := [.command ctx cw wd] }

theorem witness_StepRunsDecodedCommand : (pending .master 0x4000000000#40 0#32).inputs = [.command .master 0x4000000000#40 0#32]
    ∧ decode 0x4000000000#40 0#32 = .ok .reset ∧ (pending .master 0x4000000000#40 0#32).masterOn = true :=
  ⟨rfl, rfl, rfl⟩

theorem witness_StepRunsDecodedCommand_poweron :
    (pending .slave 0x5000000000#40 0#32).inputs = [.command .slave 0x5000000000#40 0#32]
    ∧ decode 0x5000000000#40 0#32 = .ok .poweron ∧ (pending .slave 0x5000000000#40 0#32).slaveOn = false :=
  ⟨rfl, rfl, rfl⟩

theorem witness_StepRefusals_noRow : (pending .master 0x0100000000#40 0#32).inputs = [.command .master 0x0100000000#40 0#32]
    ∧ decode 0x0100000000#40 0#32 = .error .bit32 := ⟨rfl, rfl⟩

theorem witness_StepRefusals_notPoweredOn :
    (pending .slave 0x4000000000#40 0#32).inputs = [.command .slave 0x4000000000#40 0#32]
    ∧ decode 0x4000000000#40 0#32 = .ok .reset ∧ Instr.reset ≠ .poweron
    ∧ (pending .slave 0x4000000000#40 0#32).slaveOn = false := ⟨rfl, rfl, by decide, rfl⟩

theorem witness_IdleAndOtherMasters : quiet.inputs = []
    ∧ State.inputs { quiet with inputs := [.busMaster 0xFFFFFFFF#32 .long 1#32] } = [.busMaster 0xFFFFFFFF#32 .long 1#32] :=
  ⟨rfl, rfl⟩

theorem witness_MisalignedRefused : busAccess (.crdW 0x06000011#29) = some (.word, 0x06000011#32)
    ∧ aligned .word 0x06000011#32 = false ∧ busAccess (.dawrL 2#29 1#32) = some (.long, 0xC0000002#32)
    ∧ aligned .long 0xC0000002#32 = false ∧ busAccess (.regrsvRdW 0x1FFFFE93#29) = some (.word, 0xFFFFFE93#32)
    ∧ aligned .word 0xFFFFFE93#32 = false := by decide

theorem witness_AdmittedCommandsComplete : admitted (.crdL 0x1FFFFFFC#29) = true ∧ admitted (.rsvwrB 3#30 1#32) = true
    ∧ admitted (.execPass 0xFFFFFFFF#32) = true ∧ admitted .poweron = true := by decide

/-! ### Witnesses: the cache -/

/-- Every alignment premise, at the last address of each width. -/
theorem witness_aligned : aligned .byte (fullAddress 0b000#3 0x1FFFFFFF#29) = true
    ∧ aligned .word (fullAddress 0b001#3 0x1FFFFFFE#29) = true ∧ aligned .long (fullAddress 0b010#3 0x1FFFFFFC#29) = true
    ∧ aligned .long (fullAddress 0b011#3 0x1FFFFFFC#29) = true ∧ aligned .word (fullAddress 0b110#3 0x1FFFFFFE#29) = true
    ∧ aligned .long (fullAddress 0b111#3 0x1FFFFFFC#29) = true ∧ aligned .long (0b10#2 ++ 0x3FFFFFFC#30) = true := by decide

/-- A hit of CRD and of CWR. -/
theorem witness_CachedReads_hit : aligned .word (fullAddress 0b000#3 0x0600001E#29) = true
    ∧ Cacheable (line1 1#8) (fullAddress 0b000#3 0x0600001E#29)
    ∧ HitsAt (line1 1#8).blk (fullAddress 0b000#3 0x0600001E#29) 3 :=
  ⟨by decide, (State.cacheable_iff _ _).mp (by decide), (Block.lookup_eq_some_iff _ _ _).mp (by decide)⟩

/-- A miss on a way of another tag, at the last byte of the line. -/
theorem witness_CachedReads_miss : aligned .byte (fullAddress 0b000#3 0x0600041F#29) = true
    ∧ Cacheable (line1 1#8) (fullAddress 0b000#3 0x0600041F#29)
    ∧ Misses (line1 1#8).blk (fullAddress 0b000#3 0x0600041F#29) ∧ (line1 1#8).blk.data.wf = true :=
  ⟨by decide, (State.cacheable_iff _ _).mp (by decide), (Block.lookup_eq_none_iff _ _).mp (by decide), by decide⟩

/-- Not cacheable: with the cache off, and outside WINDOW. -/
theorem witness_CachedReads_notCacheable : aligned .long (fullAddress 0b000#3 0x06000010#29) = true
    ∧ ¬ Cacheable (line1 0#8) (fullAddress 0b000#3 0x06000010#29)
    ∧ ¬ Cacheable (line1 1#8) (fullAddress 0b000#3 0x00300000#29) :=
  ⟨by decide, (Bool.eq_false_of_not_iff (State.cacheable_iff _ _)).mp (by decide),
    (Bool.eq_false_of_not_iff (State.cacheable_iff _ _)).mp (by decide)⟩

theorem witness_CachedWrites : aligned .byte (fullAddress 0b000#3 0x06000010#29) = true
    ∧ Cacheable (line1 1#8) (fullAddress 0b000#3 0x06000010#29) ∧ HitsAt (line1 1#8).blk (fullAddress 0b000#3 0x06000010#29) 3
    ∧ Misses (line1 1#8).blk (fullAddress 0b000#3 0x06000410#29)
    ∧ ¬ Cacheable (line1 0#8) (fullAddress 0b000#3 0x06000010#29) :=
  ⟨by decide, (State.cacheable_iff _ _).mp (by decide), (Block.lookup_eq_some_iff _ _ _).mp (by decide),
    (Block.lookup_eq_none_iff _ _).mp (by decide), (Bool.eq_false_of_not_iff (State.cacheable_iff _ _)).mp (by decide)⟩

theorem witness_WrittenBytes :
    (∃ low, Instr.cwrW 0x0600FFFE#29 0xBEEF#32 = Instr.cwr .word low 0xBEEF#32
      ∧ (0x0600FFFE#32 : Word) = fullAddress 0b000#3 low)
    ∧ (line1 1#8).bus.wf = true
    ∧ (∃ t, exec (.cwrW 0x0600FFFE#29 0xBEEF#32) (line1 1#8) = .next t ∧ t.cur = .master)
    ∧ OnRam (line1 1#8) 0x0600FFFE#32 ∧ ¬ OnRam { quiet with pages := [⟨⟨0x600, 0x600⟩, .unmapped⟩] } 0x0600FFFE#32 :=
  ⟨⟨0x0600FFFE#29, rfl, by decide⟩, by decide, answers (fun t => t.cur = .master) (by decide), by unfold OnRam; decide,
    by unfold OnRam; decide⟩

theorem witness_WriteThrough : (line1 1#8).bus.wf = true ∧ OnRam (line1 1#8) (fullAddress 0b000#3 0x06000010#29)
    ∧ ∃ t, exec (Instr.cwr .long 0x06000010#29 5#32) (line1 1#8) = .next t
      ∧ after (Instr.urd .long 0x06000010#29) { t with cur := .slave } (fun u => u.cur) = some .slave :=
  ⟨by decide, by unfold OnRam; decide,
    answers (fun t => after (Instr.urd .long 0x06000010#29) { t with cur := .slave } (fun u => u.cur) = some .slave)
      (by decide)⟩

/-- The check behind Coherent. -/
def coherentCheck (s : State) : Bool :=
  (List.finRange 64).all fun l => (List.finRange 4).all fun w =>
    !(s.blk.line l).slots[w].v ||
      (let base : BitVec 28 := (s.blk.line l).slots[w].tag.extractLsb' 0 18 ++ BitVec.ofNat 6 l.val ++ 0#4
       let page := (base.extractLsb' 16 12).toNat
       !(s.blk.line l).slots[w].tag.getLsbD 18 && s.blk.ccr.getLsbD 0 && inWindow s.params page
         && pageKindIn s.pages page == .ram
         && (List.range 16).all fun b => s.blk.data.read (dataKey l w 0 b) == s.bus.read (base.toNat + b))

theorem coherent_of_check {s : State} (h : coherentCheck s = true) : Coherent s := by
  intro l w hv
  simp only [coherentCheck, List.all_eq_true] at h
  have := h l (List.mem_finRange l) w (List.mem_finRange w)
  simp only [hv, Bool.not_true, Bool.false_or, Bool.and_eq_true, Bool.not_eq_true', beq_iff_eq, List.all_eq_true,
    List.mem_range] at this
  exact ⟨this.1.1.1.1, this.1.1.1.2, (inWindow_iff _ _).mp this.1.1.2, this.1.2, fun b hb => this.2 b hb⟩

theorem tagsUnique_of_check {b : Block}
    (h : ∀ (l : Fin 64) (w w' : Fin 4), (b.line l).slots[w].v = true → (b.line l).slots[w'].v = true →
      (b.line l).slots[w].tag = (b.line l).slots[w'].tag → w = w') : b.tagsUnique := by
  intro l w w' t hw hw'
  simp only [Line.holds, Bool.and_eq_true, beq_iff_eq] at hw hw'
  exact h l w w' hw.1 hw'.1 (hw.2.trans hw'.2.symm)

/-- A cached line that agrees with the bus. -/
theorem witness_CachedReadIsTransparent : Coherent (line1 1#8) ∧ (line1 1#8).blk.data.wf = true
    ∧ (0x0600001C#29).getLsbD 28 = false ∧ OnRam (line1 1#8) (fullAddress 0b000#3 0x0600001C#29)
    ∧ (∃ t, exec (Instr.crd .long 0x0600001C#29) (line1 1#8) = .next t ∧ t.cur = .master)
    ∧ ∃ u, exec (Instr.urd .long 0x0600001C#29) (line1 1#8) = .next u ∧ u.cur = .master :=
  ⟨coherent_of_check (by decide), by decide, by decide, by unfold OnRam; decide,
    answers (fun t => t.cur = .master) (by decide), answers (fun t => t.cur = .master) (by decide)⟩

theorem witness_CoherenceKept : (line1 1#8).memoryWf ∧ (line1 1#8).blk.tagsUnique
    ∧ (∀ page, pageKindIn (line1 1#8).pages page = .ram) ∧ Coherent (line1 1#8)
    ∧ ∃ t, exec (Instr.cwr .word 0x0600001C#29 7#32) (line1 1#8) = .next t ∧ t.cur = .master :=
  ⟨by unfold State.memoryWf Block.memoryWf; decide, tagsUnique_of_check (by decide), fun _ => rfl,
    coherent_of_check (by decide), answers (fun t => t.cur = .master) (by decide)⟩

theorem witness_Purges : HitsAt (line1 1#8).blk (fullAddress 0b010#3 0x06000013#29) 3
    ∧ Misses (line1 1#8).blk (fullAddress 0b010#3 0x06000410#29) :=
  ⟨(Block.lookup_eq_some_iff _ _ _).mp (by decide), (Block.lookup_eq_none_iff _ _).mp (by decide)⟩

theorem witness_PurgedLineMisses : (line1 1#8).blk.tagsUnique
    ∧ ∃ t, exec (Instr.purge .long 0x06000010#29 0#32) (line1 1#8) = .next t ∧ t.cur = .master :=
  ⟨tagsUnique_of_check (by decide), answers (fun t => t.cur = .master) (by decide)⟩

theorem witness_AddressArrayReadsBack : (0x20#29).extractLsb' 4 6 = (0x1FFFFC2C#29).extractLsb' 4 6
    ∧ ∃ t, exec (.aawrL 0x20#29 0xFFFFFFFF#32) quiet = .next t
      ∧ after (.aardL 0x1FFFFC2C#29) t (fun u => u.cur) = some .master :=
  ⟨by decide, answers (fun t => after (.aardL 0x1FFFFC2C#29) t (fun u => u.cur) = some .master) (by decide)⟩

theorem witness_DataArrayCommands : dataArray.blk.da.wf = true := by decide

theorem witness_LruFunctionsKeepTheOrder : [3, 0, 2, 1].Perm [(0 : Fin 4), 1, 2, 3] := by decide

/-- V-LRU-2: 0x36 meets none of the four tests. -/
theorem witness_LruFunctionsTotal : 0x36#6 &&& 0x38#6 ≠ 0x38#6 ∧ 0x36#6 &&& 0x26#6 ≠ 0x06#6
    ∧ 0x36#6 &&& 0x15#6 ≠ 0x01#6 ∧ 0x36#6 &&& 0x0B#6 ≠ 0x00#6 := by decide

/-- Rows of V-LRU-1 and V-LRU-2. -/
theorem test_lru : lruTouch 0x1E#6 3 = 0x1F#6 ∧ lruTouch 0x3B#6 2 = 0x3E#6 ∧ lruTouch 0x3F#6 0 = 0x07#6
    ∧ lruTouch 0x2B#6 1 = 0x29#6 ∧ lruVictim 0x1F#6 false = 1 ∧ lruVictim 0x2B#6 false = 2 ∧ lruVictim 0x16#6 true = 3
    ∧ lruVictim 0x0E#6 false = 1 ∧ lruVictim 0x3D#6 false = 0 := by decide

/-! ### Witnesses: registers -/

theorem witness_RegisterReads : (line1 0xCF#8).blk.FlagsWf :=
  ⟨by decide, by decide, fun n => by cases n <;> decide⟩

theorem witness_CcrWrite : ¬ ((0xEF#32).getLsbD 4 = true ∨ ((line1 1#8).blk.ccr.getLsbD 0 = true ∧ (0xEF#32).getLsbD 0 = false))
    ∧ (0x10#32).getLsbD 4 = true ∧ ((line1 1#8).blk.ccr.getLsbD 0 = true ∧ (0xCE#32).getLsbD 0 = false) := by decide

/-- A write that kicks, and one that does not. -/
theorem witness_ChcrWrites :
    let s := oneChannel 2#24 0x5800#16 0#8 (costs 1)
    let s' (wd : Word) : State := s.setChan .ch0
      { s.chan .ch0 with
        chcr := (wd.setWidth 16 &&& 0xFFFD#16)
          ||| (if ((s.chan .ch0).chcr.getLsbD 1 && (wd.getLsbD 1 || (s.chan .ch0).tem)) = true then 0x0002#16 else 0x0000#16) }
    (EngineOn (s' 0x5801#32).blk ∧ Requesting ((s' 0x5801#32).chan .ch0))
      ∧ ¬ (EngineOn (s' 0x5800#32).blk ∧ Requesting ((s' 0x5800#32).chan .ch0)) :=
  ⟨⟨(engineOn_iff _).mp (by decide), (requesting_iff _).mp (by decide)⟩,
    fun h => (Bool.eq_false_of_not_iff (requesting_iff _)).mp (by decide) h.2⟩

theorem witness_TransferEndProtocol_kept : ((done0 true).chan .ch0).tem = true
    ∧ ((done0 true).chan .ch0).chcr.getLsbD 1 = true
    ∧ ∃ t, exec (Instr.wrChcr .ch0 0x5805#32) (done0 true) = .next t ∧ t.cur = .master :=
  ⟨rfl, by decide, answers (fun t => t.cur = .master) (by decide)⟩

theorem witness_TransferEndProtocol_cleared : (0x5804#32).getLsbD 1 = false ∧ (0x5804#32).getLsbD 0 = false
    ∧ ∃ t, exec (Instr.rdChcr .ch0) (done0 true) = .next t
      ∧ after (Instr.wrChcr .ch0 0x5804#32) t (fun u => u.cur) = some .master :=
  ⟨by decide, by decide, answers (fun t => after (Instr.wrChcr .ch0 0x5804#32) t (fun u => u.cur) = some .master) (by decide)⟩

theorem witness_TransferEndProtocol_notSet : (quiet.chan .ch1).chcr.getLsbD 1 = false ∧ (0xFFFE#32).getLsbD 0 = false
    ∧ ∃ t, exec (Instr.wrChcr .ch1 0xFFFE#32) quiet = .next t ∧ t.cur = .master :=
  ⟨by decide, by decide, answers (fun t => t.cur = .master) (by decide)⟩

/-! ### Witnesses: the DMA engine -/

/-- Both channels request; `n` alone requests when the other is set as after reset. -/
theorem witness_PassArbitration_both : EngineOn (twoChannels 9#4).blk ∧ Requesting ((twoChannels 9#4).chan .ch0)
    ∧ Requesting ((twoChannels 9#4).chan .ch1) ∧ (twoChannels 9#4).blk.dmaor.getLsbD 3 = true
    ∧ (twoChannels 1#4).blk.dmaor.getLsbD 3 = false ∧ EngineOn (twoChannels 1#4).blk :=
  ⟨(engineOn_iff _).mp (by decide), (requesting_iff _).mp (by decide), (requesting_iff _).mp (by decide), by decide,
    by decide, (engineOn_iff _).mp (by decide)⟩

/-- Channel 1 alone: channel 0 is done. -/
def channel1 : State :=
  withBlock (fun b => { b with
    dmaor := 9#4, ch0 := channel 0x06001000#32 0x06002000#32 0#24 0x5803#16
    ch1 := channel 0x06003000#32 0x06004000#32 2#24 0x5805#16 })

theorem witness_PassArbitration_one : EngineOn channel1.blk ∧ ¬ Requesting (channel1.chan .ch0)
    ∧ Requesting (channel1.chan .ch1) ∧ ¬ EngineOn (twoChannels 0xB#4).blk ∧ ¬ EngineOn (twoChannels 0xD#4).blk
    ∧ ¬ EngineOn (twoChannels 8#4).blk :=
  ⟨(engineOn_iff _).mp (by decide), (Bool.eq_false_of_not_iff (requesting_iff _)).mp (by decide),
    (requesting_iff _).mp (by decide), (Bool.eq_false_of_not_iff (engineOn_iff _)).mp (by decide),
    (Bool.eq_false_of_not_iff (engineOn_iff _)).mp (by decide), (Bool.eq_false_of_not_iff (engineOn_iff _)).mp (by decide)⟩

theorem witness_UnitTransfer : (0xA401#16).extractLsb' 12 2 ≠ 3#2 ∧ (0xA401#16).extractLsb' 14 2 ≠ 3#2
    ∧ ((oneChannel 2#24 0xA401#16 0#8 (costs 1)).chan .ch0).chcr = 0xA401#16 := by decide

theorem not_ch0 (k : ChannelId) (h : k ≠ .ch0) : k = .ch1 := by
  cases k
  · exact absurd rfl h
  · rfl

theorem not_ch1 (k : ChannelId) (h : k ≠ .ch1) : k = .ch0 := by
  cases k
  · rfl
  · exact absurd rfl h

/-- The one channel of a state requests alone. -/
theorem lone_of_check {s : State} {n m : ChannelId} (hm : ∀ k, k ≠ n → k = m) (he : engineOn s.blk = true)
    (hn : requesting (s.chan n) = true) (ho : requesting (s.chan m) = false) : LoneChannel s n :=
  ⟨(engineOn_iff _).mp he, (requesting_iff _).mp hn, fun k hk => by
    rw [hm k hk]; exact (Bool.eq_false_of_not_iff (requesting_iff _)).mp ho⟩

/-- V-DMA-5: N = 4, C = 3; budgets 12 (completes) and 11 (does not). -/
theorem witness_LoneChannelTransfer :
    let s := oneChannel 4#24 0x5805#16 0#8 (costs 3)
    LoneChannel s .ch0 ∧ (s.chan .ch0).clk = 0 ∧ 0 < (s.chan .ch0).tcr.toNat ∧ (∀ x y, eat s.params x y = 3)
      ∧ (s.chan .ch0).chcr.extractLsb' 10 2 ≠ 3#2 ∧ (s.chan .ch0).tcr.toNat * 3 ≤ (12#32).toNat
      ∧ (11#32).toNat < (s.chan .ch0).tcr.toNat * 3 ∧ (s.chan .ch0).chcr.getLsbD 2 = true :=
  ⟨lone_of_check not_ch0 (by decide) (by decide) (by decide), rfl, by decide, fun _ _ => rfl, by decide,
    by decide, by decide, by decide⟩

/-- The same for 16-byte units, on channel 1, with the count that falls by 1. -/
theorem witness_LoneChannelTransfer_16 :
    let s := State.setChan channel1 .ch1 (channel 0x06003000#32 0x06004000#32 2#24 0x9C01#16)
    LoneChannel s .ch1 ∧ (s.chan .ch1).clk = 0 ∧ 0 < (s.chan .ch1).tcr.toNat ∧ (∀ x y, eat s.params x y = 1)
      ∧ (s.chan .ch1).chcr.extractLsb' 10 2 = 3#2 ∧ s.params.tcrStep16 = .one :=
  ⟨lone_of_check not_ch1 (by decide) (by decide) (by decide), rfl, by decide, fun _ _ => rfl, by decide, rfl⟩

/-- The premises of CompletedTransferCopies, with the numbers computed. -/
theorem witness_CompletedTransferCopies :
    let s := oneChannel 3#24 0x5801#16 0#8 (costs 1)
    LoneChannel s .ch0 ∧ (s.chan .ch0).chcr.extractLsb' 12 2 = 1#2 ∧ (s.chan .ch0).chcr.extractLsb' 14 2 = 1#2
      ∧ (∀ x y, eat s.params x y = 1) ∧ ((s.chan .ch0).tcr.toNat + 1 - 1) / 1 * 1 ≤ (3#32).toNat
      ∧ (∀ page, pageKindIn s.pages page = .ram) ∧ s.bus.wf = true
      ∧ (busAddress (s.chan .ch0).sar).toNat + 12 ≤ (busAddress (s.chan .ch0).dar).toNat
      ∧ (busAddress (s.chan .ch0).dar).toNat + 12 ≤ 2 ^ 28
      ∧ ∃ t, exec (.execPass 3#32) s = .next t ∧ t.cur = .master :=
  ⟨lone_of_check not_ch0 (by decide) (by decide) (by decide), by decide, by decide, fun _ _ => rfl,
    by decide, fun _ => rfl, by decide, by decide, by decide, answers (fun t => t.cur = .master) (by decide)⟩

/-- 16-byte units whose count falls by 4: TCR = 6 is two units (V-DMA-3 b). -/
theorem witness_CompletedTransferCopies_16 :
    let s := oneChannel 6#24 0x5C01#16 0#8 { costs 1 with tcrStep16 := .four }
    LoneChannel s .ch0 ∧ (s.chan .ch0).chcr.extractLsb' 10 2 = 3#2 ∧ s.params.tcrStep16 = .four
      ∧ (∀ x y, eat s.params x y = 1) ∧ ((s.chan .ch0).tcr.toNat + 4 - 1) / 4 * 1 ≤ (2#32).toNat
      ∧ ∃ t, exec (.execPass 2#32) s = .next t ∧ (t.chan .ch0).tcr = 0#24 :=
  ⟨lone_of_check not_ch0 (by decide) (by decide) (by decide), by decide, rfl, fun _ _ => rfl, by decide,
    answers (fun t => (t.chan .ch0).tcr = 0#24) (by decide)⟩

theorem witness_ClockBelowNextCost : GetsTurn (oneChannel 4#24 0x5805#16 0#8 (costs 3)) .ch0
    ∧ ∃ t, exec (.execPass 11#32) (oneChannel 4#24 0x5805#16 0#8 (costs 3)) = .next t
      ∧ (t.chan .ch0).chcr.getLsbD 1 = false :=
  ⟨⟨(engineOn_iff _).mp (by decide), (requesting_iff _).mp (by decide), fun h => nomatch h⟩,
    answers (fun t => (t.chan .ch0).chcr.getLsbD 1 = false) (by decide)⟩

/-- PassKeepsChannelsWellFormed and PassFrame. -/
theorem witness_PassKeepsChannelsWellFormed : ¬ Malformed ((twoChannels 9#4).chan .ch1)
    ∧ ∃ t, exec (.execPass 2#32) (twoChannels 9#4) = .next t ∧ (t.chan .ch1).tcr = 6#24 :=
  ⟨(Bool.eq_false_of_not_iff (malformed_iff _)).mp (by decide), answers (fun t => (t.chan .ch1).tcr = 6#24) (by decide)⟩

/-- Fixed priority: channel 1 gets no turn while channel 0 requests. -/
theorem witness_NoTurnNoChange : ¬ GetsTurn (twoChannels 1#4) .ch1
    ∧ ∃ t, exec (.execPass 0xFFFFFFFF#32) (twoChannels 1#4) = .next t ∧ (t.chan .ch0).tcr = 0#24 :=
  ⟨fun h => absurd (h.2.2 rfl ((requesting_iff _).mp (by decide))) (by decide),
    answers (fun t => (t.chan .ch0).tcr = 0#24) (by decide)⟩

theorem witness_BurstNotification :
    let s := oneChannel 3#24 0x4801#16 0#8 (costs 1)
    LoneChannel s .ch0 ∧ (s.chan .ch0).chcr.extractLsb' 14 2 = 1#2
      ∧ (s.chan .ch0).dar.toNat + (s.chan .ch0).tcr.toNat * unitBytes ((s.chan .ch0).chcr.extractLsb' 10 2) ≤ 2 ^ 32
      ∧ ∃ t, exec (.execPass 2#32) s = .next t ∧ t.trace.filter Event.isNotify = [.notify .master 0x06002000#32 8] :=
  ⟨lone_of_check not_ch0 (by decide) (by decide) (by decide), by decide, by decide,
    answers (fun t => t.trace.filter Event.isNotify = [.notify .master 0x06002000#32 8]) (by decide)⟩

/-- No notification while the cache is on (V-DMA-10). -/
theorem witness_BurstNotification_cacheOn :
    after (.execPass 2#32) (oneChannel 3#24 0x4801#16 1#8 (costs 1)) (fun t => (t.trace.length, t.trace.filter Event.isNotify)) =
    some (4, []) := by decide

theorem witness_BusIsTheReplayOfTheTrace : ∃ t, exec (.uwrL 0x06000010#29 7#32) quiet = .next t ∧ t.trace.length = 2 :=
  answers (fun t => t.trace.length = 2) (by decide)

theorem witness_FlagLatches : ∃ t, exec .latchAe (twoChannels 9#4) = .next t ∧ t.blk.dmaor = 0xD#4 :=
  answers (fun t => t.blk.dmaor = 0xD#4) (by decide)

/-! ### Witnesses: the interrupt encoder, reset and the invariants -/

/-- Level 0, a pending vector and a full queue; and a request that is queued, at levels 15 and 16. -/
theorem witness_InterruptRequests :
    (Instr.irq 0x41#8 0#4 = .irq 0x41#8 0#4 ∧ (0#4).toNat = 0)
    ∧ (∃ e ∈ threeRequests.blk.q, e.vector = 0x41#8)
    ∧ (State.params { threeRequests with params := { costs 1 with irqCap := 3 } }).irqCap ≤ threeRequests.blk.q.length
    ∧ ¬ ((15#4).toNat = 0 ∨ (∃ e ∈ threeRequests.blk.q, e.vector = 0x43#8) ∨ threeRequests.params.irqCap ≤ threeRequests.blk.q.length)
    ∧ ¬ (16 = 0 ∨ (∃ e ∈ threeRequests.blk.q, e.vector = 0x0B#8) ∨ threeRequests.params.irqCap ≤ threeRequests.blk.q.length) := by
  decide

theorem witness_InterruptAcknowledge_none : ∀ e ∈ threeRequests.blk.q, e.level ≤ (9#4).toNat := by decide

/-- The first of the two requests of level 9 (V-IRQ-1 step 5). -/
theorem witness_InterruptAcknowledge : (⟨0x41#8, 9, 1⟩ : Entry) ∈ threeRequests.blk.q ∧ (8#4).toNat < 9
    ∧ threeRequests.params.tie = .earliest
    ∧ ∀ f ∈ threeRequests.blk.q, f ≠ ⟨0x41#8, 9, 1⟩ → f.level < 9 ∨ (f.level = 9 ∧ 1 < f.seq) := by decide

theorem witness_AcknowledgeTakesTheBest : threeRequests.blk.QueueWf threeRequests.params.irqCap
    ∧ threeRequests.params.tie = .earliest ∧ (∃ e ∈ threeRequests.blk.q, (8#4).toNat < e.level)
    ∧ ∃ t, exec (.iack 8#4) threeRequests = .next t ∧ t.blk.q.length = 2 :=
  ⟨⟨by decide, by decide, by decide, by decide, by decide⟩, rfl, by decide, answers (fun t => t.blk.q.length = 2) (by decide)⟩

theorem witness_OnlyTheseChangeTheQueue : (∀ n wd, Instr.wrDmaor 9#32 ≠ Instr.wrChcr n wd)
    ∧ ∃ t, exec (.wrDmaor 9#32) threeRequests = .next t ∧ t.blk.q = threeRequests.blk.q :=
  ⟨(by intro n wd h; cases n <;> cases h), answers (fun t => t.blk.q = threeRequests.blk.q) (by decide)⟩

theorem witness_ResetCommands : Instr.reset ≠ .poweron ∧ (pending .slave 0#40 0#32).slaveOn = false := by decide

/-- The state of a pending command that meets the four invariants; its step completes. -/
def pendingDma : State :=
  { oneChannel 1#24 0x5805#16 0#8 (costs 1) with inputs := [.command .master 0x1000000001#40 0#32] }

theorem witness_StepKeepsInvariants : pendingDma.memoryWf ∧ pendingDma.queuesWf ∧ pendingDma.flagsWf
    ∧ pendingDma.master.tagsUnique ∧ pendingDma.slave.tagsUnique ∧ stepResult pendingDma = some none :=
  ⟨by unfold State.memoryWf Block.memoryWf; decide,
    ⟨⟨by decide, by decide, by decide, by decide, by decide⟩, ⟨by decide, by decide, by decide, by decide, by decide⟩⟩,
    ⟨⟨by decide, by decide, fun n => by cases n <;> decide⟩, ⟨by decide, by decide, fun n => by cases n <;> decide⟩⟩,
    tagsUnique_of_check (by decide), tagsUnique_of_check (by decide), by decide⟩

/-- The pending command is no Address Array write. -/
theorem witness_StepKeepsTagsUnique : decode 0x1000000001#40 0#32 = .ok (.execPass 1#32)
    ∧ ∀ low v, Instr.execPass 1#32 ≠ .aawrL low v := ⟨rfl, fun _ _ h => nomatch h⟩

/-- A command of the slave's instance. -/
theorem witness_InstancesShareNothing : ∃ t, exec (.wrIpra 0x0500#32) { quiet with cur := .slave } = .next t
    ∧ t.slave.ipra = 0x0500#16 :=
  answers (fun t => t.slave.ipra = 0x0500#16) (by decide)

/-- The memory of the state after reset is in canonical form. -/
theorem test_reset_memory : State.reset.bus.wf = true ∧ State.reset.master.data.wf = true ∧ State.reset.slave.da.wf = true := by
  decide

end Sys2Proof.Tests
end

section
/-! PROOFS. The bus and the trace: the bus is at every moment what the bus writes of the trace made of it
(spec/00_scope.md R12, spec/20_memory.md R67, R70). -/

namespace Sys2Proof.Machine

/-! ### A bus write is the replay of its own event -/

/-- The event of a bus write holds the bytes that are stored. -/
theorem beByte_lowBytes {n : Width} (v : Word) {i : Nat} (hi : i < n.bytes) : beByte n (lowBytes n v) i = beByte n v i := by
  refine BitVec.eq_of_toNat_eq ?_
  cases n with
  | byte =>
    obtain rfl : i = 0 := by simp only [Width.bytes] at hi; omega
    simp [beByte, lowBytes, Width.bytes, BitVec.extractLsb'_toNat]
  | word =>
    simp only [beByte, lowBytes, Width.bytes, BitVec.extractLsb'_toNat, BitVec.toNat_setWidth,
      Nat.shiftRight_eq_div_pow] at hi ⊢
    obtain rfl | rfl : i = 0 ∨ i = 1 := by omega
    · omega
    · omega
  | long => rfl

theorem Memory.writeBE_lowBytes (m : Memory) (key : Nat → Nat) (n : Width) (v : Word) :
    m.writeBE key n (lowBytes n v) = m.writeBE key n v := by
  have h {i : Nat} (hi : i < n.bytes) := beByte_lowBytes v hi
  cases n with
  | byte => simp only [Memory.writeBE, h (i := 0) (by decide)]
  | word => simp only [Memory.writeBE, h (i := 0) (by decide), h (i := 1) (by decide)]
  | long => rfl

/-- The bytes of an access follow one another on the 28-bit bus as they do in the 32-bit address space (R12). -/
theorem toNat_busAddress_add (a : Word) (i : Nat) : (busAddress a + BitVec.ofNat 28 i).toNat = busKey a i := by
  simp only [busKey, busAddress, BitVec.toNat_add, BitVec.extractLsb'_toNat, BitVec.toNat_ofNat]
  omega

/-- The page key is a field of the bus address (R12, R93). -/
theorem toNat_page_busAddress (a : Word) : ((busAddress a).extractLsb' 16 12).toNat = pageOf a := by
  simp only [busAddress, pageOf, BitVec.extractLsb'_toNat, Nat.shiftRight_eq_div_pow]
  omega

theorem replay_append (pages : List PageMapEntry) (es es' : List Event) (m : Memory) :
    replay pages (es ++ es') m = replay pages es' (replay pages es m) := by
  induction es generalizing m with
  | nil => rfl
  | cons e es ih => cases e <;> exact ih _

theorem replay_busWrite (s : State) (a : Word) (n : Width) (v : Word) :
    replay s.pages [.busWrite s.cur (busAddress a) n (lowBytes n v)] s.bus = s.busStored a n v := by
  simp only [replay, toNat_page_busAddress, toNat_busAddress_add, Memory.writeBE_lowBytes]
  rfl

/-! ### The invariant -/

/-- `t` comes from `s` by events that are on the trace and whose replay gives the bus of `t`. -/
def ReplaysFrom (s t : State) : Prop :=
  t.pages = s.pages ∧ ∃ es : List Event, t.trace = s.trace ++ es ∧ t.bus = replay s.pages es s.bus

theorem ReplaysFrom.refl (s : State) : ReplaysFrom s s :=
  ⟨rfl, [], (List.append_nil _).symm, rfl⟩

theorem ReplaysFrom.trans {s t u : State} (h : ReplaysFrom s t) (h' : ReplaysFrom t u) : ReplaysFrom s u := by
  obtain ⟨hp, es, ht, hb⟩ := h
  obtain ⟨hp', es', ht', hb'⟩ := h'
  refine ⟨hp'.trans hp, es ++ es', ?_, ?_⟩
  · rw [ht', ht, List.append_assoc]
  · rw [hb', hb, hp, replay_append]

/-- What touches neither the page map nor the trace nor the bus is a replay of no event. -/
theorem ReplaysFrom.of_eq {s t : State} (hp : t.pages = s.pages) (ht : t.trace = s.trace) (hb : t.bus = s.bus) :
    ReplaysFrom s t :=
  ⟨hp, [], by rw [ht, List.append_nil], hb⟩

/-- Every part of a command keeps the invariant: only a bus write changes the bus, by its own event. -/
theorem kept_replaysFrom (s : State) : Kept (ReplaysFrom s) where
  read _ _ _ h := h.trans ⟨rfl, _, State.afterRead_trace _ _ _, rfl⟩
  write t a n v h := h.trans ⟨rfl, _, State.busWrite_trace t a n v, (replay_busWrite t a n v).symm⟩
  notify _ _ _ h := h.trans ⟨rfl, _, State.notify_trace _ _ _, rfl⟩
  block _ _ _ h := h.trans (.of_eq rfl rfl rfl)
  result _ _ h := h.trans (.of_eq rfl rfl rfl)
  powered _ h := h.trans (.of_eq rfl rfl rfl)

theorem replaysFrom_of_exec {i : Instr} {s t : State} (h : exec i s = .next t) : ReplaysFrom s t :=
  (kept_replaysFrom s).exec (fun _ _ _ hs => hs.trans (.of_eq rfl rfl rfl)) h (.refl s)

/-- Settles O47: every part of a command keeps `ReplaysFrom`, so a command does. -/
theorem busIsTheReplayOfTheTrace : Obligations.BusIsTheReplayOfTheTrace :=
  fun _ _ _ h => (replaysFrom_of_exec h).2

end Sys2Proof.Machine
end

section
/-! PROOFS. Which bytes a CPU-side write changes (spec/00_scope.md R12, spec/20_memory.md R64). -/

namespace Sys2Proof.Machine

/-! ### Reading the bus after a bus write -/

theorem storedBus_of_onRam {s : State} {a : Word} (n : Width) (v : Word) (h : OnRam s a) :
    storedBus s a n v = s.bus.writeBE (busKey a) n v :=
  if_pos h

theorem storedBus_of_not_onRam {s : State} {a : Word} (n : Width) (v : Word) (h : ¬ OnRam s a) :
    storedBus s a n v = s.bus :=
  if_neg h

theorem storedBus_read_self {s : State} {a : Word} {n : Width} (v : Word) (hw : s.bus.wf = true) (hr : OnRam s a)
    (ha : aligned n a = true) {k : Nat} (hk : k < n.bytes) :
    (storedBus s a n v).read ((busAddress a).toNat + k) = beByte n v k := by
  have distinct : ∀ i < n.bytes, ∀ j < n.bytes, busKey a i = busKey a j → i = j := fun i hi j hj =>
    busKey_inj a (Nat.lt_of_lt_of_le hi (Width.bytes_le n)) (Nat.lt_of_lt_of_le hj (Width.bytes_le n))
  rw [storedBus_of_onRam n v hr, ← busKey_of_aligned ha hk]
  exact Memory.read_writeBE_self v hw distinct hk

theorem storedBus_read_other {s : State} {a : Word} {n : Width} (v : Word) (ha : aligned n a = true) {k : Nat}
    (hk : k < (busAddress a).toNat ∨ (busAddress a).toNat + n.bytes ≤ k) :
    (storedBus s a n v).read k = s.bus.read k := by
  by_cases hr : OnRam s a
  · rw [storedBus_of_onRam n v hr]
    refine Memory.read_writeBE_other v fun i hi => ?_
    rw [busKey_of_aligned ha hi]
    omega
  · rw [storedBus_of_not_onRam n v hr]

/-! ### A write of either area stores through to the bus -/

theorem exec_cwr_bus {n : Width} {low : BitVec 29} {wd : Word} {s t : State} (h : exec (Instr.cwr n low wd) s = .next t) :
    aligned n (fullAddress 0b000#3 low) = true ∧ t.bus = storedBus s (fullAddress 0b000#3 low) n wd := by
  rw [exec_cwr] at h
  obtain ⟨ha, rfl⟩ := cachedWrite_next h
  refine ⟨ha, ?_⟩
  split
  · rfl
  · rfl

theorem exec_uwr_bus {n : Width} {low : BitVec 29} {wd : Word} {s t : State} (h : exec (Instr.uwr n low wd) s = .next t) :
    aligned n (fullAddress 0b001#3 low) = true ∧ t.bus = storedBus s (fullAddress 0b001#3 low) n wd := by
  rw [exec_uwr] at h
  obtain ⟨ha, rfl⟩ := uncachedWrite_next h
  exact ⟨ha, rfl⟩

/-- Settles O16: the write is aligned and leaves the bus as `storedBus` says, whichever area it goes through. -/
theorem writtenBytes : Obligations.WrittenBytes := by
  intro i n a wd s t hi hw ht
  obtain ⟨ha, hb⟩ : aligned n a = true ∧ t.bus = storedBus s a n wd := by
    obtain ⟨low, ⟨rfl, rfl⟩ | ⟨rfl, rfl⟩⟩ := hi
    · exact exec_cwr_bus ht
    · exact exec_uwr_bus ht
  rw [hb]
  refine ⟨fun hr k hk => ?_, fun k hk => ?_⟩
  · rw [storedBus_read_self wd hw hr ha hk, beByte_eq]
  · rcases hk with hr | hk
    · rw [storedBus_of_not_onRam n wd hr]
    · exact storedBus_read_other wd ha hk

end Sys2Proof.Machine
end

section
/-! PROOFS. The step on a decoded command (spec/00_scope.md R15, spec/70_reset_and_hazards.md R280), and the LRU pair
(spec/40_cache_ops.md R121, R122). -/

namespace Sys2Proof.Machine

/-! ### The step -/

theorem State.poweredOn_eq (s : State) (ctx : ContextId) :
    s.poweredOn ctx = if ctx = .master then s.masterOn else s.slaveOn := by
  cases ctx <;> rfl

theorem State.accepts_iff (s : State) (i : Instr) : s.accepts i = true ↔ i = .poweron ∨ s.poweredOn s.cur = true := by
  simp [State.accepts]

theorem step_command {s : State} {ctx : ContextId} {cw : BitVec 40} {wd : Word} {rest : List Input} {i : Instr}
    (hs : s.inputs = .command ctx cw wd :: rest) (hi : decode cw wd = .ok i) :
    step s = if (s.take ctx rest).accepts i then exec i (s.take ctx rest) else .refused .notPoweredOn := by
  simp only [step, hs, hi]

/-- Settles O6: the context that the input addresses accepts the command (R280). -/
theorem stepRunsDecodedCommand : Obligations.StepRunsDecodedCommand := by
  intro s ctx cw wd rest i hs hi hon
  have ha : (s.take ctx rest).accepts i = true := by
    rw [State.accepts_iff, State.poweredOn_eq]
    exact hon
  rw [step_command hs hi, if_pos ha]
  rfl

/-! ### The LRU pair -/

/-- Setting the bits `m` and then keeping the bits `k`, `m` among them, is idempotent. -/
theorem or_and_idempotent {m k : BitVec 6} (h : m &&& k = m) (x : BitVec 6) :
    (((x ||| m) &&& k) ||| m) &&& k = (x ||| m) &&& k := by
  have distrib (y : BitVec 6) : (y ||| m) &&& k = (y &&& k) ||| m := by
    rw [BitVec.and_comm, BitVec.and_or_distrib_left, BitVec.and_comm k y, BitVec.and_comm k m, h]
  simp only [distrib, BitVec.and_assoc, BitVec.and_self, BitVec.or_assoc, BitVec.or_self]

theorem lruTouch_idempotent (x : BitVec 6) (w : Fin 4) : lruTouch (lruTouch x w) w = lruTouch x w := by
  match w with
  | 0 => simp only [lruTouch, BitVec.and_assoc, BitVec.and_self]
  | 1 => exact or_and_idempotent (by decide) x
  | 2 => exact or_and_idempotent (by decide) x
  | 3 => simp only [lruTouch, BitVec.or_assoc, BitVec.or_self]

/-- The fall-through of the four masked tests (R122). -/
theorem lruVictim_fallthrough {x : BitVec 6} (h0 : x &&& 0x38#6 ≠ 0x38#6) (h1 : x &&& 0x26#6 ≠ 0x06#6)
    (h2 : x &&& 0x15#6 ≠ 0x01#6) (h3 : x &&& 0x0B#6 ≠ 0x00#6) : lruVictim x false = 0 := by
  simp only [lruVictim, if_neg h0, if_neg h1, if_neg h2, if_neg h3, Bool.false_eq_true, if_false]

/-- Settles O29: the pair after reset is the documented one, and `LruPair.ofFunctions` holds any two functions. -/
theorem lruFunctionsTotal : Obligations.LruFunctionsTotal :=
  ⟨lruTouch_idempotent, fun _ => lruVictim_fallthrough, documentedLru_touched, documentedLru_victimOf,
    fun touch victim => ⟨.ofFunctions touch victim, LruPair.touched_ofFunctions touch victim,
      LruPair.victimOf_ofFunctions touch victim⟩⟩

end Sys2Proof.Machine
end

section
/-! PROOFS. The invariants of every step (spec/10_state.md R27, R31, R32, R35, R36, R39): the byte stores, the interrupt
queues and the flags. Each is a property of the block of one context that every change of a block keeps, so that a step
keeps it in both blocks; the bus is the one store outside them. -/

namespace Sys2Proof.Machine

/-! ### From the parts of a command to a step -/

/-- A property that every part of a command keeps is kept by every step, if taking an input, a write of another bus
master and an Address Array write keep it as well. -/
theorem Kept.step {P : State → Prop} (h : Kept P) {s t : State}
    (htake : ∀ ctx rest, P s → P (s.take ctx rest))
    (hother : ∀ rest a n v, P s → P (s.otherMaster rest a n v))
    (haa : ∀ ctx cw wd rest low v, s.inputs = .command ctx cw wd :: rest → decode cw wd = .ok (.aawrL low v) →
      P (s.take ctx rest) →
      P ((s.take ctx rest).setBlk (addressArrayWritten (s.take ctx rest).blk (fullAddress 0b011#3 low) v)))
    (ht : Sys2Proof.Machine.step s = .next t) (hs : P s) : P t := by
  rcases step_cases ht with ⟨-, rfl⟩ | ⟨a, n, v, rest, -, rfl⟩ | ⟨ctx, cw, wd, rest, i, hin, hdec, -, hex⟩
  · exact hs
  · exact hother rest a n v hs
  · refine h.exec (fun low v hi => ?_) hex (htake ctx rest hs)
    subst hi
    exact haa ctx cw wd rest low v hin hdec

/-- Both blocks have the property `I`, which may name the capacity of the queues. -/
def State.BothHave (I : Nat → Block → Prop) (s : State) : Prop :=
  I s.params.irqCap s.master ∧ I s.params.irqCap s.slave

section
variable {I : Nat → Block → Prop}

theorem State.BothHave.blk {s : State} (h : s.BothHave I) : I s.params.irqCap s.blk := by
  unfold State.blk
  cases s.cur with
  | master => exact h.1
  | slave => exact h.2

theorem State.BothHave.setBlk {s : State} {b : Block} (h : s.BothHave I) (hb : I s.params.irqCap b) :
    (s.setBlk b).BothHave I := by
  obtain ⟨hm, hs⟩ := h
  cases hc : s.cur with
  | master => simpa [State.BothHave, State.setBlk, hc] using And.intro hb hs
  | slave => simpa [State.BothHave, State.setBlk, hc] using And.intro hm hb

/-- What every change of a block keeps, every part of a command keeps in both blocks. -/
theorem kept_bothHave (hstep : ∀ {cap b b'}, BlockStep cap b b' → I cap b → I cap b') :
    Kept (State.BothHave I) where
  read _ _ _ h := h
  write _ _ _ _ h := h
  notify _ _ _ h := h
  block _ _ hb h := h.setBlk (hstep hb h.blk)
  result _ _ h := h
  powered _ h := h

/-- What every change of a block keeps, and an Address Array write too, every step keeps in both blocks. -/
theorem State.BothHave.step (hstep : ∀ {cap b b'}, BlockStep cap b b' → I cap b → I cap b')
    (haa : ∀ {cap b} a v, I cap b → I cap (addressArrayWritten b a v)) {s t : State} (ht : step s = .next t)
    (hs : s.BothHave I) : t.BothHave I :=
  (kept_bothHave hstep).step (fun _ _ h => h) (fun _ _ _ _ h => h)
    (fun _ _ _ _ _ _ _ _ h => h.setBlk (haa _ _ h.blk)) ht hs

end

/-- PurgeOne changes the lines of a block at most (R127). -/
theorem Block.purgeOne_frame (b : Block) (a : Word) : ∃ x, b.purgeOne a = { b with lines := x } := by
  unfold Block.purgeOne
  split
  · exact ⟨_, rfl⟩
  · exact ⟨b.lines, rfl⟩

/-! ### The byte stores -/

/-- The bus is in canonical form and inside its 28-bit address space (R12, R63). -/
def State.BusWf (s : State) : Prop :=
  s.bus.wf ∧ s.bus.below (2 ^ 28)

theorem State.BusWf.busStored {s : State} (h : s.BusWf) (a : Word) (n : Width) (v : Word) :
    (s.busStored a n v).wf ∧ (s.busStored a n v).below (2 ^ 28) :=
  ⟨storedBus_wf a n v h.1, storedBus_below a n v h.2⟩

theorem kept_busWf : Kept State.BusWf where
  read _ _ _ h := h
  write _ a n v h := h.busStored a n v
  notify _ _ _ h := h
  block _ _ _ h := h
  result _ _ h := h
  powered _ h := h

theorem State.BusWf.step {s t : State} (ht : step s = .next t) (hs : s.BusWf) : t.BusWf :=
  kept_busWf.step (fun _ _ h => h) (fun _ a n v h => h.busStored a n v) (fun _ _ _ _ _ _ _ _ h => h) ht hs

theorem Block.memoryWf.congr {b b' : Block} (h : b.memoryWf) (hdata : b'.data = b.data) (hda : b'.da = b.da) :
    b'.memoryWf := by
  unfold Block.memoryWf
  rw [hdata, hda]
  exact h

theorem BlockStep.keeps_memoryWf {cap : Nat} {b b' : Block} (hb : BlockStep cap b b') (h : b.memoryWf) :
    b'.memoryWf := by
  have ⟨hdw, hdb, haw, hab⟩ := h
  cases hb with
  | data key n v hk => exact ⟨Memory.wf_writeBE key n v hdw, Memory.below_writeBE key n v hk hdb, haw, hab⟩
  | da key n v hk => exact ⟨hdw, hdb, Memory.wf_writeBE key n v haw, Memory.below_writeBE key n v hk hab⟩
  | clear => exact ⟨rfl, rfl, rfl, rfl⟩
  | chan | chcr | completed => exact h.congr (b.setChan_data _ _) (b.setChan_da _ _)
  | purge a =>
    obtain ⟨x, e⟩ := b.purgeOne_frame a
    rw [e]
    exact h.congr rfl rfl
  | raise v lv =>
    rw [Block.raiseIrq_fields]
    exact h.congr rfl rfl
  | touch | fillSlot | invalidate | remove | dmaor | ccr | ipra | resetRegisters => exact h.congr rfl rfl

/-- Settles O55: the bus and the stores of each block are kept one by one. -/
theorem stepKeepsMemoryWf : Obligations.StepKeepsMemoryWf := by
  intro s t ⟨hwf, hbelow, hblocks⟩ ht
  obtain ⟨hwf', hbelow'⟩ := State.BusWf.step ht ⟨hwf, hbelow⟩
  exact ⟨hwf', hbelow', State.BothHave.step (I := fun _ b => b.memoryWf) BlockStep.keeps_memoryWf
    (fun _ _ h => h) ht hblocks⟩

/-! ### The interrupt queues -/

theorem Block.QueueWf.congr {cap : Nat} {b b' : Block} (h : b.QueueWf cap) (hq : b'.q = b.q) (hseq : b'.seq = b.seq) :
    b'.QueueWf cap where
  capacity := hq ▸ h.capacity
  levels := hq ▸ h.levels
  vectors := hq ▸ h.vectors
  order := hq ▸ h.order
  fresh := hq ▸ hseq ▸ h.fresh

theorem Block.QueueWf.of_empty {cap : Nat} {b : Block} (hq : b.q = []) : b.QueueWf cap where
  capacity := by simp [hq]
  levels := by simp [hq]
  vectors := by simp [hq]
  order := by simp [hq]
  fresh := by simp [hq]

/-- A queued request is new in Q, fits, and its number is above all others (R230, R231). -/
theorem Block.QueueWf.raiseIrq {cap : Nat} {b : Block} {lv : Nat} (v : BitVec 8) (hlv : lv ≤ 16) (h : b.QueueWf cap) :
    (b.raiseIrq cap v lv).QueueWf cap := by
  rcases Block.raiseIrq_cases cap b v lv with e | ⟨hlv0, hv, hcap, e⟩
  · rw [e]
    exact h
  · rw [e]
    refine ⟨?_, ?_, ?_, ?_, ?_⟩
    · simpa using hcap
    · exact List.forall_mem_append.mpr ⟨h.levels, List.forall_mem_singleton.mpr ⟨Nat.pos_of_ne_zero hlv0, hlv⟩⟩
    · simpa [List.pairwise_append] using And.intro h.vectors hv
    · simpa [List.pairwise_append] using And.intro h.order h.fresh
    · exact List.forall_mem_append.mpr
        ⟨fun x hx => Nat.lt_succ_of_lt (h.fresh x hx), List.forall_mem_singleton.mpr (Nat.lt_succ_self _)⟩

theorem Block.QueueWf.removeEntry {cap : Nat} {b : Block} (e : Entry) (h : b.QueueWf cap) :
    (b.removeEntry e).QueueWf cap where
  capacity := Nat.le_trans (List.length_filter_le _ _) h.capacity
  levels x hx := h.levels x (List.mem_filter.mp hx).1
  vectors := h.vectors.filter _
  order := h.order.filter _
  fresh x hx := h.fresh x (List.mem_filter.mp hx).1

theorem BlockStep.keeps_queueWf {cap : Nat} {b b' : Block} (hb : BlockStep cap b b') (h : b.QueueWf cap) :
    b'.QueueWf cap := by
  cases hb with
  | raise v lv hlv => exact h.raiseIrq v hlv
  | remove e => exact h.removeEntry e
  | resetRegisters => exact .of_empty rfl
  | chan | chcr | completed => exact h.congr (b.setChan_q _ _) (b.setChan_seq _ _)
  | purge a =>
    obtain ⟨x, e⟩ := b.purgeOne_frame a
    rw [e]
    exact h.congr rfl rfl
  | touch | fillSlot | invalidate | data | da | clear | dmaor | ccr | ipra => exact h.congr rfl rfl

/-- Settles O56: only RaiseIrq, IACK and the reset commands change a queue. -/
theorem stepKeepsQueuesWf : Obligations.StepKeepsQueuesWf :=
  fun _ _ hs ht => State.BothHave.step (I := Block.QueueWf) BlockStep.keeps_queueWf (fun _ _ h => h.congr rfl rfl) ht hs

/-! ### The flags -/

theorem chcrTE_chcrWritten (c : Channel) (v : Word) :
    chcrTE (chcrWritten c v) = (chcrTE c.chcr && (v.getLsbD 1 || c.tem)) := by
  simp [chcrTE, chcrWritten]

/-- A completed channel has its Transfer-End flag set (R207). -/
theorem chcrTE_completed (c : Channel) : chcrTE c.completed.chcr = true := by
  simp [chcrTE, Channel.completed]

theorem ccrWritten_reserved (v : Word) : ccrWritten v &&& 0x30#8 = 0#8 := by
  rw [ccrWritten, BitVec.and_assoc]
  exact BitVec.and_zero

theorem ipraWritten_reserved (v : Word) : ipraWritten v &&& 0x000F#16 = 0#16 := by
  rw [ipraWritten, BitVec.and_assoc]
  exact BitVec.and_zero

theorem Block.FlagsWf.congr {b b' : Block} (h : b.FlagsWf) (hccr : b'.ccr = b.ccr) (hipra : b'.ipra = b.ipra)
    (hchan : ∀ n, b'.chan n = b.chan n) : b'.FlagsWf where
  ccrReserved := hccr ▸ h.ccrReserved
  ipraReserved := hipra ▸ h.ipraReserved
  tem n := hchan n ▸ h.tem n

/-- A change of one channel has to keep TEM = 1 only with TE = 1 in that channel (R27). -/
theorem Block.FlagsWf.setChan {b : Block} {n : ChannelId} {c : Channel} (h : b.FlagsWf)
    (hc : c.tem = true → chcrTE c.chcr = true) : (b.setChan n c).FlagsWf where
  ccrReserved := (b.setChan_ccr n c).symm ▸ h.ccrReserved
  ipraReserved := (b.setChan_ipra n c).symm ▸ h.ipraReserved
  tem m := by
    by_cases hm : m = n
    · subst hm
      rw [Block.chan_setChan_self]
      exact hc
    · rw [Block.chan_setChan_other b c hm]
      exact h.tem m

theorem Block.FlagsWf.resetRegisters (b : Block) : b.resetRegisters.FlagsWf where
  ccrReserved := BitVec.zero_and
  ipraReserved := BitVec.zero_and
  tem n ht := by cases n <;> cases ht

theorem BlockStep.keeps_flagsWf {cap : Nat} {b b' : Block} (hb : BlockStep cap b b') (h : b.FlagsWf) : b'.FlagsWf := by
  cases hb with
  | chan n c hchcr htem => exact h.setChan fun ht => hchcr ▸ h.tem n (htem ht)
  | chcr n v =>
    refine h.setChan fun (ht : (b.chan n).tem = true) => ?_
    rw [chcrTE_chcrWritten, h.tem n ht, ht, Bool.or_true, Bool.and_true]
  | completed n => exact h.setChan fun _ => chcrTE_completed _
  | ccr v => exact ⟨ccrWritten_reserved v, h.ipraReserved, h.tem⟩
  | ipra v => exact ⟨h.ccrReserved, ipraWritten_reserved v, h.tem⟩
  | resetRegisters => exact .resetRegisters b
  | purge a =>
    obtain ⟨x, e⟩ := b.purgeOne_frame a
    rw [e]
    exact h.congr rfl rfl fun _ => rfl
  | raise v lv =>
    rw [Block.raiseIrq_fields]
    exact h.congr rfl rfl fun _ => rfl
  | touch | fillSlot | invalidate | data | da | clear | remove | dmaor => exact h.congr rfl rfl fun _ => rfl

/-- Settles O57: a CHCR write drops TE only where TEM is 0, and CCR and IPRA are stored under their masks. -/
theorem stepKeepsFlagsWf : Obligations.StepKeepsFlagsWf :=
  fun _ _ hs ht => State.BothHave.step (I := fun _ b => b.FlagsWf) BlockStep.keeps_flagsWf
    (fun _ _ h => h.congr rfl rfl fun _ => rfl) ht hs

/-! ### At reset -/

theorem Line.invalid_holds (w : Fin 4) (t : BitVec 19) : Line.invalid.holds w t = false := by
  simp [Line.holds, Line.invalid]

theorem Block.invalidateAll_tagsUnique (b : Block) : b.invalidateAll.tagsUnique := by
  intro l w w' t hw
  rw [Block.invalidateAll_line, Line.invalid_holds] at hw
  cases hw

/-- Settles O59: POWERON leaves every store and queue empty, every flag 0 and no valid tag (R44). -/
theorem resetMeetsInvariants : Obligations.ResetMeetsInvariants := by
  have memory : Block.powerOn.memoryWf := ⟨rfl, rfl, rfl, rfl⟩
  have queue : Block.powerOn.QueueWf State.reset.params.irqCap := .of_empty rfl
  have flags : Block.powerOn.FlagsWf := .resetRegisters Block.powerOn
  have tags : Block.powerOn.tagsUnique := Block.powerOn.invalidateAll_tagsUnique
  exact ⟨⟨rfl, rfl, memory, memory⟩, ⟨queue, queue⟩, ⟨flags, flags⟩, tags, tags⟩

end Sys2Proof.Machine
end

section
/-! PROOFS. The LRU pair of the spec against the order of the ways that the six bits encode (spec/10_state.md R34,
spec/40_cache_ops.md R121, R122). -/

namespace Sys2Proof.Machine

/-- LRU_TOUCH moves the way to the front of the order (R121), evaluated on each of the 24 orders. -/
theorem lruTouch_lruCode : ∀ p ∈ List.permutations' [(0 : Fin 4), 1, 2, 3], ∀ w,
    lruTouch (lruCode p) w = lruCode (w :: p.erase w) := by
  decide

/-- The four-way victim is the last of the order (R122), evaluated on each of the 24 orders. -/
theorem getLast?_eq_lruVictim : ∀ p ∈ List.permutations' [(0 : Fin 4), 1, 2, 3],
    p.getLast? = some (lruVictim (lruCode p) false) := by
  decide

/-- Bit 0 of the code says that way 2 was used less recently than way 3 (R34). -/
theorem lruCode_getLsbD_zero (p : List (Fin 4)) : (lruCode p).getLsbD 0 = decide (p.idxOf 3 < p.idxOf 2) := by
  simp only [lruCode, BitVec.getLsbD_append, Nat.zero_lt_one, if_true, BitVec.getLsbD_ofBool, decide_true,
    Bool.true_and]

/-- The two-way victim is the later of ways 2 and 3 (R122). -/
theorem lruVictim_twoWay {p : List (Fin 4)} (h : 2 ∈ p) :
    lruVictim (lruCode p) true = if p.idxOf 2 < p.idxOf 3 then 3 else 2 := by
  have hne : p.idxOf 2 ≠ p.idxOf 3 := fun e => absurd ((List.idxOf_inj h).mp e) (by decide)
  simp only [lruVictim, if_true, lruCode_getLsbD_zero, decide_eq_true_eq]
  split
  · rw [if_neg (by omega)]
  · rw [if_pos (by omega)]

/-- Settles O28: the touch and the four-way victim over all 24 orders, the two-way victim from bit 0 of the code. -/
theorem lruFunctionsKeepTheOrder : Obligations.LruFunctionsKeepTheOrder := by
  intro p w hp
  have ho := List.mem_permutations'.mpr hp
  exact ⟨lruTouch_lruCode p ho w, getLast?_eq_lruVictim p ho, lruVictim_twoWay (hp.mem_iff.mpr (by decide))⟩

end Sys2Proof.Machine
end

section
/-! PROOFS. Alignment comes before any other effect of a BUS command (spec/20_memory.md R65). -/

namespace Sys2Proof.Machine

/-- Each row that has an address is a guard on exactly that width and address: `r` is what the row does behind it. A
register, port or undecodable row has no address. -/
theorem exec_eq_guardAligned {i : Instr} {n : Width} {a : Word} (s : State) (h : busAccess i = some (n, a)) :
    ∃ r, exec i s = guardAligned n a r := by
  cases i <;> cases h <;> exact ⟨_, rfl⟩

/-- Settles O9: the guard of the row refuses before the row does anything. -/
theorem misalignedRefused : Obligations.MisalignedRefused := by
  intro i n a s hi ha
  obtain ⟨r, hr⟩ := exec_eq_guardAligned s hi
  rw [hr, guardAligned_of_misaligned ha]

end Sys2Proof.Machine
end

section
/-! PROOFS. The decoder by the fields of a command word (spec/30_encoding.md R90, R98, R102): the kinds of word, what
the decoder answers of each, and the words that it rejects. -/

namespace Sys2Proof

/-! ### Fields -/

/-- A field of a word, as a number. -/
theorem extractLsb'_eq_iff {w len : Nat} (x : BitVec w) (start : Nat) (c : BitVec len) :
    x.extractLsb' start len = c ↔ x.toNat / 2 ^ start % 2 ^ len = c.toNat := by
  rw [← BitVec.toNat_inj, BitVec.extractLsb'_toNat, Nat.shiftRight_eq_div_pow]

theorem getLsbD_eq_true_iff {w : Nat} (x : BitVec w) (i : Nat) : x.getLsbD i = true ↔ x.extractLsb' i 1 = 1#1 := by
  rw [extractLsb'_eq_iff, BitVec.getLsbD, Nat.testBit_eq_decide_div_mod_eq, decide_eq_true_eq]
  rfl

theorem bit_cases (x : BitVec 1) : x = 0#1 ∨ x = 1#1 := by
  revert x
  decide

theorem top_eq_one_iff (cw : BitVec 40) : cw.extractLsb' 39 1 = 1#1 ↔ 8 ≤ (cw.extractLsb' 36 4).toNat := by
  rw [extractLsb'_eq_iff, BitVec.extractLsb'_toNat, Nat.shiftRight_eq_div_pow]
  simp only [BitVec.toNat_ofNat]
  omega

theorem widthOf_eq_none_iff (sz : BitVec 2) : widthOf sz = none ↔ sz = 3#2 := by
  revert sz
  decide

theorem port_cases {cls : BitVec 4} (hlo : 1 ≤ cls.toNat) (hhi : cls.toNat ≤ 6) :
    cls = 1#4 ∨ cls = 2#4 ∨ cls = 3#4 ∨ cls = 4#4 ∨ cls = 5#4 ∨ cls = 6#4 := by
  revert cls
  decide

/-! ### The kinds of command word -/

/-- The kinds of command word, by the fields the decoder looks at (R90, R98, R102). -/
inductive WordKind (cw : BitVec 40) : Prop
  | class8 (htop : cw.extractLsb' 39 1 = 1#1)
  | class7 (hcls : cw.extractLsb' 36 4 = 7#4)
  | size3 (hcls : cw.extractLsb' 36 4 = 0#4) (hsz : cw.extractLsb' 33 2 = 3#2)
  | bus (n : Width) (hcls : cw.extractLsb' 36 4 = 0#4) (hsz : widthOf (cw.extractLsb' 33 2) = some n)
      (h32 : cw.extractLsb' 32 1 = 0#1)
  | bit32 (hcls : cw.extractLsb' 36 4 = 0#4) (hsz : cw.extractLsb' 33 2 ≠ 3#2) (h32 : cw.extractLsb' 32 1 = 1#1)
  | port (hlo : 1 ≤ (cw.extractLsb' 36 4).toNat) (hhi : (cw.extractLsb' 36 4).toNat ≤ 6)

theorem wordKind (cw : BitVec 40) : WordKind cw := by
  by_cases htop : cw.extractLsb' 39 1 = 1#1
  · exact .class8 htop
  by_cases h7 : cw.extractLsb' 36 4 = 7#4
  · exact .class7 h7
  by_cases h0 : cw.extractLsb' 36 4 = 0#4
  · cases hn : widthOf (cw.extractLsb' 33 2) with
    | none => exact .size3 h0 ((widthOf_eq_none_iff _).mp hn)
    | some n =>
      have hsz : cw.extractLsb' 33 2 ≠ 3#2 := fun h => by simp [(widthOf_eq_none_iff _).mpr h] at hn
      rcases bit_cases (cw.extractLsb' 32 1) with h32 | h32
      · exact .bus n h0 hn h32
      · exact .bit32 h0 hsz h32
  · rw [top_eq_one_iff] at htop
    simp only [← BitVec.toNat_inj, BitVec.toNat_ofNat] at h7 h0
    exact .port (by omega) (by omega)

section
variable {cw : BitVec 40} (wd : Word)

theorem decode_of_class8 (htop : cw.extractLsb' 39 1 = 1#1) : decode cw wd = .ok (.clsRsv8 (cw.extractLsb' 0 39)) :=
  if_pos htop

theorem decode_of_class7 (hcls : cw.extractLsb' 36 4 = 7#4) : decode cw wd = .ok (.clsRsv7 (cw.extractLsb' 0 36)) := by
  simp [decode, top_eq_one_iff, hcls]

theorem decode_of_size3 (hcls : cw.extractLsb' 36 4 = 0#4) (hsz : cw.extractLsb' 33 2 = 3#2) :
    decode cw wd = .ok (.busSz3 (cw.extractLsb' 35 1) (cw.extractLsb' 0 33)) := by
  simp [decode, top_eq_one_iff, hcls, hsz, widthOf]

theorem decode_of_bus {n : Width} (hcls : cw.extractLsb' 36 4 = 0#4) (hsz : widthOf (cw.extractLsb' 33 2) = some n)
    (h32 : cw.extractLsb' 32 1 = 0#1) :
    decode cw wd = .ok (decodeBus (cw.extractLsb' 35 1 = 1#1) n (cw.extractLsb' 0 32) wd) := by
  simp [decode, top_eq_one_iff, hcls, hsz, h32]

theorem decode_of_bit32 (hcls : cw.extractLsb' 36 4 = 0#4) (hsz : cw.extractLsb' 33 2 ≠ 3#2)
    (h32 : cw.extractLsb' 32 1 = 1#1) : decode cw wd = .error .bit32 := by
  cases hn : widthOf (cw.extractLsb' 33 2) with
  | none => exact absurd ((widthOf_eq_none_iff _).mp hn) hsz
  | some n => simp [decode, top_eq_one_iff, hcls, hn, h32]

theorem decode_of_port (hlo : 1 ≤ (cw.extractLsb' 36 4).toNat) (hhi : (cw.extractLsb' 36 4).toNat ≤ 6) :
    decode cw wd = if cw.extractLsb' 32 4 = 0#4 then decodePort (cw.extractLsb' 36 4) (cw.extractLsb' 0 32)
      else .error .portBits := by
  have h8 : ¬ 8 ≤ (cw.extractLsb' 36 4).toNat := by omega
  have h7 : cw.extractLsb' 36 4 ≠ 7#4 := fun h => by simp [h] at hhi
  have h0 : cw.extractLsb' 36 4 ≠ 0#4 := fun h => by simp [h] at hlo
  simp only [decode, top_eq_one_iff, h8, h7, h0, if_false]

end

/-! ### The ports -/

theorem decodePort_exec (p : Word) : decodePort 1#4 p = .ok (.execPass p) := rfl

theorem decodePort_irq (p : Word) : decodePort 2#4 p =
    if p.extractLsb' 13 19 ≠ 0#19 then .error .payload
    else if p.extractLsb' 12 1 = 0#1 then .ok (.irq (p.extractLsb' 0 8) (p.extractLsb' 8 4))
    else if p.extractLsb' 8 4 = 0#4 then .ok (.irqNmi (p.extractLsb' 0 8))
    else .error .level := rfl

theorem decodePort_iack (p : Word) : decodePort 3#4 p =
    if p.extractLsb' 4 28 = 0#28 then .ok (.iack (p.extractLsb' 0 4)) else .error .payload := rfl

theorem decodePort_reset (p : Word) : decodePort 4#4 p = if p = 0#32 then .ok .reset else .error .payload := rfl

theorem decodePort_poweron (p : Word) : decodePort 5#4 p = if p = 0#32 then .ok .poweron else .error .payload := rfl

theorem decodePort_latch (p : Word) : decodePort 6#4 p =
    if p = 0#32 then .ok .latchNmif else if p = 1#32 then .ok .latchAe else .error .payload := rfl

/-- A level of 17 to 31 has its bit 4 and one of its low four bits set. -/
theorem level_gt_iff (p : Word) :
    17 ≤ (p.extractLsb' 8 5).toNat ↔ p.extractLsb' 12 1 ≠ 0#1 ∧ p.extractLsb' 8 4 ≠ 0#4 := by
  simp only [ne_eq, extractLsb'_eq_iff, BitVec.extractLsb'_toNat, Nat.shiftRight_eq_div_pow, BitVec.toNat_ofNat]
  omega

theorem upper31_ne_zero_iff (p : Word) : p.extractLsb' 1 31 ≠ 0#31 ↔ p ≠ 0#32 ∧ p ≠ 1#32 := by
  simp only [ne_eq, ← BitVec.toNat_inj, BitVec.extractLsb'_toNat, Nat.shiftRight_eq_div_pow, BitVec.toNat_ofNat]
  omega

theorem decodePort_error_iff {cls : BitVec 4} {p : Word} (hlo : 1 ≤ cls.toNat) (hhi : cls.toNat ≤ 6) :
    (∃ e, decodePort cls p = .error e) ↔
      (cls = 2#4 ∧ (p.extractLsb' 13 19 ≠ 0#19 ∨ 17 ≤ (p.extractLsb' 8 5).toNat))
      ∨ (cls = 3#4 ∧ p.extractLsb' 4 28 ≠ 0#28)
      ∨ ((cls = 4#4 ∨ cls = 5#4) ∧ p ≠ 0#32)
      ∨ (cls = 6#4 ∧ p.extractLsb' 1 31 ≠ 0#31) := by
  rw [level_gt_iff, upper31_ne_zero_iff]
  rcases port_cases hlo hhi with rfl | rfl | rfl | rfl | rfl | rfl
  · simp [decodePort_exec]
  · rw [decodePort_irq]
    split_ifs <;> simp_all
  · rw [decodePort_iack]
    split_ifs <;> simp_all
  · rw [decodePort_reset]
    split_ifs <;> simp_all
  · rw [decodePort_poweron]
    split_ifs <;> simp_all
  · rw [decodePort_latch]
    split_ifs <;> simp_all

/-- Settles O4: by the kind of the word. -/
theorem undecodableWords : Obligations.UndecodableWords := by
  intro cw wd cls p
  cases wordKind cw with
  | class8 htop =>
    have hc : 8 ≤ cls := (top_eq_one_iff cw).mp htop
    refine iff_of_false (fun ⟨e, he⟩ => ?_) (by omega)
    cases (decode_of_class8 wd htop).symm.trans he
  | class7 hcls =>
    have hc : cls = 7 := congrArg BitVec.toNat hcls
    simp [decode_of_class7 wd hcls, hc]
  | size3 hcls hsz =>
    have hc : cls = 0 := congrArg BitVec.toNat hcls
    simp [decode_of_size3 wd hcls hsz, hc, hsz]
  | bus n hcls hsz h32 =>
    have hc : cls = 0 := congrArg BitVec.toNat hcls
    have hb : cw.getLsbD 32 ≠ true := (getLsbD_eq_true_iff cw 32).not.mpr (by rw [h32]; decide)
    simp [decode_of_bus wd hcls hsz h32, hc, hb, -BitVec.getLsbD_eq_getElem]
  | bit32 hcls hsz h32 =>
    have hc : cls = 0 := congrArg BitVec.toNat hcls
    exact iff_of_true ⟨_, decode_of_bit32 wd hcls hsz h32⟩ (.inl ⟨hc, hsz, (getLsbD_eq_true_iff cw 32).mpr h32⟩)
  | port hlo hhi =>
    have hc (k : BitVec 4) : cw.extractLsb' 36 4 = k ↔ cls = k.toNat := BitVec.toNat_inj.symm
    have hlo' : 1 ≤ cls := hlo
    have hhi' : cls ≤ 6 := hhi
    have h0 : cls ≠ 0 := by omega
    rw [decode_of_port wd hlo hhi]
    split
    next hbits =>
      rw [decodePort_error_iff hlo hhi]
      simp [hc, h0, hbits, p]
    next hbits => simp [hbits, hlo', hhi']

end Sys2Proof
end

section
/-! PROOFS. The encoder (spec/30_encoding.md R90 to R98): it answers the word that a command was decoded from, and the
decoder answers the command that a word was encoded from. -/

namespace Sys2Proof

/-! ### The address classes -/

section
variable (wr : Bool) (n : Width) (a : BitVec 29) (wd : Word)

@[simp] theorem decodeBus_cached : decodeBus wr n (0b000#3 ++ a) wd = decodeCached wr n a wd := by
  simp only [decodeBus, address_class, address_low]

@[simp] theorem decodeBus_uncached : decodeBus wr n (0b001#3 ++ a) wd = decodeUncached wr n a wd := by
  simp only [decodeBus, address_class, address_low]

@[simp] theorem decodeBus_purge : decodeBus wr n (0b010#3 ++ a) wd = decodePurge wr n a wd := by
  simp only [decodeBus, address_class, address_low]

@[simp] theorem decodeBus_addressArray : decodeBus wr n (0b011#3 ++ a) wd = decodeAddressArray wr n a wd := by
  simp only [decodeBus, address_class, address_low]

@[simp] theorem decodeBus_dataArray : decodeBus wr n (0b110#3 ++ a) wd = decodeDataArray wr n a wd := by
  simp only [decodeBus, address_class, address_low]

@[simp] theorem decodeBus_onchip : decodeBus wr n (0b111#3 ++ a) wd = decodeOnchip wr n (0b111#3 ++ a) wd := by
  simp only [decodeBus, address_class]

end

@[simp] theorem decodeBus_reserved (wr : Bool) (n : Width) (a : BitVec 30) (wd : Word) :
    decodeBus wr n (0b10#2 ++ a) wd = decodeReserved wr n a wd := by
  rcases bit_cases (a.extractLsb' 29 1) with h | h <;> simp only [decodeBus, reserved_class, reserved_low, h] <;> rfl

/-- The classes whose rows fix A[31:29] alone, the reserved classes, and the onchip window (R100). -/
theorem class_cases (c : BitVec 3) :
    (c = 0#3 ∨ c = 1#3 ∨ c = 2#3 ∨ c = 3#3 ∨ c = 6#3) ∨ (c = 4#3 ∨ c = 5#3) ∨ c = 7#3 := by
  revert c
  decide

theorem reserved_split {p : Word} (h : p.extractLsb' 29 3 = 4#3 ∨ p.extractLsb' 29 3 = 5#3) :
    p = 0b10#2 ++ p.extractLsb' 0 30 := by
  have := p.isLt
  simp only [← BitVec.toNat_inj, toNat_append, BitVec.extractLsb'_toNat, Nat.shiftRight_eq_div_pow,
    BitVec.toNat_ofNat] at h ⊢
  omega

theorem notRegister_iff {n : Width} {a : BitVec 29} : notRegister n a = true ↔ 0b111#3 ++ a ∉ registerAddresses n := by
  simp [notRegister]

/-- Off the registers class 111 is REGRSV (R96, R99). -/
theorem decodeOnchip_rest (wr : Bool) {n : Width} {p : Word} (wd : Word) (h : p ∉ registerAddresses n) :
    decodeOnchip wr n p wd =
      if wr then .regrsvWr n (p.extractLsb' 0 29) wd else .regrsvRd n (p.extractLsb' 0 29) := by
  cases n <;> simp only [registerAddresses, List.mem_cons, List.not_mem_nil, or_false, not_or] at h <;> cases wr <;>
    simp [decodeOnchip, decodeOnchipReadLong, decodeOnchipWriteLong, h, Instr.regrsvRd, Instr.regrsvWr]

/-! ### What a BUS word decodes to -/

/-- `i` stands for the BUS word of an access: it is a command, it encodes to that word, with the write data of a write
and none of a read, and `mask` is the mask of its row (R92, R99). -/
structure Instr.StandsFor (i : Instr) (wr : Bool) (n : Width) (p wd : Word) (mask : BitVec 40) : Prop where
  wellFormed : i.wellFormed = true
  encode : encode i = (busWord wr n p, if wr then wd else 0#32)
  mask : i.row.mask = mask

section
variable (wr : Bool) (n : Width) {p : Word} (wd : Word)

theorem decodeBus_area (h : p.extractLsb' 29 3 = 0#3 ∨ p.extractLsb' 29 3 = 1#3 ∨ p.extractLsb' 29 3 = 2#3
      ∨ p.extractLsb' 29 3 = 3#3 ∨ p.extractLsb' 29 3 = 6#3) :
    (decodeBus wr n p wd).StandsFor wr n p wd 0xFFE0000000#40 := by
  rw [address_split p]
  generalize p.extractLsb' 0 29 = a
  rcases h with h | h | h | h | h <;> simp only [h, decodeBus_cached, decodeBus_uncached, decodeBus_purge,
    decodeBus_addressArray, decodeBus_dataArray] <;> cases wr <;> cases n <;>
    exact ⟨rfl, Prod.ext (append_word _ _ _) rfl, rfl⟩

theorem decodeBus_reservedClass (h : p.extractLsb' 29 3 = 4#3 ∨ p.extractLsb' 29 3 = 5#3) :
    (decodeBus wr n p wd).StandsFor wr n p wd 0xFFC0000000#40 := by
  rw [reserved_split h, decodeBus_reserved]
  cases wr <;> cases n <;> exact ⟨rfl, Prod.ext (append_reserved _ _ _) rfl, rfl⟩

theorem decodeOnchip_register (h : p ∈ registerAddresses n) :
    (decodeOnchip wr n p wd).StandsFor wr n p wd (BitVec.allOnes 40) := by
  cases n with
  | byte | word =>
    obtain rfl : p = _ := List.mem_singleton.mp h
    cases wr <;> exact ⟨rfl, rfl, rfl⟩
  | long =>
    simp only [registerAddresses, List.mem_cons, List.not_mem_nil, or_false] at h
    rcases h with rfl | rfl | rfl | rfl | rfl | rfl | rfl | rfl | rfl | rfl | rfl <;> cases wr <;>
      exact ⟨rfl, rfl, rfl⟩

theorem decodeOnchip_regrsv {a : BitVec 29} (h : 0b111#3 ++ a ∉ registerAddresses n) :
    (decodeOnchip wr n (0b111#3 ++ a) wd).StandsFor wr n (0b111#3 ++ a) wd 0xFFE0000000#40 := by
  rw [decodeOnchip_rest wr wd h, address_low]
  cases wr <;> cases n <;> exact ⟨notRegister_iff.mpr h, Prod.ext (append_word _ _ _) rfl, rfl⟩

theorem decodeBus_onchipClass (h : p.extractLsb' 29 3 = 7#3) :
    (decodeBus wr n p wd).StandsFor wr n p wd (BitVec.allOnes 40)
      ∨ (decodeBus wr n p wd).StandsFor wr n p wd 0xFFE0000000#40 := by
  rw [address_split p, h, decodeBus_onchip]
  by_cases hr : 0b111#3 ++ p.extractLsb' 0 29 ∈ registerAddresses n
  · exact .inl (decodeOnchip_register wr n wd hr)
  · exact .inr (decodeOnchip_regrsv wr n wd hr)

variable (p) in
theorem exists_decodeBus_standsFor : ∃ mask, (decodeBus wr n p wd).StandsFor wr n p wd mask := by
  rcases class_cases (p.extractLsb' 29 3) with harea | hrsv | honchip
  · exact ⟨_, decodeBus_area wr n wd harea⟩
  · exact ⟨_, decodeBus_reservedClass wr n wd hrsv⟩
  · rcases decodeBus_onchipClass wr n wd honchip with h | h <;> exact ⟨_, h⟩

end

/-! ### A word is put together again from its fields -/

theorem kindByte_of_fields {k : BitVec 8} {n : Width} (hcls : k.extractLsb' 4 4 = 0#4)
    (hsz : widthOf (k.extractLsb' 1 2) = some n) (h32 : k.extractLsb' 0 1 = 0#1) :
    k = kindByte (k.extractLsb' 3 1 = 1#1) n := by
  cases n <;> revert k <;> decide

theorem busWord_of_fields {cw : BitVec 40} {n : Width} (hcls : cw.extractLsb' 36 4 = 0#4)
    (hsz : widthOf (cw.extractLsb' 33 2) = some n) (h32 : cw.extractLsb' 32 1 = 0#1) :
    cw = busWord (cw.extractLsb' 35 1 = 1#1) n (cw.extractLsb' 0 32) := by
  obtain ⟨k, p, rfl⟩ : ∃ (k : BitVec 8) (p : Word), cw = k ++ p := ⟨_, _, word_split cw⟩
  rw [word_cls] at hcls
  rw [word_sz] at hsz
  rw [word_bit32] at h32
  rw [word_rw, word_payload, busWord, ← kindByte_of_fields hcls hsz h32]

section
variable {cw : BitVec 40}

theorem class8_word (htop : cw.extractLsb' 39 1 = 1#1) : (0b1#1 ++ cw.extractLsb' 0 39 : BitVec 40) = cw := by
  simp only [← BitVec.toNat_inj, toNat_append, BitVec.extractLsb'_toNat, Nat.shiftRight_eq_div_pow,
    BitVec.toNat_ofNat] at htop ⊢
  omega

theorem class7_word (hcls : cw.extractLsb' 36 4 = 7#4) : (0x7#4 ++ cw.extractLsb' 0 36 : BitVec 40) = cw := by
  simp only [← BitVec.toNat_inj, toNat_append, BitVec.extractLsb'_toNat, Nat.shiftRight_eq_div_pow,
    BitVec.toNat_ofNat] at hcls ⊢
  omega

theorem size3_word (hcls : cw.extractLsb' 36 4 = 0#4) (hsz : cw.extractLsb' 33 2 = 3#2) :
    (0x0#4 ++ cw.extractLsb' 35 1 ++ 0b11#2 ++ cw.extractLsb' 0 33 : BitVec 40) = cw := by
  simp only [← BitVec.toNat_inj, toNat_append, BitVec.extractLsb'_toNat, Nat.shiftRight_eq_div_pow,
    BitVec.toNat_ofNat] at hcls hsz ⊢
  omega

theorem port_word (hbits : cw.extractLsb' 32 4 = 0#4) :
    (cw.extractLsb' 36 4 ++ 0#4 ++ cw.extractLsb' 0 32 : BitVec 40) = cw := by
  simp only [← BitVec.toNat_inj, toNat_append, BitVec.extractLsb'_toNat, Nat.shiftRight_eq_div_pow,
    BitVec.toNat_ofNat] at hbits ⊢
  omega

end

section
variable {p : Word}

theorem irq_word (h13 : p.extractLsb' 13 19 = 0#19) (h12 : p.extractLsb' 12 1 = 0#1) :
    (0x2000000#28 ++ p.extractLsb' 8 4 ++ p.extractLsb' 0 8 : BitVec 40) = 2#4 ++ 0#4 ++ p := by
  simp only [← BitVec.toNat_inj, toNat_append, BitVec.extractLsb'_toNat, Nat.shiftRight_eq_div_pow,
    BitVec.toNat_ofNat] at h13 h12 ⊢
  omega

theorem irqNmi_word (h13 : p.extractLsb' 13 19 = 0#19) (h12 : p.extractLsb' 12 1 ≠ 0#1) (h8 : p.extractLsb' 8 4 = 0#4) :
    (0x20000010#32 ++ p.extractLsb' 0 8 : BitVec 40) = 2#4 ++ 0#4 ++ p := by
  simp only [ne_eq, ← BitVec.toNat_inj, toNat_append, BitVec.extractLsb'_toNat, Nat.shiftRight_eq_div_pow,
    BitVec.toNat_ofNat] at h13 h12 h8 ⊢
  omega

theorem iack_word (h4 : p.extractLsb' 4 28 = 0#28) :
    (0x300000000#36 ++ p.extractLsb' 0 4 : BitVec 40) = 3#4 ++ 0#4 ++ p := by
  simp only [← BitVec.toNat_inj, toNat_append, BitVec.extractLsb'_toNat, Nat.shiftRight_eq_div_pow,
    BitVec.toNat_ofNat] at h4 ⊢
  omega

end

theorem encode_decodePort {cls : BitVec 4} {p : Word} {i : Instr} (hlo : 1 ≤ cls.toNat) (hhi : cls.toNat ≤ 6)
    (h : decodePort cls p = .ok i) : i.wellFormed = true ∧ encode i = (cls ++ 0#4 ++ p, 0#32) := by
  rcases port_cases hlo hhi with rfl | rfl | rfl | rfl | rfl | rfl
  · cases h
    exact ⟨rfl, rfl⟩
  · rw [decodePort_irq] at h
    split_ifs at h with h13 h12 h8 <;> cases h
    · exact ⟨rfl, Prod.ext (irq_word (not_not.mp h13) h12) rfl⟩
    · exact ⟨rfl, Prod.ext (irqNmi_word (not_not.mp h13) h12 h8) rfl⟩
  · rw [decodePort_iack] at h
    split_ifs at h with h4
    cases h
    exact ⟨rfl, Prod.ext (iack_word h4) rfl⟩
  · rw [decodePort_reset] at h
    split_ifs at h with h0
    cases h
    subst h0
    exact ⟨rfl, rfl⟩
  · rw [decodePort_poweron] at h
    split_ifs at h with h0
    cases h
    subst h0
    exact ⟨rfl, rfl⟩
  · rw [decodePort_latch] at h
    split_ifs at h with h0 h1 <;> cases h
    · subst h0
      exact ⟨rfl, rfl⟩
    · subst h1
      exact ⟨rfl, rfl⟩

/-- Settles O2: by the kind of the word, and for a BUS word by its address class. -/
theorem encodeOfDecode : Obligations.EncodeOfDecode := by
  intro cw wd i h
  cases wordKind cw with
  | class8 htop =>
    rw [decode_of_class8 wd htop] at h
    cases h
    have hcls : cw.extractLsb' 36 4 ≠ 0#4 := fun h0 => by simp [top_eq_one_iff, h0] at htop
    exact ⟨rfl, class8_word htop, by simp [encode, hcls]⟩
  | class7 hcls =>
    rw [decode_of_class7 wd hcls] at h
    cases h
    exact ⟨rfl, class7_word hcls, by simp [encode, hcls]⟩
  | size3 hcls hsz =>
    rw [decode_of_size3 wd hcls hsz] at h
    cases h
    exact ⟨rfl, size3_word hcls hsz, by simp [encode, hsz]⟩
  | bus n hcls hsz h32 =>
    rw [decode_of_bus wd hcls hsz h32] at h
    cases h
    obtain ⟨mask, hwf, henc, -⟩ := exists_decodeBus_standsFor (cw.extractLsb' 35 1 = 1#1) n (cw.extractLsb' 0 32) wd
    have hsz3 : cw.extractLsb' 33 2 ≠ 3#2 := fun h3 => by simp [h3, widthOf] at hsz
    refine ⟨hwf, ?_, ?_⟩
    · rw [henc, ← busWord_of_fields hcls hsz h32]
    · rw [henc]
      simp only [hcls, hsz3, getLsbD_eq_true_iff, true_and, ne_eq, not_false_eq_true, and_true, decide_eq_true_eq]
  | bit32 hcls hsz h32 =>
    rw [decode_of_bit32 wd hcls hsz h32] at h
    cases h
  | port hlo hhi =>
    rw [decode_of_port wd hlo hhi] at h
    split_ifs at h with hbits
    obtain ⟨hwf, henc⟩ := encode_decodePort hlo hhi h
    have hcls : cw.extractLsb' 36 4 ≠ 0#4 := fun h0 => by simp [h0] at hlo
    exact ⟨hwf, by rw [henc, port_word hbits], by simp [henc, hcls]⟩

/-! ### What an encoded word decodes to -/

theorem decode_class8 (low : BitVec 39) (wd : Word) : decode (0b1#1 ++ low) wd = .ok (.clsRsv8 low) := by
  have := low.isLt
  have htop : (0b1#1 ++ low : BitVec 40).extractLsb' 39 1 = 1#1 := by
    simp only [extractLsb'_eq_iff, toNat_append, BitVec.toNat_ofNat]
    omega
  have hlow : (0b1#1 ++ low : BitVec 40).extractLsb' 0 39 = low := by
    simp only [extractLsb'_eq_iff, toNat_append]
    omega
  rw [decode_of_class8 wd htop, hlow]

theorem decode_class7 (low : BitVec 36) (wd : Word) : decode (0x7#4 ++ low) wd = .ok (.clsRsv7 low) := by
  have := low.isLt
  have hcls : (0x7#4 ++ low : BitVec 40).extractLsb' 36 4 = 7#4 := by
    simp only [extractLsb'_eq_iff, toNat_append, BitVec.toNat_ofNat]
    omega
  have hlow : (0x7#4 ++ low : BitVec 40).extractLsb' 0 36 = low := by
    simp only [extractLsb'_eq_iff, toNat_append]
    omega
  rw [decode_of_class7 wd hcls, hlow]

/-- The fields of a BUS.SZ3 word: class, size, direction and the rest. -/
theorem size3_fields (dir : BitVec 1) (low : BitVec 33) :
    (0x0#4 ++ dir ++ 0b11#2 ++ low : BitVec 40).extractLsb' 36 4 = 0#4
      ∧ (0x0#4 ++ dir ++ 0b11#2 ++ low : BitVec 40).extractLsb' 33 2 = 3#2
      ∧ (0x0#4 ++ dir ++ 0b11#2 ++ low : BitVec 40).extractLsb' 35 1 = dir
      ∧ (0x0#4 ++ dir ++ 0b11#2 ++ low : BitVec 40).extractLsb' 0 33 = low := by
  have := low.isLt
  have := dir.isLt
  simp only [extractLsb'_eq_iff, toNat_append, BitVec.toNat_ofNat]
  omega

theorem decode_size3 (dir : BitVec 1) (low : BitVec 33) (wd : Word) :
    decode (0x0#4 ++ dir ++ 0b11#2 ++ low) wd = .ok (.busSz3 dir low) := by
  obtain ⟨hcls, hsz, hdir, hlow⟩ := size3_fields dir low
  rw [decode_of_size3 wd hcls hsz, hdir, hlow]

theorem decode_port {cls : BitVec 4} (p wd : Word) (hlo : 1 ≤ cls.toNat) (hhi : cls.toNat ≤ 6) :
    decode (cls ++ 0#4 ++ p) wd = decodePort cls p := by
  have := p.isLt
  have := cls.isLt
  have hcls : (cls ++ 0#4 ++ p : BitVec 40).extractLsb' 36 4 = cls := by
    simp only [extractLsb'_eq_iff, toNat_append, BitVec.toNat_ofNat]
    omega
  have hbits : (cls ++ 0#4 ++ p : BitVec 40).extractLsb' 32 4 = 0#4 := by
    simp only [extractLsb'_eq_iff, toNat_append, BitVec.toNat_ofNat]
    omega
  rw [decode_of_port wd (hcls.symm ▸ hlo) (hcls.symm ▸ hhi), if_pos hbits, hcls, word_payload]

/-- The fields of an IRQ payload: bits 31..13, bit 4 of the level, its low four bits, and the vector (R98). -/
theorem irq_fields (hi : BitVec 20) (lv : BitVec 4) (v : BitVec 8) :
    (hi ++ lv ++ v : Word).extractLsb' 13 19 = hi.extractLsb' 1 19
      ∧ (hi ++ lv ++ v : Word).extractLsb' 12 1 = hi.extractLsb' 0 1
      ∧ (hi ++ lv ++ v : Word).extractLsb' 8 4 = lv ∧ (hi ++ lv ++ v : Word).extractLsb' 0 8 = v := by
  have := lv.isLt
  have := v.isLt
  simp only [extractLsb'_eq_iff, toNat_append, BitVec.extractLsb'_toNat, Nat.shiftRight_eq_div_pow]
  omega

theorem decode_irqWord (hi : BitVec 20) (lv : BitVec 4) (v : BitVec 8) (wd : Word) :
    decode (0x20#8 ++ hi ++ lv ++ v) wd =
      if hi.extractLsb' 1 19 ≠ 0#19 then .error .payload
      else if hi.extractLsb' 0 1 = 0#1 then .ok (.irq v lv)
      else if lv = 0#4 then .ok (.irqNmi v)
      else .error .level := by
  obtain ⟨h13, h12, h8, h0⟩ := irq_fields hi lv v
  have hword : (0x20#8 ++ hi ++ lv ++ v : BitVec 40) = 2#4 ++ 0#4 ++ (hi ++ lv ++ v : Word) := by
    simp only [← BitVec.toNat_inj, toNat_append, BitVec.toNat_ofNat]
    omega
  rw [hword, decode_port _ wd (by decide) (by decide), decodePort_irq, h13, h12, h8, h0]

theorem decode_iackWord (m : BitVec 4) (wd : Word) : decode (0x300000000#36 ++ m) wd = .ok (.iack m) := by
  have := m.isLt
  have hword : (0x300000000#36 ++ m : BitVec 40) = 3#4 ++ 0#4 ++ (0#28 ++ m : Word) := by
    simp only [← BitVec.toNat_inj, toNat_append, BitVec.toNat_ofNat]
    omega
  have h4 : (0#28 ++ m : Word).extractLsb' 4 28 = 0#28 := by
    simp only [extractLsb'_eq_iff, toNat_append, BitVec.toNat_ofNat]
    omega
  have h0 : (0#28 ++ m : Word).extractLsb' 0 4 = m := by
    simp only [extractLsb'_eq_iff, toNat_append]
    omega
  rw [hword, decode_port _ wd (by decide) (by decide), decodePort_iack, if_pos h4, h0]

/-- Settles O1: a row with an address decodes by kind byte and class, a REGRSV row because it is well formed, a register
at its one word, and the others by the lemma of their word. Simp keeps kind byte and class apart, or it would evaluate
them to one number and the class would be lost. -/
theorem decodeOfEncode : Obligations.DecodeOfEncode := by
  intro i hi
  cases i with
  | crdB a | crdW a | crdL a | cwrB a wd | cwrW a wd | cwrL a wd
  | urdB a | urdW a | urdL a | uwrB a wd | uwrW a wd | uwrL a wd
  | purgeB a wd | purgeW a wd | purgeL a wd | prdB a | prdW a | prdL a
  | aardL a | aawrL a wd | aardB a | aardW a | aawrB a wd | aawrW a wd
  | dardB a | dardW a | dardL a | dawrB a wd | dawrW a wd | dawrL a wd =>
    simp [-BitVec.reduceAppend, encode, append_word, decode_append, widthOf, decodeCached, decodeUncached, decodePurge,
      decodeAddressArray, decodeDataArray]
  | rsvrdB a | rsvrdW a | rsvrdL a | rsvwrB a wd | rsvwrW a wd | rsvwrL a wd =>
    simp [-BitVec.reduceAppend, encode, append_reserved, decode_append, widthOf, decodeReserved]
  | regrsvRdB a | regrsvRdW a | regrsvRdL a | regrsvWrB a wd | regrsvWrW a wd | regrsvWrL a wd =>
    have hr := notRegister_iff.mp hi
    simp [-BitVec.reduceAppend, encode, append_word, decode_append, widthOf, decodeOnchip_rest _ _ hr, Instr.regrsvRd,
      Instr.regrsvWr, address_low]
  | rdSar0 | rdDar0 | rdTcr0 | rdChcr0 | rdSar1 | rdDar1 | rdTcr1 | rdChcr1 | rdVcrdma0 | rdVcrdma1 | rdDmaor | rdCcr
  | rdIpra | reset | poweron | latchNmif | latchAe => rfl
  | wrSar0 wd | wrDar0 wd | wrTcr0 wd | wrChcr0 wd | wrSar1 wd | wrDar1 wd | wrTcr1 wd | wrChcr1 wd | wrVcrdma0 wd
  | wrVcrdma1 wd | wrDmaor wd | wrCcr wd | wrIpra wd =>
    simp [encode, decode, widthOf, decodeBus, decodeOnchip, decodeOnchipWriteLong]
  | execPass c => exact decode_port (cls := 1#4) c 0#32 (by decide) (by decide)
  | irq v lv => exact decode_irqWord 0#20 lv v 0#32
  | irqNmi v => exact decode_irqWord 1#20 0#4 v 0#32
  | iack m => exact decode_iackWord m 0#32
  | busSz3 dir low => exact decode_size3 dir low 0#32
  | clsRsv7 low => exact decode_class7 low 0#32
  | clsRsv8 low => exact decode_class8 low 0#32

/-- Settles O5: the decoder evaluates on each word. -/
theorem specWordsDecode : Obligations.SpecWordsDecode :=
  ⟨rfl, rfl, rfl, rfl, rfl, rfl, rfl, rfl, rfl, rfl, rfl, rfl, rfl, rfl, rfl, rfl⟩

end Sys2Proof
end

section
/-! PROOFS. The rows of the opcode table (spec/30_encoding.md R99). A command's row matches its word; a word that a row
matches decodes, to a command of a row with the same mask or to the register at the address; and rows with equal masks
that match one word are one row. -/

namespace Sys2Proof

/-! ### Rows and masks -/

theorem Row.hits_iff (r : Row) (cw : BitVec 40) : r.hits cw = true ↔ cw &&& r.mask = r.pattern := by
  rw [Row.hits, beq_iff_eq]

theorem Row.eq_of_hits {r r' : Row} {cw : BitVec 40} (h : r.hits cw = true) (h' : r'.hits cw = true)
    (hm : r.mask = r'.mask) : r = r' := by
  rw [Row.hits_iff] at h h'
  cases r
  cases r'
  simp_all

/-- A word that a row matches has the pattern's value in every field that the mask covers. -/
theorem Row.hits_field {pattern mask cw : BitVec 40} (h : Row.hits ⟨pattern, mask⟩ cw = true) (start len : Nat)
    (hm : mask.extractLsb' start len = BitVec.allOnes len) :
    cw.extractLsb' start len = pattern.extractLsb' start len := by
  have hp : cw &&& mask = pattern := (Row.hits_iff _ cw).mp h
  rw [← hp, BitVec.extractLsb'_and, hm, BitVec.and_allOnes]

/-- A row whose mask leaves out the low `k` bits matches the word that has the pattern above them. -/
theorem Row.hits_of_append {r : Row} {cw : BitVec 40} {k x : Nat} (y : BitVec k) (hcw : cw.toNat = x * 2 ^ k + y.toNat)
    (hm : r.mask = BitVec.allOnes 40 <<< k) (hp : r.pattern.toNat = x * 2 ^ k) : r.hits cw = true := by
  rw [Row.hits_iff, hm, ← BitVec.shiftLeft_ushiftRight]
  apply BitVec.eq_of_toNat_eq
  have hx : cw.toNat / 2 ^ k = x := by
    rw [hcw, Nat.mul_comm, Nat.mul_add_div (by positivity), Nat.div_eq_of_lt y.isLt, Nat.add_zero]
  rw [BitVec.toNat_shiftLeft, BitVec.toNat_ushiftRight, Nat.shiftLeft_eq, Nat.shiftRight_eq_div_pow, hx, ← hp]
  exact Nat.mod_eq_of_lt r.pattern.isLt

theorem Row.hits_pattern {r : Row} (hm : r.mask = BitVec.allOnes 40) : r.hits r.pattern = true := by
  rw [Row.hits_iff, hm, BitVec.and_allOnes]

theorem Row.eq_pattern {r : Row} {cw : BitVec 40} (hm : r.mask = BitVec.allOnes 40) (h : r.hits cw = true) :
    cw = r.pattern := by
  rw [← (Row.hits_iff r cw).mp h, hm, BitVec.and_allOnes]

theorem Row.weight_of_full {r : Row} (hm : r.mask = BitVec.allOnes 40) : r.weight = 40 := by
  rw [Row.weight, hm]
  rfl

theorem Row.weight_of_class {r : Row} (hm : r.mask = 0xFFE0000000#40) : r.weight = 11 := by
  rw [Row.weight, hm]
  rfl

/-! ### A command's row matches its word -/

theorem row_hits_encode (i : Instr) : i.row.hits (encode i).1 = true := by
  cases i with
  | crdB a | crdW a | crdL a | cwrB a wd | cwrW a wd | cwrL a wd
  | urdB a | urdW a | urdL a | uwrB a wd | uwrW a wd | uwrL a wd
  | purgeB a wd | purgeW a wd | purgeL a wd | prdB a | prdW a | prdL a
  | aardL a | aawrL a wd | aardB a | aardW a | aawrB a wd | aawrW a wd
  | dardB a | dardW a | dardL a | dawrB a wd | dawrW a wd | dawrL a wd
  | rsvrdB a | rsvrdW a | rsvrdL a | rsvwrB a wd | rsvwrW a wd | rsvwrL a wd
  | regrsvRdB a | regrsvRdW a | regrsvRdL a | regrsvWrB a wd | regrsvWrW a wd | regrsvWrL a wd
  | execPass a | irqNmi a | iack a | clsRsv7 a | clsRsv8 a =>
    exact Row.hits_of_append a (toNat_append _ _ _ a) rfl rfl
  | irq v lv =>
    refine Row.hits_of_append (x := (0x2000000#28).toNat) (lv ++ v) ?_ rfl rfl
    simp only [encode, toNat_append]
    omega
  | busSz3 dir low =>
    have h : (0x0#4 ++ dir ++ 0b11#2 ++ low : BitVec 40) &&& (0xF#4 ++ 0#1 ++ 3#2 ++ 0#33)
        = 0#4 ++ 0#1 ++ 3#2 ++ 0#33 := by
      rw [BitVec.and_append, BitVec.and_append, BitVec.and_append]
      simp
    exact (Row.hits_iff _ _).mpr h
  | _ => exact Row.hits_pattern rfl

theorem row_hits_decode {cw : BitVec 40} {wd : Word} {i : Instr} (h : decode cw wd = .ok i) : i.row.hits cw = true := by
  obtain ⟨-, henc, -⟩ := encodeOfDecode cw wd i h
  exact henc ▸ row_hits_encode i

/-! ### A word that a row matches decodes -/

/-- The command `i` of a word that the row `r` matches is of a row with `r`'s mask, or is the register at an address
that `r`, a REGRSV row, holds too (R99). -/
def Row.AnsweredBy (r : Row) (cw : BitVec 40) (i : Instr) : Prop :=
  i.row.mask = r.mask ∨ i.row.mask = BitVec.allOnes 40 ∧ r.mask = 0xFFE0000000#40 ∧ cw.extractLsb' 29 3 = 0b111#3

section
variable {cw : BitVec 40} (wd : Word)

theorem decode_of_busFields (hcls : cw.extractLsb' 36 4 = 0#4) (hsz : cw.extractLsb' 33 2 ≠ 3#2)
    (h32 : cw.extractLsb' 32 1 = 0#1) : ∃ wr n, decode cw wd = .ok (decodeBus wr n (cw.extractLsb' 0 32) wd) := by
  cases hn : widthOf (cw.extractLsb' 33 2) with
  | none => exact absurd ((widthOf_eq_none_iff _).mp hn) hsz
  | some n => exact ⟨_, n, decode_of_bus wd hcls hn h32⟩

theorem decode_of_portFields {cls : BitVec 4} (hcls : cw.extractLsb' 36 4 = cls) (hbits : cw.extractLsb' 32 4 = 0#4)
    (hlo : 1 ≤ cls.toNat) (hhi : cls.toNat ≤ 6) : decode cw wd = decodePort cls (cw.extractLsb' 0 32) := by
  subst hcls
  rw [decode_of_port wd hlo hhi, if_pos hbits]

theorem decode_of_hits_class {r : Row} (h : r.hits cw = true) (hm : r.mask = 0xFFE0000000#40)
    (hp : r.pattern.extractLsb' 36 4 = 0#4 ∧ r.pattern.extractLsb' 33 2 ≠ 3#2 ∧ r.pattern.extractLsb' 32 1 = 0#1
      ∧ ¬ (r.pattern.extractLsb' 29 3 = 4#3 ∨ r.pattern.extractLsb' 29 3 = 5#3)) :
    ∃ i, decode cw wd = .ok i ∧ r.AnsweredBy cw i := by
  have hfield := Row.hits_field (pattern := r.pattern) (mask := r.mask) h
  rw [hm] at hfield
  rw [← hfield 36 4 rfl, ← hfield 33 2 rfl, ← hfield 32 1 rfl, ← hfield 29 3 rfl] at hp
  obtain ⟨hcls, hsz, h32, hres⟩ := hp
  obtain ⟨wr, n, hd⟩ := decode_of_busFields wd hcls hsz h32
  have hpay : (cw.extractLsb' 0 32).extractLsb' 29 3 = cw.extractLsb' 29 3 :=
    BitVec.extractLsb'_extractLsb'_of_le (by decide)
  refine ⟨_, hd, ?_⟩
  rcases class_cases (cw.extractLsb' 29 3) with harea | hres' | honchip
  · exact .inl ((decodeBus_area wr n wd (by rwa [hpay])).mask.trans hm.symm)
  · exact absurd hres' hres
  · rcases decodeBus_onchipClass wr n wd (hpay.trans honchip) with hi | hi
    · exact .inr ⟨hi.mask, hm, honchip⟩
    · exact .inl (hi.mask.trans hm.symm)

theorem decode_of_hits_reserved {r : Row} (h : r.hits cw = true) (hm : r.mask = 0xFFC0000000#40)
    (hp : r.pattern.extractLsb' 36 4 = 0#4 ∧ r.pattern.extractLsb' 33 2 ≠ 3#2 ∧ r.pattern.extractLsb' 32 1 = 0#1
      ∧ r.pattern.extractLsb' 30 2 = 2#2) :
    ∃ i, decode cw wd = .ok i ∧ r.AnsweredBy cw i := by
  have hfield := Row.hits_field (pattern := r.pattern) (mask := r.mask) h
  rw [hm] at hfield
  rw [← hfield 36 4 rfl, ← hfield 33 2 rfl, ← hfield 32 1 rfl, ← hfield 30 2 rfl] at hp
  obtain ⟨hcls, hsz, h32, hres⟩ := hp
  obtain ⟨wr, n, hd⟩ := decode_of_busFields wd hcls hsz h32
  have hclass : (cw.extractLsb' 0 32).extractLsb' 29 3 = 4#3 ∨ (cw.extractLsb' 0 32).extractLsb' 29 3 = 5#3 := by
    rw [BitVec.extractLsb'_extractLsb'_of_le (by decide)]
    simp only [extractLsb'_eq_iff, BitVec.toNat_ofNat] at hres ⊢
    omega
  exact ⟨_, hd, .inl ((decodeBus_reservedClass wr n wd hclass).mask.trans hm.symm)⟩

theorem decode_of_hits {j : Instr} (h : j.row.hits cw = true) : ∃ i, decode cw wd = .ok i ∧ j.row.AnsweredBy cw i := by
  cases j with
  | crdB | crdW | crdL | cwrB | cwrW | cwrL | urdB | urdW | urdL | uwrB | uwrW | uwrL
  | purgeB | purgeW | purgeL | prdB | prdW | prdL | aardL | aawrL | aardB | aardW | aawrB | aawrW
  | dardB | dardW | dardL | dawrB | dawrW | dawrL
  | regrsvRdB | regrsvRdW | regrsvRdL | regrsvWrB | regrsvWrW | regrsvWrL =>
    exact decode_of_hits_class wd h rfl (by simp [Instr.row])
  | rsvrdB | rsvrdW | rsvrdL | rsvwrB | rsvwrW | rsvwrL =>
    exact decode_of_hits_reserved wd h rfl (by simp [Instr.row])
  | execPass =>
    have hd := decode_of_portFields (cls := 1#4) wd (Row.hits_field h 36 4 rfl) (Row.hits_field h 32 4 rfl)
      (by decide) (by decide)
    exact ⟨_, hd, .inl rfl⟩
  | irq =>
    have hd := decode_of_portFields (cls := 2#4) wd (Row.hits_field h 36 4 rfl) (Row.hits_field h 32 4 rfl)
      (by decide) (by decide)
    have h13 : cw.extractLsb' 13 19 = 0#19 := Row.hits_field h 13 19 rfl
    have h12 : cw.extractLsb' 12 1 = 0#1 := Row.hits_field h 12 1 rfl
    refine ⟨.irq (cw.extractLsb' 0 8) (cw.extractLsb' 8 4), ?_, .inl rfl⟩
    simp [hd, decodePort_irq, BitVec.extractLsb'_extractLsb'_of_le, h13, h12]
  | irqNmi =>
    have hd := decode_of_portFields (cls := 2#4) wd (Row.hits_field h 36 4 rfl) (Row.hits_field h 32 4 rfl)
      (by decide) (by decide)
    have h13 : cw.extractLsb' 13 19 = 0#19 := Row.hits_field h 13 19 rfl
    have h12 : cw.extractLsb' 12 1 = 1#1 := Row.hits_field h 12 1 rfl
    have h8 : cw.extractLsb' 8 4 = 0#4 := Row.hits_field h 8 4 rfl
    refine ⟨.irqNmi (cw.extractLsb' 0 8), ?_, .inl rfl⟩
    simp [hd, decodePort_irq, BitVec.extractLsb'_extractLsb'_of_le, h13, h12, h8]
  | iack =>
    have hd := decode_of_portFields (cls := 3#4) wd (Row.hits_field h 36 4 rfl) (Row.hits_field h 32 4 rfl)
      (by decide) (by decide)
    have h4 : cw.extractLsb' 4 28 = 0#28 := Row.hits_field h 4 28 rfl
    refine ⟨.iack (cw.extractLsb' 0 4), ?_, .inl rfl⟩
    simp [hd, decodePort_iack, BitVec.extractLsb'_extractLsb'_of_le, h4]
  | busSz3 => exact ⟨_, decode_of_size3 wd (Row.hits_field h 36 4 rfl) (Row.hits_field h 33 2 rfl), .inl rfl⟩
  | clsRsv7 => exact ⟨_, decode_of_class7 wd (Row.hits_field h 36 4 rfl), .inl rfl⟩
  | clsRsv8 => exact ⟨_, decode_of_class8 wd (Row.hits_field h 39 1 rfl), .inl rfl⟩
  | _ =>
    obtain rfl := Row.eq_pattern rfl h
    simp only [Instr.row]
    exact ⟨_, rfl, .inl rfl⟩

end

/-- Settles O3: two rows that match one word are both answered by the one command that the word decodes to. -/
theorem heaviestRowDecodes : Obligations.HeaviestRowDecodes := by
  refine ⟨fun cw wd i hi => ⟨row_hits_decode hi, fun j hj hne => ?_⟩, fun cw wd e he j => ?_,
    fun cw i j hi hj hne => ?_⟩
  · obtain ⟨i', hi', hans⟩ := decode_of_hits wd hj
    obtain rfl : i = i' := Except.ok.inj (hi.symm.trans hi')
    rcases hans with hm | ⟨hm, hmj, -⟩
    · exact absurd (Row.eq_of_hits hj (row_hits_decode hi) hm.symm) hne
    · rw [Row.weight_of_full hm, Row.weight_of_class hmj]
      decide
  · by_contra hj
    obtain ⟨i, hi, -⟩ := decode_of_hits wd (Bool.eq_true_of_not_eq_false hj)
    cases he.symm.trans hi
  · obtain ⟨k, hk, hki⟩ := decode_of_hits 0#32 hi
    obtain ⟨k', hk', hkj⟩ := decode_of_hits 0#32 hj
    obtain rfl : k = k' := Except.ok.inj (hk.symm.trans hk')
    rcases hki with hmi | ⟨hfull, hmi, hclass⟩ <;> rcases hkj with hmj | ⟨hfull, hmj, hclass⟩
    · exact absurd (Row.eq_of_hits hi hj (hmi.symm.trans hmj)) hne
    · exact .inl ⟨Row.weight_of_full (hmi.symm.trans hfull), hmj, hclass⟩
    · exact .inr ⟨Row.weight_of_full (hmj.symm.trans hfull), hmi, hclass⟩
    · exact absurd (Row.eq_of_hits hi hj (hmi.trans hmj.symm)) hne

end Sys2Proof
end

section
/-! PROOFS. The admitted set (spec/30_encoding.md R102, spec/60_exceptions.md R250, spec/70_reset_and_hazards.md R280):
which commands complete, and what a step and the undecodable rows refuse. -/

namespace Sys2Proof.Machine

theorem admitted_aligned {i : Instr} {n : Width} {a : Word} (h : admitted i = true) (hi : busAccess i = some (n, a)) :
    aligned n a = true := by
  unfold admitted at h
  split at h
  · cases h
  · cases h
  · cases h
  · simpa [hi] using (Bool.and_eq_true_iff.mp h).2

theorem execWrCcr_completes (wd : Word) (s : State) : ∃ t, execWrCcr wd s = .next t := by
  unfold execWrCcr
  dsimp only
  split <;> exact ⟨_, rfl⟩

theorem execIack_completes (m : BitVec 4) (s : State) : ∃ t, execIack m s = .next t := by
  unfold execIack
  split <;> exact ⟨_, rfl⟩

/-- Settles O11: an admitted command with an address is aligned and ends as its shared meaning does; the others have no
guard. -/
theorem admittedCommandsComplete : Obligations.AdmittedCommandsComplete := by
  intro i s h
  cases i with
  | crdB | crdW | crdL => exact ⟨_, cachedRead_eq (admitted_aligned h rfl)⟩
  | cwrB | cwrW | cwrL => exact ⟨_, cachedWrite_eq (admitted_aligned h rfl)⟩
  | urdB | urdW | urdL => exact ⟨_, uncachedRead_eq (admitted_aligned h rfl)⟩
  | uwrB | uwrW | uwrL => exact ⟨_, uncachedWrite_eq (admitted_aligned h rfl)⟩
  | purgeB | purgeW | purgeL => exact ⟨_, purgeWrite_eq (admitted_aligned h rfl)⟩
  | prdB | prdW | prdL => exact ⟨_, purgeRead_eq (admitted_aligned h rfl)⟩
  | aardL | aawrL => exact ⟨_, guardAligned_of_aligned (admitted_aligned h rfl)⟩
  | aardB | aardW => exact ⟨_, addressArrayReserved_eq (admitted_aligned h rfl)⟩
  | aawrB | aawrW => exact ⟨_, addressArrayDiscard_eq (admitted_aligned h rfl)⟩
  | dardB | dardW | dardL => exact ⟨_, dataArrayRead_eq (admitted_aligned h rfl)⟩
  | dawrB | dawrW | dawrL => exact ⟨_, dataArrayWrite_eq (admitted_aligned h rfl)⟩
  | rsvrdB | rsvrdW | rsvrdL | regrsvRdB | regrsvRdW | regrsvRdL =>
    exact ⟨_, reservedRead_eq (admitted_aligned h rfl)⟩
  | rsvwrB | rsvwrW | rsvwrL | regrsvWrB | regrsvWrW | regrsvWrL =>
    exact ⟨_, reservedWrite_eq (admitted_aligned h rfl)⟩
  | wrCcr wd => exact execWrCcr_completes wd s
  | iack m => exact execIack_completes m s
  | busSz3 | clsRsv7 | clsRsv8 => cases h
  | _ => exact ⟨_, rfl⟩

/-- Settles O7: a word without a row is refused before anything else, and a context that is not powered on accepts
POWERON alone. -/
theorem stepRefusals : Obligations.StepRefusals := by
  intro s ctx cw wd rest hs
  refine ⟨fun e he => by simp only [step, hs, he], fun i hi hpo hoff => ?_⟩
  have hrej : (s.take ctx rest).accepts i ≠ true := by
    rw [ne_eq, State.accepts_iff, State.poweredOn_eq, not_or, Bool.not_eq_true]
    exact ⟨hpo, hoff⟩
  rw [step_command hs hi, if_neg hrej]

/-- Settles O10: each of the three rows means its refusal. -/
theorem undecodableRowsRefused : Obligations.UndecodableRowsRefused :=
  fun _ => ⟨fun _ _ => rfl, fun _ => rfl, fun _ => rfl⟩

end Sys2Proof.Machine
end

section
/-! PROOFS. The Address Array reads back what it was written (spec/30_encoding.md R94, spec/40_cache_ops.md R146,
R147). -/

namespace Sys2Proof.Machine

/-- The Address Array word made of the fields of a data word is that word without its other bits. -/
theorem aaWord_fields (v : Word) :
    aaWord (v.extractLsb' 10 19) (v.extractLsb' 4 6) (v.getLsbD 2) = v &&& 0x1FFFFFF4#32 := by
  rw [aaWord_eq]
  apply BitVec.eq_of_getLsbD_eq
  intro i hi
  interval_cases i <;> simp

theorem lineOf_fullAddress_congr (c : BitVec 3) {low low' : BitVec 29}
    (h : low.extractLsb' 4 6 = low'.extractLsb' 4 6) :
    lineOf (fullAddress c low) = lineOf (fullAddress c low') := by
  refine congrArg BitVec.toFin (BitVec.eq_of_toNat_eq ?_)
  simp only [← BitVec.toNat_inj, fullAddress, BitVec.extractLsb'_toNat, toNat_append, Nat.shiftRight_eq_div_pow] at h ⊢
  omega

theorem addressArrayWord_written (b : Block) {a a' : Word} (v : Word) (h : lineOf a = lineOf a') :
    addressArrayWord (addressArrayWritten b a v) a' = v &&& 0x1FFFFFF4#32 := by
  rw [← aaWord_fields]
  simp only [addressArrayWord, addressArrayWritten, h, Block.line_setLine_self, Block.setLine_ccr, Fin.getElem_fin,
    Vector.getElem_set_self]

theorem execAawrL_blk {low : BitVec 29} {wd : Word} {s t : State} (h : exec (.aawrL low wd) s = .next t) :
    t.blk = addressArrayWritten s.blk (fullAddress 0b011#3 low) wd := by
  rw [State.done_next (guardAligned_next h).2]
  exact State.blk_setBlk s _

theorem execAardL_result {low : BitVec 29} {s t : State} (h : exec (.aardL low) s = .next t) :
    t.result = some (addressArrayWord s.blk (fullAddress 0b011#3 low)) := by
  rw [State.ret_next (guardAligned_next h).2]

/-- Settles O26: the read shows the line that the write left, in the way that CCR.W still selects. -/
theorem addressArrayReadsBack : Obligations.AddressArrayReadsBack := by
  intro low low' wd s t u hline hw hr
  rw [execAardL_result hr, execAawrL_blk hw, addressArrayWord_written _ _ (lineOf_fullAddress_congr _ hline)]

end Sys2Proof.Machine
end

section
/-! PROOFS. The tag slots (spec/10_state.md R33, R38): what each cache operation leaves in each slot, and that every
step but an Address Array write keeps the tags of a line unique (spec/40_cache_ops.md R157 a). -/

namespace Sys2Proof.Machine

/-! ### One slot after a cache operation -/

theorem Line.holds_iff (x : Line) (w : Fin 4) (t : BitVec 19) :
    x.holds w t = true ↔ x.slots[w].v = true ∧ x.slots[w].tag = t := by
  simp [Line.holds]

/-- A line that gets a new LRU value and one new slot keeps its other slots, as every other line does. -/
theorem Block.slot_setLine (b : Block) (l k : Fin 64) (w w' : Fin 4) (r : BitVec 6) (x : TagSlot) :
    ((b.setLine l { lru := r, slots := (b.line l).slots.set w x }).line k).slots[w'] =
      if k = l ∧ w' = w then x else (b.line k).slots[w'] := by
  by_cases hk : k = l
  · subst hk
    simp [Vector.getElem_set, Fin.ext_iff, eq_comm]
  · rw [Block.line_setLine_other b _ hk, if_neg fun h => hk h.1]

theorem Block.slots_touch (p : LruPair) (b : Block) (l k : Fin 64) (w : Fin 4) :
    ((b.touch p l w).line k).slots = (b.line k).slots := by
  by_cases hk : k = l
  · rw [hk, Block.touch, Block.line_setLine_self]
  · rw [Block.touch, Block.line_setLine_other b _ hk]

/-- A slot that is valid after PurgeOne is one that PurgeOne left alone (R127). -/
theorem Block.slot_purgeOne {b : Block} {a : Word} {l : Fin 64} {w : Fin 4}
    (h : ((b.purgeOne a).line l).slots[w].v = true) : ((b.purgeOne a).line l).slots[w] = (b.line l).slots[w] := by
  unfold Block.purgeOne at h ⊢
  split at h
  · rw [Block.slot_setLine] at h ⊢
    split at h
    · cases h
    · rw [if_neg ‹_›]
  · rfl

/-! ### The tags of a line -/

/-- Tags stay unique where no slot becomes valid and no valid slot changes. -/
theorem Block.tagsUnique.of_slots {b b' : Block} (h : b.tagsUnique)
    (hslot : ∀ l (w : Fin 4), (b'.line l).slots[w].v = true → (b'.line l).slots[w] = (b.line l).slots[w]) :
    b'.tagsUnique := by
  have hold {l : Fin 64} {w : Fin 4} {t : BitVec 19} (hw : (b'.line l).holds w t = true) :
      (b.line l).holds w t = true := by
    rw [Line.holds_iff] at hw ⊢
    rw [← hslot l w hw.1]
    exact hw
  exact fun l w w' t hw hw' => h l w w' t (hold hw) (hold hw')

theorem Block.tagsUnique.of_lines {b b' : Block} (h : b.tagsUnique) (hl : b'.lines = b.lines) : b'.tagsUnique :=
  h.of_slots fun l w _ => by rw [Block.line, Block.line, hl]

/-- A slot that gets a tag no way of its line holds repeats none (R123, R124). -/
theorem Block.tagsUnique.setSlot {b : Block} (h : b.tagsUnique) {a : Word} (w : Fin 4) (hmiss : Misses b a) :
    (b.setSlot (lineOf a) w ⟨true, tagOf a⟩).tagsUnique := by
  have hcases {l : Fin 64} {u : Fin 4} {t : BitVec 19}
      (hu : ((b.setSlot (lineOf a) w ⟨true, tagOf a⟩).line l).holds u t = true) :
      (l = lineOf a ∧ u = w ∧ t = tagOf a) ∨ (b.line l).holds u t = true := by
    rw [Line.holds_iff, Block.setSlot, Block.slot_setLine] at hu
    split at hu
    · next he => exact .inl ⟨he.1, he.2, hu.2.symm⟩
    · exact .inr ((Line.holds_iff _ _ _).mpr hu)
  have hnone (u : Fin 4) : ¬ (b.line (lineOf a)).holds u (tagOf a) = true := fun hu =>
    hmiss u ((b.holds_iff a u).mp hu)
  intro l u u' t hu hu'
  rcases hcases hu with ⟨rfl, rfl, rfl⟩ | hold
  · rcases hcases hu' with ⟨-, rfl, -⟩ | hold'
    · rfl
    · exact absurd hold' (hnone u')
  · rcases hcases hu' with ⟨rfl, rfl, rfl⟩ | hold'
    · exact absurd hold (hnone u)
    · exact h l u u' t hold hold'

theorem Block.tagsUnique.touch {b : Block} (h : b.tagsUnique) (p : LruPair) (l : Fin 64) (w : Fin 4) :
    (b.touch p l w).tagsUnique :=
  h.of_slots fun k u _ => by rw [Block.slots_touch]

theorem BlockStep.keeps_tagsUnique {cap : Nat} {b b' : Block} (hb : BlockStep cap b b') (h : b.tagsUnique) :
    b'.tagsUnique := by
  cases hb with
  | touch p l w => exact h.touch p l w
  | fillSlot p a w hl => exact (h.setSlot w ((b.lookup_eq_none_iff a).mp hl)).touch p _ w
  | purge a => exact h.of_slots fun _ _ => Block.slot_purgeOne
  | invalidate => exact b.invalidateAll_tagsUnique
  | chan | chcr | completed => exact h.of_lines (b.setChan_lines _ _)
  | raise v lv =>
    rw [Block.raiseIrq_fields]
    exact h.of_lines rfl
  | data | da | clear | remove | dmaor | ccr | ipra | resetRegisters => exact h.of_lines rfl

/-- Settles O58: each change of a block keeps its tags unique, and the step is no Address Array write. -/
theorem stepKeepsTagsUnique : Obligations.StepKeepsTagsUnique := by
  intro s t hno hm hs ht
  have hkept : Kept (State.BothHave fun _ b => b.tagsUnique) := kept_bothHave BlockStep.keeps_tagsUnique
  exact hkept.step (fun _ _ h => h) (fun _ _ _ _ h => h)
    (fun ctx cw wd rest low v hin hdec _ => absurd hdec (hno ctx cw wd rest low v hin)) ht ⟨hm, hs⟩

end Sys2Proof.Machine
end

section
/-! PROOFS. Coherence of the cache with the bus (spec/40_cache_ops.md R157 c): what it asks of one slot, that the
changes of a block and a fill keep it, and that a cached read of a coherent cache is transparent. -/

namespace Sys2Proof.Machine

/-! ### The bus address of a slot -/

/-- The bus address of byte 0 of the line that a slot with tag `g` in line `l` holds (R93), as `Coherent` writes it. -/
def slotBase (g : BitVec 19) (l : Fin 64) : BitVec 28 :=
  g.extractLsb' 0 18 ++ BitVec.ofNat 6 l.val ++ 0#4

/-- The page of that line (R12). -/
def slotPage (g : BitVec 19) (l : Fin 64) : Nat :=
  ((slotBase g l).extractLsb' 16 12).toNat

theorem toNat_slotBase (g : BitVec 19) (l : Fin 64) :
    (slotBase g l).toNat = g.toNat % 2 ^ 18 * 2 ^ 10 + l.val * 2 ^ 4 := by
  have := l.isLt
  simp only [slotBase, toNat_append, BitVec.extractLsb'_toNat, BitVec.toNat_ofNat, Nat.shiftRight_zero]
  omega

theorem toNat_tagOf (a : Word) : (tagOf a).toNat = a.toNat / 2 ^ 10 % 2 ^ 19 := by
  simp only [tagOf, BitVec.extractLsb'_toNat, Nat.shiftRight_eq_div_pow]

theorem val_lineOf (a : Word) : (lineOf a).val = a.toNat / 2 ^ 4 % 2 ^ 6 := by
  simp only [lineOf, BitVec.val_toFin, BitVec.extractLsb'_toNat, Nat.shiftRight_eq_div_pow]

theorem toNat_offOf (a : Word) : (offOf a).toNat = a.toNat % 2 ^ 4 := by
  simp only [offOf, BitVec.extractLsb'_toNat, Nat.shiftRight_zero]

theorem toNat_busAddress (a : Word) : (busAddress a).toNat = a.toNat % 2 ^ 28 := by
  simp only [busAddress, BitVec.extractLsb'_toNat, Nat.shiftRight_zero]

/-- An address is its line's base and its offset in the line (R93). -/
theorem busAddress_eq_slotBase_add (a : Word) :
    (busAddress a).toNat = (slotBase (tagOf a) (lineOf a)).toNat + (offOf a).toNat := by
  rw [toNat_slotBase, toNat_tagOf, val_lineOf, toNat_offOf, toNat_busAddress]
  omega

theorem slotPage_of_address (a : Word) : slotPage (tagOf a) (lineOf a) = pageOf a := by
  simp only [slotPage, pageOf, BitVec.extractLsb'_toNat, Nat.shiftRight_eq_div_pow, toNat_slotBase, toNat_tagOf,
    val_lineOf]
  omega

theorem tagOf_fullAddress_top (c : BitVec 3) (low : BitVec 29) :
    (tagOf (fullAddress c low)).getLsbD 18 = low.getLsbD 28 := by
  rw [tagOf, BitVec.getLsbD_extractLsb', fullAddress, BitVec.getLsbD_append]
  simp

/-- Below 0x10000000 the base names tag and line: no two lines share one (R63). -/
theorem slotBase_inj {g g' : BitVec 19} {l l' : Fin 64} (hg : g.getLsbD 18 = false) (hg' : g'.getLsbD 18 = false)
    (h : slotBase g l = slotBase g' l') : g = g' ∧ l = l' := by
  have low {x : BitVec 19} (hx : x.getLsbD 18 = false) : x.toNat < 2 ^ 18 := by
    have := x.isLt
    rw [BitVec.getLsbD, Nat.testBit_eq_decide_div_mod_eq, decide_eq_false_iff_not] at hx
    omega
  have := low hg
  have := low hg'
  have := l.isLt
  have := l'.isLt
  have h' := congrArg BitVec.toNat h
  rw [toNat_slotBase, toNat_slotBase] at h'
  exact ⟨BitVec.eq_of_toNat_eq (by omega), Fin.ext (by omega)⟩

theorem dataKey_zero_ne {l l' : Fin 64} {w w' : Fin 4} {b b' : Nat} (h : ¬ (l = l' ∧ w = w')) (hb : b < 16)
    (hb' : b' < 16) : dataKey l w 0 b ≠ dataKey l' w' 0 b' := by
  rw [dataKey_zero l w hb, dataKey_zero l' w' hb']
  intro he
  have := w.isLt
  have := w'.isLt
  exact h ⟨Fin.ext (by omega), Fin.ext (by omega)⟩

/-! ### The keys and the page of an access -/

/-- Keys that are distinct for the four bytes of a long are distinct for every width. -/
theorem distinct_keys {key : Nat → Nat} (n : Width)
    (h : ∀ {i j : Nat}, i < 4 → j < 4 → key i = key j → i = j) :
    ∀ i < n.bytes, ∀ j < n.bytes, key i = key j → i = j :=
  fun _ hi _ hj => h (Nat.lt_of_lt_of_le hi (Width.bytes_le n)) (Nat.lt_of_lt_of_le hj (Width.bytes_le n))

theorem OnRam.congr {s t : State} {a b : Word} (h : OnRam s a) (hpages : t.pages = s.pages)
    (hbus : busAddress b = busAddress a) : OnRam t b := by
  unfold OnRam at h ⊢
  rw [hpages, pageOf_congr hbus, h]

theorem busAnswer_of_onRam {s : State} {a : Word} (n : Width) (k : Nat) (h : OnRam s a) :
    busAnswer s a n k = s.bus.readBE (busKey a) n := by
  unfold OnRam at h
  simp only [busAnswer, h]

/-! ### A slot that agrees with the bus -/

/-- What coherence asks of a valid slot: way `w` of line `l`, with tag `g`. -/
structure State.SlotAgrees (s : State) (l : Fin 64) (w : Fin 4) (g : BitVec 19) : Prop where
  lowTag    : g.getLsbD 18 = false
  enabled   : s.blk.ccr.getLsbD 0 = true
  shadowed  : ∃ r ∈ s.params.window, r.first ≤ slotPage g l ∧ slotPage g l ≤ r.last
  ram       : pageKindIn s.pages (slotPage g l) = .ram
  bytes     : ∀ b < 16, s.blk.data.read (dataKey l w 0 b) = s.bus.read ((slotBase g l).toNat + b)

theorem coherent_iff (s : State) : Coherent s ↔
    ∀ l (w : Fin 4), (s.blk.line l).slots[w].v = true → s.SlotAgrees l w (s.blk.line l).slots[w].tag := by
  refine ⟨fun h l w hv => ?_, fun h l w hv => ?_⟩
  · obtain ⟨hlow, hon, hwin, hram, hbytes⟩ := h l w hv
    exact ⟨hlow, hon, hwin, hram, hbytes⟩
  · obtain ⟨hlow, hon, hwin, hram, hbytes⟩ := h l w hv
    exact ⟨hlow, hon, hwin, hram, hbytes⟩

/-- A slot agrees as well in a state where its bytes do and the cache is on, with the same windows and pages. -/
theorem State.SlotAgrees.of_bytes {s t : State} {l : Fin 64} {w : Fin 4} {g : BitVec 19} (h : s.SlotAgrees l w g)
    (hon : t.blk.ccr.getLsbD 0 = true) (hparams : t.params = s.params) (hpages : t.pages = s.pages)
    (hbytes : ∀ b < 16, t.blk.data.read (dataKey l w 0 b) = t.bus.read ((slotBase g l).toNat + b)) :
    t.SlotAgrees l w g where
  lowTag := h.lowTag
  enabled := hon
  shadowed := hparams ▸ h.shadowed
  ram := hpages ▸ h.ram
  bytes := hbytes

/-- The slot that serves an access at `a` agrees with the bus on the bytes of the access. -/
theorem State.SlotAgrees.readBE {s : State} {n : Width} {a : Word} {w : Fin 4} (h : s.SlotAgrees (lineOf a) w (tagOf a))
    (ha : aligned n a = true) :
    s.blk.data.readBE (dataKey (lineOf a) w (offOf a)) n = s.bus.readBE (busKey a) n := by
  refine beRead_congr fun i hi => ?_
  obtain ⟨hkey, hlt⟩ := dataKey_off ha (lineOf a) w hi
  rw [hkey, h.bytes _ hlt, busKey_of_aligned ha hi, busAddress_eq_slotBase_add, Nat.add_assoc]

theorem Coherent.slotAgrees {s : State} (h : Coherent s) {a : Word} {w : Fin 4} (hw : HoldsTag s.blk a w) :
    s.SlotAgrees (lineOf a) w (tagOf a) :=
  hw.2 ▸ (coherent_iff s).mp h (lineOf a) w hw.1

/-! ### Changes of a block alone -/

/-- A block whose cache is off or keeps its valid slots and DATA stays coherent with the bus. -/
theorem Coherent.setBlk {s : State} {b : Block} (h : Coherent s)
    (hslot : ∀ l (w : Fin 4), (b.line l).slots[w].v = true → (b.line l).slots[w] = (s.blk.line l).slots[w])
    (hdata : b.data = s.blk.data) (hccr : s.blk.ccr.getLsbD 0 = true → b.ccr.getLsbD 0 = true) :
    Coherent (s.setBlk b) := by
  rw [coherent_iff, State.blk_setBlk]
  intro l w hv
  have he := hslot l w hv
  rw [he] at hv ⊢
  have ho := (coherent_iff s).mp h l w hv
  refine ho.of_bytes ?_ rfl rfl fun k hk => ?_
  · rw [State.blk_setBlk]
    exact hccr ho.enabled
  · rw [State.blk_setBlk, hdata]
    exact ho.bytes k hk

/-- A command that leaves the lines, DATA and CCR alone. -/
theorem Coherent.of_lines {s : State} {b : Block} (h : Coherent s) (hlines : b.lines = s.blk.lines)
    (hdata : b.data = s.blk.data) (hccr : b.ccr = s.blk.ccr) : Coherent (s.setBlk b) :=
  h.setBlk (fun l w _ => by rw [Block.line, Block.line, hlines]) hdata (hccr ▸ id)

theorem Coherent.setChan {s : State} (h : Coherent s) (n : ChannelId) (c : Channel) : Coherent (s.setChan n c) :=
  h.of_lines (s.blk.setChan_lines n c) (s.blk.setChan_data n c) (s.blk.setChan_ccr n c)

theorem Coherent.touch {s : State} (h : Coherent s) (p : LruPair) (l : Fin 64) (w : Fin 4) :
    Coherent (s.setBlk (s.blk.touch p l w)) :=
  h.setBlk (fun k u _ => by rw [Block.slots_touch]) rfl id

theorem Coherent.purgeOne {s : State} (h : Coherent s) (a : Word) : Coherent (s.setBlk (s.blk.purgeOne a)) := by
  obtain ⟨x, hx⟩ := s.blk.purgeOne_frame a
  exact h.setBlk (fun _ _ => Block.slot_purgeOne) (by rw [hx]) (by rw [hx]; exact id)

/-- InvalidateAll leaves no valid slot (R126). -/
theorem coherent_invalidateAll (s : State) : Coherent s.invalidateAll := by
  rw [coherent_iff, State.invalidateAll_eq, State.blk_with_trace, State.blk_setBlk]
  intro l w hv
  rw [Block.invalidateAll_line] at hv
  simp [Line.invalid] at hv

/-- A CCR write that does not invalidate the cache does not turn it off either (R185). -/
theorem Coherent.writeCcr {s : State} (h : Coherent s) {v : Word} (hv : ccrInvalidates s.blk.ccr v = false) :
    Coherent (s.setBlk { s.blk with ccr := ccrWritten v }) := by
  refine h.setBlk (fun _ _ _ => rfl) rfl fun hon => ?_
  simp only [ccrInvalidates, ccrCE, hon, Bool.true_and, Bool.or_eq_false_iff, Bool.not_eq_false'] at hv
  simp [ccrWritten, hv.2]

/-! ### The fill -/

/-- Taking a byte out of the value a big-endian read assembles (R64). -/
theorem beByte_beRead_long (f : Nat → Byte) {i : Nat} (hi : i < 4) : beByte .long (beRead f .long) i = f i := by
  apply BitVec.eq_of_toNat_eq
  have h0 := (f 0).isLt
  have h1 := (f 1).isLt
  have h2 := (f 2).isLt
  have h3 := (f 3).isLt
  simp only [beByte, beRead, Width.bytes, BitVec.extractLsb'_toNat, toNat_append, Nat.shiftRight_eq_div_pow]
  interval_cases i <;> omega

/-- On a RAM page a fill brings in the bytes of the line (R12, R123). -/
theorem fillByte_of_onRam {s : State} {a : Word} (h : OnRam s a) {b : Nat} (hb : b < 16) :
    fillByte s a b = s.bus.read ((slotBase (tagOf a) (lineOf a)).toNat + b) := by
  have hi : b / 4 < 4 := by omega
  have hanswer : busAnswer s (fillAddress a (b / 4)) .long (b / 4) =
      beRead (fun i => s.bus.read (busKey (fillAddress a (b / 4)) i)) .long := by
    have hr : OnRam s (fillAddress a (b / 4)) := by rw [OnRam, pageOf_fillAddress a hi, h]
    exact busAnswer_of_onRam _ _ hr
  have hkey : busKey (fillAddress a (b / 4)) (b % 4) = (slotBase (tagOf a) (lineOf a)).toNat + b := by
    have hlt := a.isLt
    simp only [busKey, toNat_busAddress, BitVec.toNat_add, BitVec.toNat_ofNat, fillAddress_toNat a hi, toNat_slotBase,
      toNat_tagOf, val_lineOf]
    omega
  rw [fillByte, hanswer, beByte_beRead_long _ (Nat.mod_lt b (by decide)), hkey]

theorem State.fill_blk (s : State) (a : Word) (w : Fin 4) :
    (s.fill a w).blk =
      { s.blk.setLine (lineOf a)
          { lru := s.params.lru.touched (s.blk.line (lineOf a)).lru w
            slots := (s.blk.line (lineOf a)).slots.set w ⟨true, tagOf a⟩ } with data := fetchedData s a w 4 } := by
  rw [State.fill_eq]
  exact State.blk_setBlk s _

theorem Block.line_with_data (b : Block) (d : Memory) (l : Fin 64) : Block.line { b with data := d } l = b.line l := rfl

theorem State.fill_slot (s : State) (a : Word) (w u : Fin 4) (k : Fin 64) :
    ((s.fill a w).blk.line k).slots[u] =
      if k = lineOf a ∧ u = w then ⟨true, tagOf a⟩ else (s.blk.line k).slots[u] := by
  rw [State.fill_blk, Block.line_with_data, Block.slot_setLine]

theorem State.fill_frame (s : State) (a : Word) (w : Fin 4) :
    (s.fill a w).bus = s.bus ∧ (s.fill a w).params = s.params ∧ (s.fill a w).pages = s.pages
      ∧ (s.fill a w).blk.ccr = s.blk.ccr ∧ (s.fill a w).blk.data = fetchedData s a w 4 := by
  refine ⟨?_, ?_, ?_, ?_, ?_⟩
  · simp only [State.fill_eq, State.setBlk_bus]
  · simp only [State.fill_eq, State.setBlk_params]
  · simp only [State.fill_eq, State.setBlk_pages]
  · simp only [State.fill_blk, Block.setLine_ccr]
  · simp only [State.fill_blk]

/-- The slot that was filled holds the bytes of the bus, and no other slot loses its own. -/
theorem Coherent.fill {s : State} {a : Word} (h : Coherent s) (hw : s.blk.data.wf = true) (hc : Cacheable s a)
    (hlow : (tagOf a).getLsbD 18 = false) (hram : OnRam s a) (w : Fin 4) : Coherent (s.fill a w) := by
  obtain ⟨hbus, hparams, hpages, hccr, hdata⟩ := s.fill_frame a w
  obtain ⟨-, hon, hwin⟩ := hc
  rw [coherent_iff] at h ⊢
  intro k u hv
  rw [State.fill_slot] at hv ⊢
  split at hv
  · next he =>
    obtain ⟨rfl, rfl⟩ := he
    rw [if_pos ⟨rfl, rfl⟩]
    refine ⟨hlow, hccr ▸ hon, ?_, ?_, fun b hb => ?_⟩
    · rw [slotPage_of_address, hparams]
      exact hwin
    · rw [slotPage_of_address, hpages]
      exact hram
    · rw [hdata, hbus, ← fillByte_of_onRam hram hb]
      exact fetchedData_read s a u hw (k := 4) (Nat.le_refl 4) (show b < 4 * 4 from hb)
  · next he =>
    rw [if_neg he]
    have ho := h k u hv
    refine ho.of_bytes (hccr ▸ ho.enabled) hparams hpages fun b hb => ?_
    rw [hdata, hbus, ← ho.bytes b hb]
    exact fetchedData_read_other s a w (k := 4) (fun b' hb' => dataKey_zero_ne he hb hb') (Nat.le_refl 4)

/-! ### The cached read -/

section
variable {s : State} {a : Word}

/-- After a cached read the slot that serves it holds the line (R124). -/
theorem State.holdsTag_afterCacheRead (s : State) (a : Word) : HoldsTag (s.afterCacheRead a).blk a (s.readWay a) := by
  unfold State.afterCacheRead State.readWay
  cases hl : s.blk.lookup a with
  | some w =>
    obtain ⟨hw, -⟩ := (s.blk.lookup_eq_some_iff a w).mp hl
    simpa [HoldsTag, Block.slots_touch] using hw
  | none => simp [HoldsTag, -Fin.getElem_fin, State.fill_slot]

theorem State.afterCacheRead_bus (s : State) (a : Word) : (s.afterCacheRead a).bus = s.bus := by
  unfold State.afterCacheRead
  split
  · rfl
  · exact (s.fill_frame a _).1

theorem Coherent.afterCacheRead (h : Coherent s) (hw : s.blk.data.wf = true) (hc : Cacheable s a)
    (hlow : (tagOf a).getLsbD 18 = false) (hram : OnRam s a) : Coherent (s.afterCacheRead a) := by
  unfold State.afterCacheRead
  split
  · exact h.touch _ _ _
  · exact h.fill hw hc hlow hram _

/-- With a coherent cache CacheRead returns the bytes of the bus. -/
theorem Coherent.cacheValue {n : Width} (h : Coherent s) (hw : s.blk.data.wf = true) (hc : Cacheable s a)
    (hlow : (tagOf a).getLsbD 18 = false) (hram : OnRam s a) (ha : aligned n a = true) :
    s.cacheValue a n = s.bus.readBE (busKey a) n := by
  have hslot := (h.afterCacheRead hw hc hlow hram).slotAgrees (s.holdsTag_afterCacheRead a)
  rw [State.cacheValue, hslot.readBE ha, State.afterCacheRead_bus]

end

/-- Settles O18: both reads return the bytes of the bus, at one bus address. -/
theorem cachedReadIsTransparent : Obligations.CachedReadIsTransparent := by
  intro n low s t u h hw hlow hram ht hu
  rw [exec_crd] at ht
  rw [exec_urd] at hu
  obtain ⟨ha, rfl⟩ := cachedRead_next ht
  obtain ⟨-, rfl⟩ := uncachedRead_next hu
  have hbus := busAddress_fullAddress 0b001#3 0b000#3 low
  have hram' : OnRam s (fullAddress 0b001#3 low) := hram.congr rfl hbus
  have hkeys : busKey (fullAddress 0b001#3 low) = busKey (fullAddress 0b000#3 low) := funext (busKey_congr hbus)
  simp only [State.busValue_eq, busAnswer_of_onRam n 0 hram', hkeys]
  split
  · next hc =>
    have htop := (tagOf_fullAddress_top 0b000#3 low).trans hlow
    exact congrArg some (h.cacheValue hw ((s.cacheable_iff _).mp hc) htop hram ha)
  · exact congrArg some (busAnswer_of_onRam n 0 hram)

end Sys2Proof.Machine
end

section
/-! PROOFS. Write-through and coherence (spec/40_cache_ops.md R125, R157 b, c): what a cached write stores in DATA and
on the bus, and that every command keeps coherence but those the spec says break it. -/

namespace Sys2Proof.Machine

/-! ### A bus write against the slots -/

section
variable {s : State} {n : Width} {a : Word} (v : Word)

/-- An aligned access ends in its own line. -/
theorem offOf_add_bytes_le (ha : aligned n a = true) : (offOf a).toNat + n.bytes ≤ 16 := by
  have hlast : n.bytes - 1 < n.bytes := by cases n <;> decide
  have := (dataKey_off ha 0 0 hlast).2
  omega

/-- A bus write changes no byte of another line. -/
theorem storedBus_read_other_line (ha : aligned n a = true) {g : BitVec 19} {l : Fin 64}
    (hne : slotBase g l ≠ slotBase (tagOf a) (lineOf a)) {b : Nat} (hb : b < 16) :
    (storedBus s a n v).read ((slotBase g l).toNat + b) = s.bus.read ((slotBase g l).toNat + b) := by
  refine storedBus_read_other v ha ?_
  have hoff := offOf_add_bytes_le ha
  have hbase : (slotBase g l).toNat ≠ (slotBase (tagOf a) (lineOf a)).toNat := fun e => hne (BitVec.eq_of_toNat_eq e)
  rw [busAddress_eq_slotBase_add]
  rw [toNat_slotBase, toNat_slotBase] at hbase ⊢
  omega

/-- A bus write to other lines than those the valid slots hold keeps coherence. -/
theorem Coherent.busWriteNotify (h : Coherent s) (ha : aligned n a = true)
    (hne : ∀ l (w : Fin 4), (s.blk.line l).slots[w].v = true →
      slotBase (s.blk.line l).slots[w].tag l ≠ slotBase (tagOf a) (lineOf a)) :
    Coherent (s.busWriteNotify a n v) := by
  rw [coherent_iff] at h ⊢
  intro l w hv
  have ho := h l w hv
  refine ho.of_bytes ho.enabled rfl rfl fun b hb => ?_
  rw [State.busWriteNotify_blk, State.busWriteNotify_bus, State.busStored_eq, ho.bytes b hb]
  exact (storedBus_read_other_line v ha (hne l w hv) hb).symm

/-- An access that is not cacheable is to no line of a coherent cache: the cache is off, or the page is not shadowed. -/
theorem Coherent.slotBase_ne_of_not_cacheable (h : Coherent s) (hclass : a.extractLsb' 29 3 = 0b000#3)
    (hc : ¬ Cacheable s a) (l : Fin 64) (w : Fin 4) (hv : (s.blk.line l).slots[w].v = true) :
    slotBase (s.blk.line l).slots[w].tag l ≠ slotBase (tagOf a) (lineOf a) := by
  intro he
  obtain ⟨-, hon, hwin, -, -⟩ := (coherent_iff s).mp h l w hv
  refine hc ⟨hclass, hon, ?_⟩
  rw [← slotPage_of_address]
  simpa only [slotPage, he] using hwin

/-- A slot of a coherent cache whose line has the base of `a` holds the tag of `a`: no two lines share one (R63). -/
theorem Coherent.holdsTag_of_slotBase (h : Coherent s) (hlow : (tagOf a).getLsbD 18 = false) {l : Fin 64} {w : Fin 4}
    (hv : (s.blk.line l).slots[w].v = true)
    (he : slotBase (s.blk.line l).slots[w].tag l = slotBase (tagOf a) (lineOf a)) :
    l = lineOf a ∧ HoldsTag s.blk a w := by
  obtain ⟨hg, rfl⟩ := slotBase_inj ((coherent_iff s).mp h l w hv).lowTag hlow he
  exact ⟨rfl, hv, hg⟩

/-! ### The cached write -/

/-- Byte `b` of the slot that a cached write hits: it changes with the byte of the bus (R125). -/
theorem read_writeBE_hit_slot (hd : s.blk.data.wf = true) (hm : s.bus.wf = true) (hram : OnRam s a)
    (ha : aligned n a = true) {w : Fin 4} (ho : s.SlotAgrees (lineOf a) w (tagOf a)) {b : Nat} (hb : b < 16) :
    (s.blk.data.writeBE (dataKey (lineOf a) w (offOf a)) n v).read (dataKey (lineOf a) w 0 b) =
      (storedBus s a n v).read ((slotBase (tagOf a) (lineOf a)).toNat + b) := by
  by_cases hin : (offOf a).toNat ≤ b ∧ b < (offOf a).toNat + n.bytes
  · obtain ⟨i, rfl⟩ := Nat.exists_eq_add_of_le hin.1
    have hi : i < n.bytes := by omega
    rw [← (dataKey_off ha (lineOf a) w hi).1,
      Memory.read_writeBE_self v hd (distinct_keys n (dataKey_inj (lineOf a) w (offOf a))) hi, ← Nat.add_assoc,
      ← busAddress_eq_slotBase_add, storedBus_read_self v hm hram ha hi]
  · rw [Memory.read_writeBE_other v, storedBus_read_other v ha, ho.bytes b hb]
    · rw [busAddress_eq_slotBase_add]
      omega
    · intro i hi
      obtain ⟨hkey, hlt⟩ := dataKey_off ha (lineOf a) w hi
      rw [hkey, dataKey_zero _ _ hb, dataKey_zero _ _ hlt]
      omega

/-- A write into the slot of one way changes no byte of another slot. -/
theorem read_writeBE_other_slot (d : Memory) (ha : aligned n a = true) {l : Fin 64} {w u : Fin 4}
    (hne : ¬ (l = lineOf a ∧ u = w)) {b : Nat} (hb : b < 16) :
    (d.writeBE (dataKey (lineOf a) w (offOf a)) n v).read (dataKey l u 0 b) = d.read (dataKey l u 0 b) := by
  refine Memory.read_writeBE_other v fun i hi => ?_
  obtain ⟨hkey, hlt⟩ := dataKey_off ha (lineOf a) w hi
  rw [hkey]
  exact dataKey_zero_ne hne hb hlt

/-- The block after a cached write that hits way `w` (R125). -/
theorem Block.writeHit_of_hit {p : LruPair} {b : Block} {w : Fin 4} (h : b.lookup a = some w) :
    b.writeHit p a n v =
      { b.touch p (lineOf a) w with data := b.data.writeBE (dataKey (lineOf a) w (offOf a)) n v } := by
  simp only [Block.writeHit, h]
  rfl

theorem Block.writeHit_of_miss {p : LruPair} {b : Block} (h : b.lookup a = none) : b.writeHit p a n v = b := by
  simp only [Block.writeHit, h]

theorem HitsAt.way_unique {b : Block} {w u : Fin 4} (h : HitsAt b a w) (htags : b.tagsUnique) (hu : HoldsTag b a u) :
    u = w :=
  htags (lineOf a) u w (tagOf a) ((b.holds_iff a u).mpr hu) ((b.holds_iff a w).mpr h.1)

/-- After a cached write that hits way `w` the bytes of each valid slot are still those of the bus: way `w` changes as
the bus does, and every other slot holds another line. -/
theorem Coherent.bytes_of_hit (h : Coherent s) (hd : s.blk.data.wf = true) (hm : s.bus.wf = true)
    (htags : s.blk.tagsUnique) (hram : OnRam s a) (hlow : (tagOf a).getLsbD 18 = false) (ha : aligned n a = true)
    {w : Fin 4} (hhit : HitsAt s.blk a w) {l : Fin 64} {u : Fin 4} (hv : (s.blk.line l).slots[u].v = true) {b : Nat}
    (hb : b < 16) :
    (s.blk.data.writeBE (dataKey (lineOf a) w (offOf a)) n v).read (dataKey l u 0 b) =
      (storedBus s a n v).read ((slotBase (s.blk.line l).slots[u].tag l).toNat + b) := by
  by_cases he : slotBase (s.blk.line l).slots[u].tag l = slotBase (tagOf a) (lineOf a)
  · obtain ⟨rfl, hu⟩ := h.holdsTag_of_slotBase hlow hv he
    obtain rfl := hhit.way_unique htags hu
    rw [he]
    exact read_writeBE_hit_slot v hd hm hram ha (h.slotAgrees hu) hb
  · have hne : ¬ (l = lineOf a ∧ u = w) := by
      rintro ⟨rfl, rfl⟩
      exact he (by rw [hhit.1.2])
    rw [read_writeBE_other_slot v _ ha hne hb, ((coherent_iff s).mp h l u hv).bytes b hb,
      storedBus_read_other_line v ha he hb]

/-- A cached write keeps coherence: on a miss no valid slot holds the line that it changes on the bus. -/
theorem Coherent.cacheWrite (h : Coherent s) (hd : s.blk.data.wf = true) (hm : s.bus.wf = true)
    (htags : s.blk.tagsUnique) (hram : OnRam s a) (hlow : (tagOf a).getLsbD 18 = false) (ha : aligned n a = true) :
    Coherent (s.cacheWrite a n v) := by
  unfold State.cacheWrite
  cases hl : s.blk.lookup a with
  | none =>
    have hmiss := (s.blk.lookup_eq_none_iff a).mp hl
    rw [Block.writeHit_of_miss v hl, State.setBlk_blk]
    exact h.busWriteNotify v ha fun l w hv he => hmiss w (h.holdsTag_of_slotBase hlow hv he).2
  | some w =>
    have hhit := (s.blk.lookup_eq_some_iff a w).mp hl
    rw [coherent_iff, State.busWriteNotify_blk, State.blk_setBlk, Block.writeHit_of_hit v hl]
    intro l u hv
    have hslot : ((s.blk.touch s.params.lru (lineOf a) w).line l).slots[u] = (s.blk.line l).slots[u] := by
      rw [Block.slots_touch]
    rw [Block.line_with_data, hslot] at hv ⊢
    have ho := (coherent_iff s).mp h l u hv
    refine ho.of_bytes ?_ rfl rfl fun b hb => ?_
    · rw [State.busWriteNotify_blk, State.blk_setBlk]
      exact ho.enabled
    · rw [State.busWriteNotify_blk, State.blk_setBlk]
      exact h.bytes_of_hit v hd hm htags hram hlow ha hhit hv hb

end

/-! ### The commands -/

theorem State.memoryWf.data_wf {s : State} (h : s.memoryWf) : s.blk.data.wf = true := by
  obtain ⟨-, -, hmaster, hslave⟩ := h
  unfold State.blk
  cases s.cur with
  | master => exact hmaster.1
  | slave => exact hslave.1

section
variable {s t : State}

theorem Coherent.with_result (h : Coherent s) (r : Option Word) : Coherent { s with result := r } := h

theorem Coherent.ret {v : Word} (ht : s.ret v = .next t) (h : Coherent s) : Coherent t := by
  rw [State.ret_next ht]
  exact h.with_result _

theorem Coherent.done (ht : s.done = .next t) (h : Coherent s) : Coherent t := by
  rw [State.done_next ht]
  exact h.with_result _

theorem Coherent.raiseIrq (h : Coherent s) (v : BitVec 8) (lv : Nat) :
    Coherent (s.setBlk (s.blk.raiseIrq s.params.irqCap v lv)) := by
  rw [Block.raiseIrq_fields]
  exact h.of_lines rfl rfl rfl

theorem Coherent.purgeWrite {n : Width} {low : BitVec 29} (ht : purgeWrite n low s = .next t) (h : Coherent s) :
    Coherent t := by
  rw [(purgeWrite_next ht).2]
  exact (h.purgeOne _).with_result _

theorem Coherent.dataArrayWrite {n : Width} {low : BitVec 29} {wd : Word} (ht : dataArrayWrite n low wd s = .next t)
    (h : Coherent s) : Coherent t := by
  rw [(dataArrayWrite_next ht).2]
  exact h.of_lines rfl rfl rfl

theorem Coherent.cachedRead {n : Width} {low : BitVec 29} (ht : cachedRead n low s = .next t)
    (hd : s.blk.data.wf = true) (hram : OnRam s (fullAddress 0b000#3 low)) (hlow : low.getLsbD 28 = false)
    (h : Coherent s) : Coherent t := by
  rw [(cachedRead_next ht).2]
  split
  · next hc =>
    have htop := (tagOf_fullAddress_top 0b000#3 low).trans hlow
    exact (h.afterCacheRead hd ((s.cacheable_iff _).mp hc) htop hram).with_result _
  · exact h

theorem Coherent.cachedWrite {n : Width} {low : BitVec 29} {wd : Word} (ht : cachedWrite n low wd s = .next t)
    (hd : s.blk.data.wf = true) (hm : s.bus.wf = true) (htags : s.blk.tagsUnique)
    (hram : OnRam s (fullAddress 0b000#3 low)) (hlow : low.getLsbD 28 = false) (h : Coherent s) : Coherent t := by
  obtain ⟨ha, rfl⟩ := cachedWrite_next ht
  split
  · have htop := (tagOf_fullAddress_top 0b000#3 low).trans hlow
    exact (h.cacheWrite wd hd hm htags hram htop ha).with_result _
  · next hc =>
    have hne := h.slotBase_ne_of_not_cacheable (address_class 0b000#3 low) fun hc' => hc ((s.cacheable_iff _).mpr hc')
    exact (h.busWriteNotify wd ha hne).with_result _

end

/-- Settles O19: the commands that touch lines, DATA, CCR or the bus one by one; all others leave the four alone. A
byte access is aligned at every address, so its guard is no premise to take off. -/
theorem coherenceKept : Obligations.CoherenceKept := by
  intro i s t hmem htags hram h hcrd hcwr huwr haawr hchcr hpass ht
  have hd := hmem.data_wf
  have hm : s.bus.wf = true := hmem.1
  have hread {n : Width} {low : BitVec 29} (hi : i = .crd n low) (ht : cachedRead n low s = .next t) : Coherent t :=
    h.cachedRead ht hd (hram _) (hcrd n low hi)
  have hwrite {n : Width} {low : BitVec 29} {wd : Word} (hi : i = .cwr n low wd)
      (ht : cachedWrite n low wd s = .next t) : Coherent t :=
    h.cachedWrite ht hd hm htags (hram _) (hcwr n low wd hi)
  cases i
  case crdB => exact hread (n := .byte) rfl ht
  case crdW => exact hread (n := .word) rfl ht
  case crdL => exact hread (n := .long) rfl ht
  case cwrB => exact hwrite (n := .byte) rfl ht
  case cwrW => exact hwrite (n := .word) rfl ht
  case cwrL => exact hwrite (n := .long) rfl ht
  case uwrB low wd => exact absurd rfl (huwr .byte low wd)
  case uwrW low wd => exact absurd rfl (huwr .word low wd)
  case uwrL low wd => exact absurd rfl (huwr .long low wd)
  case aawrL low wd => exact absurd rfl (haawr low wd)
  case wrChcr0 wd => exact absurd rfl (hchcr .ch0 wd)
  case wrChcr1 wd => exact absurd rfl (hchcr .ch1 wd)
  case execPass c => exact absurd rfl (hpass c)
  case purgeB => exact .purgeWrite (n := .byte) ht h
  case purgeW => exact .purgeWrite (n := .word) ht h
  case purgeL => exact .purgeWrite (n := .long) ht h
  case dawrB => exact .dataArrayWrite (n := .byte) ht h
  case dawrW => exact .dataArrayWrite (n := .word) ht h
  case dawrL => exact .dataArrayWrite (n := .long) ht h
  case urdB | prdB | aardB | dardB | rsvrdB | regrsvRdB => exact .ret ht h
  case urdW | prdW | aardW | dardW | rsvrdW | regrsvRdW => exact .ret (guardAligned_next (n := .word) ht).2 h
  case urdL | prdL | aardL | dardL | rsvrdL | regrsvRdL => exact .ret (guardAligned_next (n := .long) ht).2 h
  case aawrB | rsvwrB | regrsvWrB => exact .done ht h
  case aawrW | rsvwrW | regrsvWrW => exact .done (guardAligned_next (n := .word) ht).2 h
  case rsvwrL | regrsvWrL => exact .done (guardAligned_next (n := .long) ht).2 h
  case rdSar0 | rdDar0 | rdTcr0 | rdSar1 | rdDar1 | rdTcr1 | rdVcrdma0 | rdVcrdma1 | rdDmaor | rdCcr | rdIpra =>
    exact .ret ht h
  case wrSar0 | wrDar0 | wrTcr0 | wrSar1 | wrDar1 | wrTcr1 | wrVcrdma0 | wrVcrdma1 => exact .done ht (h.setChan _ _)
  case rdChcr0 | rdChcr1 => exact .ret ht (h.setChan _ _)
  case wrDmaor | wrIpra | latchNmif | latchAe => exact .done ht (h.of_lines rfl rfl rfl)
  case wrCcr wd =>
    simp only [exec, execWrCcr] at ht
    split at ht
    · exact .done ht (coherent_invalidateAll _)
    · next hv => exact .done ht (h.writeCcr (Bool.eq_false_iff.mpr hv))
  case irq v lv => exact .done ht (h.raiseIrq v lv.toNat)
  case irqNmi v => exact .done ht (h.raiseIrq v 16)
  case iack m =>
    simp only [exec, execIack] at ht
    split at ht
    · exact .ret ht h
    · exact .ret ht (h.of_lines rfl rfl rfl)
  case reset => exact .done ht (coherent_invalidateAll _)
  case poweron => exact .done ht (coherent_invalidateAll _)
  case busSz3 | clsRsv7 | clsRsv8 => cases ht

end Sys2Proof.Machine
end

section
/-! PROOFS. The commands of the cached area, its uncached mirror and the purge area, row by row (spec/40_cache_ops.md
R128 to R142): what each decodes to and the whole state it leaves. -/

namespace Sys2Proof.Machine

/-! ### The rows of the three areas -/

section
variable (n : Width) (low : BitVec 29) (wd : Word)

theorem decode_crd : decode (busWord false n (fullAddress 0b000#3 low)) wd = .ok (.crd n low) := by
  rw [decode_busWord, fullAddress, decodeBus_cached]
  cases n <;> rfl

theorem decode_cwr : decode (busWord true n (fullAddress 0b000#3 low)) wd = .ok (.cwr n low wd) := by
  rw [decode_busWord, fullAddress, decodeBus_cached]
  cases n <;> rfl

theorem decode_urd : decode (busWord false n (fullAddress 0b001#3 low)) wd = .ok (.urd n low) := by
  rw [decode_busWord, fullAddress, decodeBus_uncached]
  cases n <;> rfl

theorem decode_uwr : decode (busWord true n (fullAddress 0b001#3 low)) wd = .ok (.uwr n low wd) := by
  rw [decode_busWord, fullAddress, decodeBus_uncached]
  cases n <;> rfl

theorem decode_purge : decode (busWord true n (fullAddress 0b010#3 low)) wd = .ok (.purge n low wd) := by
  rw [decode_busWord, fullAddress, decodeBus_purge]
  cases n <;> rfl

end

/-! ### The cached area -/

section
variable {s : State} {a : Word}

theorem State.afterCacheRead_of_hit {w : Fin 4} (h : s.blk.lookup a = some w) :
    s.afterCacheRead a = s.setBlk (s.blk.touch s.params.lru (lineOf a) w) := by
  simp only [State.afterCacheRead, h]

theorem State.afterCacheRead_of_miss (h : s.blk.lookup a = none) :
    s.afterCacheRead a = s.fill a (s.blk.victim s.params.lru a) := by
  simp only [State.afterCacheRead, h]

/-- On a hit CacheRead returns the bytes that the way held (R124). -/
theorem State.cacheValue_of_hit {w : Fin 4} (h : s.blk.lookup a = some w) (n : Width) :
    s.cacheValue a n = s.blk.data.readBE (dataKey (lineOf a) w (offOf a)) n := by
  simp only [State.cacheValue, State.afterCacheRead_of_hit h, State.readWay, h, State.blk_setBlk, Option.getD_some]
  rfl

/-- On a miss CacheRead returns bytes that the fill fetched (R123, R124). -/
theorem State.cacheValue_of_miss {n : Width} (h : s.blk.lookup a = none) (hd : s.blk.data.wf = true)
    (ha : aligned n a = true) :
    s.cacheValue a n = beRead (fun i => fillByte s a ((offOf a).toNat + i)) n := by
  obtain ⟨-, -, -, -, hdata⟩ := s.fill_frame a (s.blk.victim s.params.lru a)
  simp only [State.cacheValue, State.afterCacheRead_of_miss h, State.readWay, h, Option.getD_none, hdata]
  refine beRead_congr fun i hi => ?_
  obtain ⟨hkey, hlt⟩ := dataKey_off ha (lineOf a) (s.blk.victim s.params.lru a) hi
  rw [hkey]
  exact fetchedData_read s a _ hd (k := 4) (Nat.le_refl 4) hlt

end

/-- Settles O12: CacheRead by what LOOKUP finds, and the bus read of an access that is not cacheable. -/
theorem cachedReads : Obligations.CachedReads := by
  intro n low wd s a l x ha
  rw [exec_crd, cachedRead_eq ha]
  refine ⟨decode_crd n low wd, fun w hc hhit => ?_, fun hc hmiss hd => ?_, fun hc => ?_⟩
  · have hl := (s.blk.lookup_eq_some_iff a w).mpr hhit
    rw [if_pos ((s.cacheable_iff a).mpr hc), State.afterCacheRead_of_hit hl, State.cacheValue_of_hit hl]
    rfl
  · intro w
    have hl := (s.blk.lookup_eq_none_iff a).mpr hmiss
    refine ⟨fetchedData s a w 4, ?_, fetchedData_wf s a w hd 4,
      fun b hb => fetchedData_read s a w hd (k := 4) (Nat.le_refl 4) hb,
      fun k hk => fetchedData_read_other s a w (k := 4) hk (Nat.le_refl 4)⟩
    rw [if_pos ((s.cacheable_iff a).mpr hc), State.afterCacheRead_of_miss hl, State.fill_eq,
      State.cacheValue_of_miss hl hd ha]
    rfl
  · rw [if_neg fun hc' => hc ((s.cacheable_iff a).mp hc')]
    rfl

/-- Settles O13: CacheWrite by what LOOKUP finds; a miss leaves the block alone, as the plain bus write does. -/
theorem cachedWrites : Obligations.CachedWrites := by
  intro n low wd s a l x events ha
  rw [exec_cwr, cachedWrite_eq ha]
  refine ⟨decode_cwr n low wd, fun w hc hhit => ?_, fun hc => ?_⟩
  · have hl := (s.blk.lookup_eq_some_iff a w).mpr hhit
    rw [if_pos ((s.cacheable_iff a).mpr hc), State.cacheWrite, Block.writeHit_of_hit wd hl, State.busWriteNotify_eq]
    rfl
  · have hplain : s.cacheable a = true → s.cacheWrite a n wd = s.busWriteNotify a n wd := fun hc' => by
      have hmiss := hc.resolve_left (not_not_intro ((s.cacheable_iff a).mp hc'))
      rw [State.cacheWrite, Block.writeHit_of_miss wd ((s.blk.lookup_eq_none_iff a).mpr hmiss), State.setBlk_blk]
    split
    · next hc' => rw [hplain hc', State.busWriteNotify_eq]
    · rw [State.busWriteNotify_eq]

/-! ### The uncached mirror -/

/-- Settles O14: the command is the bus read. -/
theorem uncachedReads : Obligations.UncachedReads := by
  intro n low wd s a ha
  rw [exec_urd, uncachedRead_eq ha]
  exact ⟨decode_urd n low wd, rfl⟩

/-- Settles O15: the command is the bus write and its notification. -/
theorem uncachedWrites : Obligations.UncachedWrites := by
  intro n low wd s a ha
  rw [exec_uwr, uncachedWrite_eq ha, State.busWriteNotify_eq]
  exact ⟨decode_uwr n low wd, rfl⟩

/-! ### Write-through -/

theorem exec_cwr_pages {n : Width} {low : BitVec 29} {wd : Word} {s t : State}
    (h : exec (Instr.cwr n low wd) s = .next t) : t.pages = s.pages := by
  rw [exec_cwr] at h
  rw [(cachedWrite_next h).2]
  split
  · rfl
  · rfl

/-- Settles O17: the write leaves the value on the shared bus, and both areas reach one bus address. -/
theorem writeThrough : Obligations.WriteThrough := by
  intro n low wd s t u ctx hm hram ht hu
  have hbus := busAddress_fullAddress 0b001#3 0b000#3 low
  have hpages := exec_cwr_pages ht
  have hram' : OnRam { t with cur := ctx } (fullAddress 0b001#3 low) :=
    hram.congr hpages hbus
  have hvalue : busAnswer { t with cur := ctx } (fullAddress 0b001#3 low) n 0 = lowBytes n wd := by
    rw [busAnswer_of_onRam n 0 hram', funext (busKey_congr hbus), (exec_cwr_bus ht).2, storedBus_of_onRam n wd hram]
    exact Memory.readBE_writeBE wd hm (distinct_keys n (busKey_inj _))
  rw [exec_urd] at hu
  rw [(uncachedRead_next hu).2, ← hvalue]
  rfl

/-! ### The purge area -/

theorem Block.purgeOne_of_hit {b : Block} {a : Word} {w : Fin 4} (h : b.lookup a = some w) :
    b.purgeOne a =
      b.setLine (lineOf a) { lru := 0, slots := (b.line (lineOf a)).slots.set w ⟨false, 0⟩ } := by
  simp only [Block.purgeOne, h]

theorem Block.purgeOne_of_miss {b : Block} {a : Word} (h : b.lookup a = none) : b.purgeOne a = b := by
  simp only [Block.purgeOne, h]

/-- Settles O20: PurgeOne by what LOOKUP finds. -/
theorem purges : Obligations.Purges := by
  intro n low wd s a l ha
  rw [exec_purge, purgeWrite_eq ha]
  refine ⟨decode_purge n low wd, fun w hhit => ?_, fun hmiss => ?_⟩
  · rw [Block.purgeOne_of_hit ((s.blk.lookup_eq_some_iff a w).mpr hhit)]
  · rw [Block.purgeOne_of_miss ((s.blk.lookup_eq_none_iff a).mpr hmiss), State.setBlk_blk]

/-- After PurgeOne no way holds the tag, where only one could (R127). -/
theorem Block.tagsUnique.misses_purgeOne {b : Block} (h : b.tagsUnique) (a : Word) : Misses (b.purgeOne a) a := by
  cases hl : b.lookup a with
  | none =>
    rw [Block.purgeOne_of_miss hl]
    exact (b.lookup_eq_none_iff a).mp hl
  | some w =>
    have hhit := (b.lookup_eq_some_iff a w).mp hl
    intro u hu
    rw [Block.purgeOne_of_hit hl, HoldsTag, Block.slot_setLine] at hu
    split at hu
    · cases hu.1
    · next hne => exact hne ⟨rfl, hhit.way_unique h hu⟩

theorem misses_congr {b : Block} {a a' : Word} (hline : lineOf a = lineOf a') (htag : tagOf a = tagOf a')
    (h : Misses b a) : Misses b a' := by
  unfold Misses HoldsTag at h ⊢
  rw [← hline, ← htag]
  exact h

/-- Settles O21: the purged slot was the only one with the tag, and both areas name one line and tag. -/
theorem purgedLineMisses : Obligations.PurgedLineMisses := by
  intro n low wd s t htags ht
  rw [exec_purge] at ht
  have hblk : t.blk = s.blk.purgeOne (fullAddress 0b010#3 low) := by
    rw [(purgeWrite_next ht).2]
    exact State.blk_setBlk s _
  have hmiss := htags.misses_purgeOne (fullAddress 0b010#3 low)
  rw [hblk]
  exact ⟨hmiss, misses_congr (lineOf_fullAddress _ _ low) (tagOf_fullAddress _ _ low) hmiss⟩

end Sys2Proof.Machine
end

section
/-! PROOFS. The Address Array, the Data Array and reserved space, row by row (spec/40_cache_ops.md R143 to R156,
spec/41_register_ops.md R188, R189): what each decodes to and the whole state it leaves. -/

namespace Sys2Proof.Machine

/-! ### The rows -/

section
variable (n : Width) (low : BitVec 29) (wd : Word)

theorem decode_prd : decode (busWord false n (fullAddress 0b010#3 low)) wd = .ok (.prd n low) := by
  rw [decode_busWord, fullAddress, decodeBus_purge]
  cases n <;> rfl

theorem decode_addressArray (wr : Bool) :
    decode (busWord wr n (fullAddress 0b011#3 low)) wd = .ok (decodeAddressArray wr n low wd) := by
  rw [decode_busWord, fullAddress, decodeBus_addressArray]

theorem decode_dard : decode (busWord false n (fullAddress 0b110#3 low)) wd = .ok (.dard n low) := by
  rw [decode_busWord, fullAddress, decodeBus_dataArray]
  cases n <;> rfl

theorem decode_dawr : decode (busWord true n (fullAddress 0b110#3 low)) wd = .ok (.dawr n low wd) := by
  rw [decode_busWord, fullAddress, decodeBus_dataArray]
  cases n <;> rfl

theorem decode_rsvrd (low : BitVec 30) : decode (busWord false n (0b10#2 ++ low)) wd = .ok (.rsvrd n low) := by
  rw [decode_busWord, decodeBus_reserved]
  cases n <;> rfl

theorem decode_rsvwr (low : BitVec 30) : decode (busWord true n (0b10#2 ++ low)) wd = .ok (.rsvwr n low wd) := by
  rw [decode_busWord, decodeBus_reserved]
  cases n <;> rfl

/-- A row of class 111 that stands for a word is no register's (R96, R99). -/
theorem decode_regrsv (wr : Bool) (h : notRegister n low = true) :
    decode (busWord wr n (fullAddress 0b111#3 low)) wd =
      .ok (if wr then .regrsvWr n low wd else .regrsvRd n low) := by
  rw [decode_busWord, fullAddress, decodeBus_onchip, decodeOnchip_rest wr wd (notRegister_iff.mp h), address_low]

end

theorem notRegister_of_regrsvRd {n : Width} {low : BitVec 29} (h : (Instr.regrsvRd n low).wellFormed = true) :
    notRegister n low = true := by
  cases n <;> exact h

theorem notRegister_of_regrsvWr {n : Width} {low : BitVec 29} {wd : Word}
    (h : (Instr.regrsvWr n low wd).wellFormed = true) : notRegister n low = true := by
  cases n <;> exact h

/-! ### Reserved space -/

/-- Settles O22: each row is its decoding and the unmapped value, or nothing. -/
theorem reservedReads : Obligations.ReservedReads := by
  intro n wd s t
  have ht : Host.Outcome.next { s with result := some (unmapped n) } = (.next t : Result) := by
    cases n <;> rfl
  refine ⟨fun low ha => ⟨decode_prd n low wd, ?_⟩, fun low hn => ?_, fun low hn ha => ?_,
    fun low ha => ⟨decode_rsvrd n wd low, ?_⟩, fun low ha =>
      ⟨fun hwf => decode_regrsv n low wd false (notRegister_of_regrsvRd hwf), ?_⟩⟩
  · rw [exec_prd, purgeRead_eq ha, ht]
  · subst hn
    exact ⟨decode_addressArray _ _ _ _, rfl, decode_addressArray _ _ _ _, rfl⟩
  · subst hn
    exact ⟨decode_addressArray _ _ _ _, addressArrayReserved_eq ha, decode_addressArray _ _ _ _,
      addressArrayDiscard_eq ha⟩
  · rw [exec_rsvrd, reservedAddress, reservedRead_eq ha, ht]
  · rw [exec_regrsvRd, reservedRead_eq ha, ht]

/-- Settles O23: each row is its decoding and a discarded write. -/
theorem reservedWrites : Obligations.ReservedWrites := by
  intro n wd s
  refine ⟨fun low ha => ⟨decode_rsvwr n wd low, ?_⟩, fun low ha =>
    ⟨fun hwf => decode_regrsv n low wd true (notRegister_of_regrsvWr hwf), ?_⟩⟩
  · rw [exec_rsvwr, reservedAddress, reservedWrite_eq ha]
  · rw [exec_regrsvWr, reservedWrite_eq ha]

/-! ### The Address Array -/

/-- Settles O24: the word that the Address Array shows is R146's. -/
theorem addressArrayRead : Obligations.AddressArrayRead := by
  intro low wd s a x slot ha
  refine ⟨decode_addressArray _ _ _ _, (guardAligned_of_aligned ha).trans ?_⟩
  rw [State.ret_eq, ← aaWord_eq]
  rfl

/-- Settles O25: the write is the replacement of one slot and of the LRU of its line. -/
theorem addressArrayWrite : Obligations.AddressArrayWrite := by
  intro low wd s a l w ha
  exact ⟨decode_addressArray _ _ _ _, guardAligned_of_aligned ha⟩

/-! ### The Data Array -/

/-- An aligned Data Array access reads the bytes from a[11:0] on (R149 to R151). -/
theorem Memory.readBE_daKey (m : Memory) {n : Width} {a : Word} (ha : aligned n a = true) :
    m.readBE (daKey a) n = beRead (fun k => m.read ((a.extractLsb' 0 12).toNat + k)) n :=
  beRead_congr fun _ hk => congrArg m.read (daKey_of_aligned ha hk)

/-- Settles O27: an aligned access is to the bytes from a[11:0] on, which do not wrap. -/
theorem dataArrayCommands : Obligations.DataArrayCommands := by
  intro n low wd s a i ha
  rw [exec_dard, exec_dawr, dataArrayRead_eq ha, dataArrayWrite_eq ha, Memory.readBE_daKey s.blk.da ha]
  refine ⟨decode_dard n low wd, decode_dawr n low wd, ?_, fun hd =>
    ⟨_, rfl, Memory.wf_writeBE _ n wd hd, fun k hk => ?_, fun k hk => ?_⟩⟩
  · cases n <;> rfl
  · rw [← daKey_of_aligned ha hk, Memory.read_writeBE_self wd hd (distinct_keys n (daKey_inj a)) hk, beByte_eq]
  · refine Memory.read_writeBE_other wd fun j hj => ?_
    rw [daKey_of_aligned ha hj]
    omega

end Sys2Proof.Machine
end

section
/-! PROOFS. The register commands (spec/41_register_ops.md R160 to R187) and the Transfer-End protocol of CHCR: what
each row decodes to and the state it leaves. -/

namespace Sys2Proof.Machine

/-! ### The rows -/

section
variable (wr : Bool) (n : ChannelId) (wd : Word)

theorem decode_sar : decode (busWord wr .long (channelAddress n)) wd = .ok (if wr then .wrSar n wd else .rdSar n) := by
  rw [decode_busWord]
  cases wr <;> cases n <;> rfl

theorem decode_dar :
    decode (busWord wr .long (channelAddress n + 4#32)) wd = .ok (if wr then .wrDar n wd else .rdDar n) := by
  rw [decode_busWord]
  cases wr <;> cases n <;> rfl

theorem decode_tcr :
    decode (busWord wr .long (channelAddress n + 8#32)) wd = .ok (if wr then .wrTcr n wd else .rdTcr n) := by
  rw [decode_busWord]
  cases wr <;> cases n <;> rfl

theorem decode_chcr :
    decode (busWord wr .long (channelAddress n + 0xC#32)) wd = .ok (if wr then .wrChcr n wd else .rdChcr n) := by
  rw [decode_busWord]
  cases wr <;> cases n <;> rfl

theorem decode_vcrdma :
    decode (busWord wr .long (vectorAddress n)) wd = .ok (if wr then .wrVcrdma n wd else .rdVcrdma n) := by
  rw [decode_busWord]
  cases wr <;> cases n <;> rfl

end

/-! ### One family, one shared meaning -/

section
variable (n : ChannelId) (wd : Word) (s : State)

theorem exec_rdSar : exec (Instr.rdSar n) s = readSar n s := by
  cases n <;> rfl

theorem exec_wrSar : exec (Instr.wrSar n wd) s = writeSar n wd s := by
  cases n <;> rfl

theorem exec_rdDar : exec (Instr.rdDar n) s = readDar n s := by
  cases n <;> rfl

theorem exec_wrDar : exec (Instr.wrDar n wd) s = writeDar n wd s := by
  cases n <;> rfl

theorem exec_rdTcr : exec (Instr.rdTcr n) s = readTcr n s := by
  cases n <;> rfl

theorem exec_wrTcr : exec (Instr.wrTcr n wd) s = writeTcr n wd s := by
  cases n <;> rfl

theorem exec_rdVcrdma : exec (Instr.rdVcrdma n) s = readVcrdma n s := by
  cases n <;> rfl

theorem exec_wrVcrdma : exec (Instr.wrVcrdma n wd) s = writeVcrdma n wd s := by
  cases n <;> rfl

end

/-! ### The write of CHCR -/

theorem chcrDE_chcrWritten (c : Channel) (v : Word) : chcrDE (chcrWritten c v) = v.getLsbD 0 := by
  simp [chcrDE, chcrWritten]

/-- Bit by bit, only TE is not the data's (R168). -/
theorem chcrWritten_getElem (c : Channel) (v : Word) {i : Nat} (hi : i < 16) :
    (chcrWritten c v)[i] = if i = 1 then chcrTE (chcrWritten c v) else v.getLsbD i := by
  split
  · next h1 => subst h1; rfl
  · next h1 => interval_cases i <;> simp [chcrWritten] at h1 ⊢

/-- TE kept: the other bits are the data's (R168). -/
theorem chcrWritten_of_kept {c : Channel} {v : Word} (h : chcrTE (chcrWritten c v) = true) :
    chcrWritten c v = v.setWidth 16 ||| 0x0002#16 := by
  ext i hi
  rw [chcrWritten_getElem c v hi, h]
  split
  · next h1 => subst h1; simp
  · next h1 => interval_cases i <;> simp at h1 ⊢

/-- TE not kept and written 0: CHCR is the data (R168). -/
theorem chcrWritten_of_cleared {c : Channel} {v : Word} (h : chcrTE (chcrWritten c v) = false)
    (hv : v.getLsbD 1 = false) : chcrWritten c v = v.setWidth 16 := by
  ext i hi
  rw [chcrWritten_getElem c v hi, h, BitVec.getElem_setWidth]
  split
  · next h1 => rw [h1, hv]
  · rfl

/-- A channel that a CHCR write leaves with DE = 0 or TE = 1 does not request (R201). -/
theorem not_requesting_chcrWritten {c : Channel} {v : Word}
    (h : v.getLsbD 0 = false ∨ chcrTE (chcrWritten c v) = true) :
    ¬ Requesting { c with chcr := chcrWritten c v } := by
  rintro ⟨hde, hte, -⟩
  rcases h with h | h
  · exact Bool.false_ne_true (h.symm.trans ((chcrDE_chcrWritten c v).symm.trans hde))
  · exact Bool.false_ne_true (hte.symm.trans h)

theorem State.kick_of_requesting {s : State} {n : ChannelId} (h : EngineOn s.blk ∧ Requesting (s.chan n)) :
    s.kick n = s.pass s.params.kickBudget :=
  ((s.kick_cases n).resolve_left fun hidle => hidle.1 h).2

theorem State.kick_of_idle {s : State} {n : ChannelId} (h : ¬ (EngineOn s.blk ∧ Requesting (s.chan n))) :
    s.kick n = s :=
  ((s.kick_cases n).resolve_right fun hkick => h hkick.1).2

/-- Settles O35: the write is the store and a KICK, which is one pass or nothing. -/
theorem chcrWrites : Obligations.ChcrWrites := by
  intro n wd s c te s'
  have hs : s' = s.setChan n { c with chcr := chcrWritten c wd } := by rw [chcrWritten_eq]
  rw [exec_wrChcr, writeChcr, State.done_eq, ← hs]
  refine ⟨decode_chcr true n wd, fun hkick => ?_, fun hidle => ?_⟩
  · rw [State.kick_of_requesting hkick]
    rfl
  · rw [State.kick_of_idle hidle]

/-- A CHCR write that leaves DE = 0 or TE = 1 stores the register and moves nothing: the channel does not request
(R176, R201). -/
theorem exec_wrChcr_of_idle {n : ChannelId} {wd : Word} {s t : State}
    (h : wd.getLsbD 0 = false ∨ chcrTE (chcrWritten (s.chan n) wd) = true)
    (ht : exec (Instr.wrChcr n wd) s = .next t) :
    t.chan n = { s.chan n with chcr := chcrWritten (s.chan n) wd } ∧ t.bus = s.bus := by
  have hidle : ¬ Requesting ((s.setChan n { s.chan n with chcr := chcrWritten (s.chan n) wd }).chan n) := by
    rw [State.chan_setChan_self]
    exact not_requesting_chcrWritten h
  rw [exec_wrChcr] at ht
  rw [State.done_next ht, State.kick_of_idle fun hkick => hidle hkick.2]
  exact ⟨State.chan_setChan_self s n _, rfl⟩

/-- A CHCR read clears TEM and moves nothing (R167, R175). -/
theorem exec_rdChcr_next {n : ChannelId} {s t : State} (ht : exec (Instr.rdChcr n) s = .next t) :
    t.chan n = { s.chan n with tem := false } ∧ t.bus = s.bus := by
  rw [exec_rdChcr] at ht
  rw [State.ret_next ht]
  exact ⟨State.chan_setChan_self s n _, rfl⟩

/-- Settles O36: in all three cases the channel does not request after the write, so CHCR is just what is stored. -/
theorem transferEndProtocol : Obligations.TransferEndProtocol := by
  intro n wd s t u
  refine ⟨fun htem hte ht => ?_, fun hwte hwde ht hu => ?_, fun hte hwde ht => ?_⟩
  · have hkept : chcrTE (chcrWritten (s.chan n) wd) = true := by
      rw [chcrTE_chcrWritten, chcrTE, hte, htem, Bool.or_true, Bool.and_true]
    obtain ⟨hchan, hbus⟩ := exec_wrChcr_of_idle (.inr hkept) ht
    rw [hchan, ← chcrWritten_of_kept hkept]
    exact ⟨rfl, rfl, hbus⟩
  · obtain ⟨hread, hbus⟩ := exec_rdChcr_next ht
    obtain ⟨hchan, hbus'⟩ := exec_wrChcr_of_idle (.inl hwde) hu
    have hcleared : chcrTE (chcrWritten (t.chan n) wd) = false := by
      rw [chcrTE_chcrWritten, hread, hwte, Bool.or_false, Bool.and_false]
    rw [hchan, ← chcrWritten_of_cleared hcleared hwte, hread]
    exact ⟨rfl, rfl, hbus'.trans hbus⟩
  · rw [(exec_wrChcr_of_idle (.inl hwde) ht).1, ← chcrTE, chcrTE_chcrWritten, chcrTE, hte, Bool.false_and]

/-! ### The other registers -/

/-- Bits that a register never holds read as 0. -/
theorem extractLsb'_setWidth_eq_zero {w : Nat} {x m : BitVec w} (v k len : Nat) (h : x &&& m = 0#w)
    (hm : ∀ i < len, m.getLsbD (k + i) = true) : (x.setWidth v).extractLsb' k len = 0#len := by
  ext i hi
  have hbit : x.getLsbD (k + i) = false := by
    simpa [hm i hi] using congrArg (BitVec.getLsbD · (k + i)) h
  simp [hbit]

/-- Settles O30: each row is its decoding and the stored bits. -/
theorem registerReads : Obligations.RegisterReads := by
  intro n wd s c
  refine ⟨⟨decode_sar false n wd, exec_rdSar n s⟩, ⟨decode_dar false n wd, exec_rdDar n s⟩,
    ⟨decode_tcr false n wd, exec_rdTcr n s⟩, ⟨decode_vcrdma false n wd, exec_rdVcrdma n s⟩, ⟨rfl, rfl⟩, ⟨rfl, rfl⟩,
    ⟨rfl, rfl⟩, fun h => ⟨?_, ?_⟩⟩
  · exact extractLsb'_setWidth_eq_zero 32 4 2 h.ccrReserved (by decide)
  · exact extractLsb'_setWidth_eq_zero 32 0 4 h.ipraReserved (by decide)

/-- Settles O31: the read is its decoding and the clearing of one TEM. -/
theorem chcrReads : Obligations.ChcrReads :=
  fun n wd s => ⟨decode_chcr false n wd, exec_rdChcr n s⟩

/-- Settles O32: each row is its decoding and the store of one register. -/
theorem operandRegisterWrites : Obligations.OperandRegisterWrites := by
  intro n wd s c
  simp only [← extractLsb'_zero_eq_setWidth]
  exact ⟨⟨decode_sar true n wd, exec_wrSar n wd s⟩, ⟨decode_dar true n wd, exec_wrDar n wd s⟩,
    ⟨decode_tcr true n wd, exec_wrTcr n wd s⟩, ⟨decode_vcrdma true n wd, exec_wrVcrdma n wd s⟩, rfl, rfl⟩

/-- Settles O33: the stored bits are those of R183. -/
theorem dmaorWrite : Obligations.DmaorWrite := by
  intro wd s v
  refine ⟨rfl, ?_⟩
  simp only [v, ← extractLsb'_zero_eq_setWidth]
  rfl

theorem ccrInvalidates_iff (old : BitVec 8) (v : Word) :
    ccrInvalidates old v = true ↔ v.getLsbD 4 = true ∨ (old.getLsbD 0 = true ∧ v.getLsbD 0 = false) := by
  simp [ccrInvalidates, ccrCE]

theorem ccrWritten_eq (v : Word) : ccrWritten v = v.setWidth 8 &&& 0xCF#8 := by
  rw [ccrWritten, extractLsb'_zero_eq_setWidth]

/-- Settles O34: InvalidateAll runs just where the data asks for it, on the instance with its new CCR. -/
theorem ccrWrite : Obligations.CcrWrite := by
  intro wd s b invalidates
  have hexec : exec (.wrCcr wd) s =
      if ccrInvalidates s.blk.ccr wd then (s.setBlk b).invalidateAll.done else (s.setBlk b).done := by
    simp only [b, ← ccrWritten_eq]
    rfl
  refine ⟨rfl, fun h => ?_, fun h => ?_⟩
  · rw [hexec, if_neg fun h' => h ((ccrInvalidates_iff _ _).mp h')]
    rfl
  · rw [hexec, if_pos ((ccrInvalidates_iff _ _).mpr h), State.invalidateAll_eq, State.blk_setBlk, State.setBlk_setBlk]
    rfl

end Sys2Proof.Machine
end

section
/-! PROOFS. One unit of a DMA transfer (spec/42_dma_engine.md R205, R206): its bus accesses, and the operand registers
after it. -/

namespace Sys2Proof.Machine

/-! ### The address modes and the count -/

theorem twoBits_cases (x : BitVec 2) : x = 0#2 ∨ x = 1#2 ∨ x = 2#2 ∨ x = 3#2 := by
  revert x
  decide

theorem delta_of_not_reserved {mode : BitVec 2} (u : Nat) (h : mode ≠ 3#2) :
    delta mode u = if mode = 1#2 then BitVec.ofNat 32 u else if mode = 2#2 then -BitVec.ofNat 32 u else 0 := by
  obtain rfl | rfl | rfl | rfl := twoBits_cases mode
  · rfl
  · rfl
  · rfl
  · exact absurd rfl h

theorem tcrStep_eq (p : Params) (ts : BitVec 2) : tcrStep p ts = if ts = 3#2 ∧ p.tcrStep16 = .four then 4 else 1 := by
  by_cases hts : ts = 3#2
  · subst hts
    cases h : p.tcrStep16 <;> simp [tcrStep, h]
  · rw [if_neg fun h => hts h.1]
    unfold tcrStep
    split
    · exact absurd rfl hts
    · rfl

/-! ### The bus accesses -/

/-- The four copies of a 16-byte unit, in ascending order (R206). -/
def copiedLongs (s : State) (src dst : Word) : State :=
  (List.range 4).foldl
    (fun t i => copied t (src + BitVec.ofNat 32 (4 * i)) (dst + BitVec.ofNat 32 (4 * i)) .long) s

theorem moveUnit_eq (s : State) (src dst : Word) (ts : BitVec 2) :
    s.moveUnit src dst ts =
      if ts = 0#2 then copied s src dst .byte
      else if ts = 1#2 then copied s src dst .word
      else if ts = 2#2 then copied s src dst .long
      else copiedLongs s src dst := by
  obtain rfl | rfl | rfl | rfl := twoBits_cases ts
  · exact s.copy_eq src dst .byte
  · exact s.copy_eq src dst .word
  · exact s.copy_eq src dst .long
  · simp [State.moveUnit, State.copy_eq, copiedLongs, List.range_succ]

/-- What every copy keeps, the bus accesses of a unit keep. -/
theorem State.moveUnit_induct {P : State → Prop} (hcopy : ∀ t a b n, P t → P (copied t a b n)) {s : State}
    (src dst : Word) (ts : BitVec 2) (h : P s) : P (s.moveUnit src dst ts) := by
  unfold State.moveUnit
  simp only [State.copy_eq]
  split
  · exact hcopy _ _ _ _ h
  · exact hcopy _ _ _ _ h
  · exact hcopy _ _ _ _ h
  · exact hcopy _ _ _ _ (hcopy _ _ _ _ (hcopy _ _ _ _ (hcopy _ _ _ _ h)))

/-- Settles O39: the turn is the bus accesses and `Channel.advance`, with the modes and the step written out. -/
theorem unitTransfer : Obligations.UnitTransfer := by
  intro s n c ts step down moved hsm hdm
  have hdown : tcrStep s.params ts = down := tcrStep_eq s.params ts
  have hmoved : s.moveUnit c.sar c.dar ts = moved := moveUnit_eq s c.sar c.dar ts
  have hsar : delta (c.chcr.extractLsb' 12 2) (unitBytes ts) = step (c.chcr.extractLsb' 12 2) :=
    delta_of_not_reserved _ hsm
  have hdar : delta (c.chcr.extractLsb' 14 2) (unitBytes ts) = step (c.chcr.extractLsb' 14 2) :=
    delta_of_not_reserved _ hdm
  refine ⟨(c.advance s.params).tcr, ?_, ?_⟩
  · rw [Nat.max_zero, ← hdown]
    exact Channel.advance_tcr s.params c
  · rw [← hsar, ← hdar, ← hmoved]
    rfl

end Sys2Proof.Machine
end

section
/-! PROOFS. RUN (spec/42_dma_engine.md R205, R207, R208): the turns of its loop, its notification and its completion. -/

namespace Sys2Proof.Machine

/-! ### The turns -/

/-- The state after `j` turns of channel `n` (R205). -/
def State.turns (s : State) (n : ChannelId) (j : Nat) : State :=
  (fun t : State => t.unitTurn n)^[j] s

@[simp] theorem State.turns_zero (s : State) (n : ChannelId) : s.turns n 0 = s := rfl

theorem State.turns_succ (s : State) (n : ChannelId) (j : Nat) : s.turns n (j + 1) = (s.turns n j).unitTurn n :=
  Function.iterate_succ_apply' _ _ _

/-- What a turn keeps, any number of turns keeps. -/
theorem State.turns_induct {P : State → Prop} {n : ChannelId} (hturn : ∀ t, P t → P (t.unitTurn n)) {s : State}
    (h : P s) (j : Nat) : P (s.turns n j) := by
  induction j with
  | zero => exact h
  | succ j ih => rw [State.turns_succ]; exact hturn _ ih

@[simp] theorem State.turns_cur (s : State) (n : ChannelId) (j : Nat) : (s.turns n j).cur = s.cur :=
  State.turns_induct (P := fun t => t.cur = s.cur) (fun t h => (t.unitTurn_cur n).trans h) rfl j

@[simp] theorem State.turns_params (s : State) (n : ChannelId) (j : Nat) : (s.turns n j).params = s.params :=
  State.turns_induct (P := fun t => t.params = s.params) (fun t h => (t.unitTurn_params n).trans h) rfl j

/-- The turns of a channel change its registers and no other part of the block. -/
theorem State.turns_blk (s : State) (n : ChannelId) (j : Nat) :
    (s.turns n j).blk = s.blk.setChan n ((s.turns n j).chan n) :=
  State.turns_induct (P := fun t => t.blk = s.blk.setChan n (t.chan n))
    (fun t h => by rw [State.unitTurn_chan, State.unitTurn_blk, h, Block.setChan_setChan]) (by simp [State.chan]) j

/-- The registers of a channel after `j` units, the copy clock apart (R206). -/
def Channel.advanced (p : Params) (c : Channel) (j : Nat) : Channel :=
  { c with
    sar := c.sar + BitVec.ofNat 32 j * delta (chcrSM c.chcr) (unitBytes (chcrTS c.chcr))
    dar := c.dar + BitVec.ofNat 32 j * delta (chcrDM c.chcr) (unitBytes (chcrTS c.chcr))
    tcr := BitVec.ofNat 24 (c.tcr.toNat - j * tcrStep p (chcrTS c.chcr)) }

theorem Channel.advanced_zero (p : Params) (c : Channel) : c.advanced p 0 = c := by
  simp [Channel.advanced]

theorem Channel.toNat_tcr_advanced (p : Params) (c : Channel) (j : Nat) :
    (c.advanced p j).tcr.toNat = c.tcr.toNat - j * tcrStep p (chcrTS c.chcr) :=
  Nat.mod_eq_of_lt (Nat.lt_of_le_of_lt (Nat.sub_le _ _) c.tcr.isLt)

theorem Channel.advance_advanced (p : Params) (c : Channel) (j : Nat) :
    (c.advanced p j).advance p = c.advanced p (j + 1) := by
  have hstep (a d : Word) : a + BitVec.ofNat 32 j * d + d = a + BitVec.ofNat 32 (j + 1) * d := by
    rw [BitVec.ofNat_add, BitVec.add_mul, BitVec.add_assoc, BitVec.one_mul]
  have htcr : ((c.advanced p j).advance p).tcr = (c.advanced p (j + 1)).tcr := by
    apply BitVec.eq_of_toNat_eq
    rw [Channel.advance_tcr, Channel.toNat_tcr_advanced, Channel.toNat_tcr_advanced, Nat.sub_sub, Nat.succ_mul]
    rfl
  simpa [Channel.advance, Channel.advanced, hstep] using htcr

/-- After `j` turns the channel has moved `j` units (R206). -/
theorem State.turns_chan (s : State) (n : ChannelId) (j : Nat) :
    (s.turns n j).chan n = { (s.chan n).advanced s.params j with clk := ((s.turns n j).chan n).clk } := by
  induction j with
  | zero => rw [Channel.advanced_zero]; rfl
  | succ j ih =>
    rw [State.turns_succ, State.unitTurn_chan, State.turns_params, ← Channel.advance_advanced, ih]
    rfl

/-! ### The destination addresses of a burst -/

/-- The span that RUN's loop has gathered after `k` turns from `s` (R208). -/
def State.burst (s : State) (n : ChannelId) (k : Nat) : Span :=
  (List.range k).foldl
    (fun x j => x.add ((s.turns n j).chan n).dar (unitBytes (chcrTS ((s.turns n j).chan n).chcr))) none

/-- The first `k` units are written at the addresses from `lo` to below `hi`, and at no narrower range (R208). -/
structure State.Hull (s : State) (n : ChannelId) (k lo hi : Nat) : Prop where
  loAttained : ∃ j < k, lo = ((s.turns n j).chan n).dar.toNat
  loLeast    : ∀ j < k, lo ≤ ((s.turns n j).chan n).dar.toNat
  hiAttained : ∃ j < k, hi = ((s.turns n j).chan n).dar.toNat + unitBytes (chcrTS (s.chan n).chcr)
  hiGreatest : ∀ j < k, ((s.turns n j).chan n).dar.toNat + unitBytes (chcrTS (s.chan n).chcr) ≤ hi

theorem State.burst_succ (s : State) (n : ChannelId) (k : Nat) :
    s.burst n (k + 1) = (s.burst n k).add ((s.turns n k).chan n).dar (unitBytes (chcrTS (s.chan n).chcr)) := by
  have hts : ((s.turns n k).chan n).chcr = (s.chan n).chcr := by rw [State.turns_chan]; rfl
  simp [State.burst, List.range_succ, hts]

theorem State.Hull.succ {s : State} {n : ChannelId} {k lo hi : Nat} (h : s.Hull n k lo hi) :
    s.Hull n (k + 1) (min lo ((s.turns n k).chan n).dar.toNat)
      (max hi (((s.turns n k).chan n).dar.toNat + unitBytes (chcrTS (s.chan n).chcr))) where
  loAttained := by
    obtain ⟨j, hj, hlo⟩ := h.loAttained
    rcases min_choice lo ((s.turns n k).chan n).dar.toNat with hmin | hmin
    · exact ⟨j, by omega, hmin.trans hlo⟩
    · exact ⟨k, by omega, hmin⟩
  loLeast := Nat.forall_lt_succ_right.mpr
    ⟨fun j hj => (min_le_left _ _).trans (h.loLeast j hj), min_le_right _ _⟩
  hiAttained := by
    obtain ⟨j, hj, hhi⟩ := h.hiAttained
    rcases max_choice hi (((s.turns n k).chan n).dar.toNat + unitBytes (chcrTS (s.chan n).chcr)) with hmax | hmax
    · exact ⟨j, by omega, hmax.trans hhi⟩
    · exact ⟨k, by omega, hmax⟩
  hiGreatest := Nat.forall_lt_succ_right.mpr
    ⟨fun j hj => (h.hiGreatest j hj).trans (le_max_left _ _), le_max_right _ _⟩

/-- The span of a burst is its hull. -/
theorem State.burst_hull (s : State) (n : ChannelId) (k : Nat) :
    ∃ lo hi, s.burst n (k + 1) = some (lo, hi) ∧ s.Hull n (k + 1) lo hi := by
  induction k with
  | zero => exact ⟨_, _, s.burst_succ n 0, ⟨0, by simp⟩, by simp, ⟨0, by simp⟩, by simp⟩
  | succ k ih =>
    obtain ⟨lo, hi, hspan, hull⟩ := ih
    exact ⟨_, _, (s.burst_succ n (k + 1)).trans (by rw [hspan]; rfl), hull.succ⟩

/-- With the cache off and a unit moved, the one notification is for the hull (R208). -/
theorem State.burstNotify_hull {s t : State} {n : ChannelId} {k : Nat} (hk : k ≠ 0)
    (hce : t.blk.ccr.getLsbD 0 = false) :
    ∃ lo hi, s.Hull n k lo hi ∧ t.burstNotify (s.burst n k) = t.notify (BitVec.ofNat 32 lo) (hi - lo) := by
  obtain ⟨k, rfl⟩ := Nat.exists_eq_succ_of_ne_zero hk
  obtain ⟨lo, hi, hspan, hull⟩ := s.burst_hull n k
  refine ⟨lo, hi, hull, ?_⟩
  rw [hspan]
  exact if_neg (Bool.eq_false_iff.mp hce)

/-- With the cache on or no unit moved there is none (R208). -/
theorem State.burstNotify_none {s t : State} {n : ChannelId} {k : Nat}
    (h : k = 0 ∨ t.blk.ccr.getLsbD 0 = true) : t.burstNotify (s.burst n k) = t := by
  rcases h with rfl | hce
  · rfl
  · unfold State.burstNotify
    split
    · rfl
    · exact if_pos hce

theorem State.burstNotify_cases (s : State) (x : Span) :
    s.burstNotify x = s ∨ ∃ a len, s.burstNotify x = s.notify a len := by
  unfold State.burstNotify
  split
  · exact .inl rfl
  · split
    · exact .inl rfl
    · exact .inr ⟨_, _, rfl⟩

@[simp] theorem State.burstNotify_blk (s : State) (x : Span) : (s.burstNotify x).blk = s.blk := by
  rcases s.burstNotify_cases x with h | ⟨a, len, h⟩ <;> rw [h]
  rfl

@[simp] theorem State.burstNotify_chan (s : State) (x : Span) (n : ChannelId) : (s.burstNotify x).chan n = s.chan n :=
  congrArg (Block.chan · n) (s.burstNotify_blk x)

@[simp] theorem State.burstNotify_params (s : State) (x : Span) : (s.burstNotify x).params = s.params := by
  rcases s.burstNotify_cases x with h | ⟨a, len, h⟩ <;> rw [h]
  rfl

@[simp] theorem State.burstNotify_bus (s : State) (x : Span) : (s.burstNotify x).bus = s.bus := by
  rcases s.burstNotify_cases x with h | ⟨a, len, h⟩ <;> rw [h]
  rfl

/-! ### The completion -/

/-- The end of RUN: a channel with no unit left completes (R205, R207). -/
def State.finish (s : State) (n : ChannelId) : State :=
  if (s.chan n).tcr = 0#24 then s.setBlk (s.blk.complete s.params.irqCap n) else s

theorem State.finish_of_done {s : State} {n : ChannelId} (h : (s.chan n).tcr = 0#24) :
    s.finish n = s.setBlk (s.blk.complete s.params.irqCap n) :=
  if_pos h

theorem State.finish_of_left {s : State} {n : ChannelId} (h : (s.chan n).tcr ≠ 0#24) : s.finish n = s :=
  if_neg h

@[simp] theorem State.finish_bus (s : State) (n : ChannelId) : (s.finish n).bus = s.bus := by
  unfold State.finish
  split <;> rfl

@[simp] theorem State.finish_trace (s : State) (n : ChannelId) : (s.finish n).trace = s.trace := by
  unfold State.finish
  split <;> rfl

@[simp] theorem Block.raiseIrq_chan (cap : Nat) (b : Block) (v : BitVec 8) (lv : Nat) (n : ChannelId) :
    (b.raiseIrq cap v lv).chan n = b.chan n := by
  rw [Block.raiseIrq_fields]
  cases n <;> rfl

/-- A completion changes the registers of its channel, and beside them Q and SEQ at most (R207). -/
theorem Block.complete_eq (cap : Nat) (b : Block) (n : ChannelId) :
    b.complete cap n =
      if (b.chan n).chcr.getLsbD 2 = true then
        (b.setChan n (b.chan n).completed).raiseIrq cap (b.chan n).vcrdma (b.ipra.extractLsb' 8 4).toNat
      else b.setChan n (b.chan n).completed := rfl

theorem Block.complete_chan (cap : Nat) (b : Block) (n m : ChannelId) :
    (b.complete cap n).chan m = (b.setChan n (b.chan n).completed).chan m := by
  rw [Block.complete_eq]
  split
  · exact Block.raiseIrq_chan _ _ _ _ m
  · rfl

theorem State.finish_chan (s : State) (n : ChannelId) :
    (s.finish n).chan n = if (s.chan n).tcr = 0#24 then (s.chan n).completed else s.chan n := by
  by_cases h : (s.chan n).tcr = 0#24
  · rw [State.finish_of_done h, if_pos h, State.chan, State.blk_setBlk, Block.complete_chan, Block.chan_setChan_self]
    rfl
  · rw [State.finish_of_left h, if_neg h]

/-! ### The loop -/

/-- The loop begun in `s` makes `k` turns: each is due, and no more is (R205). -/
structure State.Stops (s : State) (n : ChannelId) (k : Nat) : Prop where
  due     : ∀ j < k, (s.turns n j).ready n
  noneDue : ¬ (s.turns n k).ready n

@[simp] theorem State.addBudget_chan (s : State) (n : ChannelId) (b : Nat) :
    (s.addBudget n b).chan n = { s.chan n with clk := (s.chan n).clk + b } :=
  State.chan_setChan_self s n _

/-- With the budget added, the turns of a channel still change its registers only. -/
theorem State.turns_addBudget_blk (s : State) (n : ChannelId) (b k : Nat) :
    ((s.addBudget n b).turns n k).blk = s.blk.setChan n (((s.addBudget n b).turns n k).chan n) := by
  rw [State.turns_blk, State.addBudget, State.blk_setChan, Block.setChan_setChan]

/-- RUN when its loop makes `k` turns: the turns, the notification of the burst, and the completion (R205). -/
def State.runOf (s : State) (n : ChannelId) (b k : Nat) : State :=
  (((s.addBudget n b).turns n k).burstNotify ((s.addBudget n b).burst n k)).finish n

theorem State.run_turns (s : State) (n : ChannelId) (b : Nat) :
    ∃ k, (s.addBudget n b).Stops n k ∧ s.run n b = s.runOf n b k := by
  obtain ⟨k, hdue, hstop, hunits⟩ := runUnits_stops n (s.addBudget n b) none
  refine ⟨k, ⟨hdue, hstop⟩, ?_⟩
  unfold State.run
  simp only [hunits]
  rfl

/-- The registers of the channel: those after the turns, and completed if no unit is left. -/
theorem State.runOf_chan (s : State) (n : ChannelId) (b k : Nat) :
    (s.runOf n b k).chan n =
      if (((s.addBudget n b).turns n k).chan n).tcr = 0#24 then (((s.addBudget n b).turns n k).chan n).completed
      else ((s.addBudget n b).turns n k).chan n := by
  rw [State.runOf, State.finish_chan, State.burstNotify_chan]

@[simp] theorem State.runOf_bus (s : State) (n : ChannelId) (b k : Nat) :
    (s.runOf n b k).bus = ((s.addBudget n b).turns n k).bus := by
  rw [State.runOf, State.finish_bus, State.burstNotify_bus]

theorem State.runOf_trace (s : State) (n : ChannelId) (b k : Nat) :
    (s.runOf n b k).trace = (((s.addBudget n b).turns n k).burstNotify ((s.addBudget n b).burst n k)).trace :=
  State.finish_trace _ n

/-- COMPLETE as RUN ends with it: TE and TEM are set, the clock is 0, and with IE = 1 an interrupt is requested (R207). -/
theorem State.finish_eq (s : State) (n : ChannelId) :
    s.finish n =
      if (s.chan n).tcr = 0#24 then
        if (s.chan n).chcr.getLsbD 2 = true then
          (s.setChan n (s.chan n).completed).setBlk
            ((s.setChan n (s.chan n).completed).blk.raiseIrq s.params.irqCap (s.chan n).vcrdma
              (s.blk.ipra.extractLsb' 8 4).toNat)
        else s.setChan n (s.chan n).completed
      else s := by
  rw [State.finish, Block.complete_eq, apply_ite s.setBlk, State.blk_setChan, State.setChan, State.setBlk_setBlk]
  rfl

/-- Settles O38: the turns are those of `State.run_turns`, the span they gather is the hull, and COMPLETE is written
out. -/
theorem runIsTheLoop : Obligations.RunIsTheLoop := by
  intro s n b turn unitSize ready finish
  have hfinish (t : State) : t.finish n = finish t := t.finish_eq n
  obtain ⟨k, hk, hrun⟩ := s.run_turns n b
  refine ⟨k, hk.due, hk.noneDue, fun h => ?_, fun hk0 hce => ?_⟩
  · rw [hrun, State.runOf, hfinish]
    exact congrArg finish (State.burstNotify_none h)
  · obtain ⟨lo, hi, hull, hnotify⟩ := State.burstNotify_hull (s := s.addBudget n b) (n := n) hk0 hce
    have hcur : (turn k).cur = s.cur := (s.addBudget n b).turns_cur n k
    have hunit : unitBytes (chcrTS ((s.addBudget n b).chan n).chcr) = unitSize := by
      rw [State.addBudget_chan]
      rfl
    refine ⟨lo, hi, hull.loAttained, hull.loLeast, hunit ▸ hull.hiAttained, hunit ▸ hull.hiGreatest, ?_⟩
    rw [hrun, State.runOf, hfinish, ← hcur]
    exact congrArg finish hnotify

end Sys2Proof.Machine
end

section
/-! PROOFS. PASS (spec/42_dma_engine.md R200 to R205, R209, R210, R213 d to f): which channels run, and what a pass
leaves unchanged. -/

namespace Sys2Proof.Machine

/-! ### Which channels run -/

theorem exec_execPass (c : Word) (s : State) :
    exec (.execPass c) s = .next { s.pass c.toNat with result := none } := rfl

theorem exec_execPass_next {c : Word} {s t : State} (h : exec (.execPass c) s = .next t) :
    t = { s.pass c.toNat with result := none } :=
  State.done_next h

section
variable {s : State} (b : Nat)

theorem State.pass_of_idle
    (h : ¬ EngineOn s.blk ∨ (¬ Requesting (s.chan .ch0) ∧ ¬ Requesting (s.chan .ch1))) : s.pass b = s := by
  rcases s.pass_cases b with ⟨e, -⟩ | ⟨hon, h0, -⟩ | ⟨hon, -, h1, -⟩ | ⟨hon, h0, -⟩
  · exact e
  · tauto
  · tauto
  · tauto

theorem State.pass_of_ch0 (hon : EngineOn s.blk) (h0 : Requesting (s.chan .ch0))
    (h1 : ¬ Requesting (s.chan .ch1) ∨ s.blk.dmaor.getLsbD 3 = false) : s.pass b = s.run .ch0 b := by
  rcases s.pass_cases b with ⟨-, hidle⟩ | ⟨-, -, -, e⟩ | ⟨-, h0', -⟩ | ⟨-, -, h1', hpr, -⟩
  · tauto
  · exact e
  · exact absurd h0 h0'
  · rcases h1 with h1 | h1
    · exact absurd h1' h1
    · exact absurd hpr (Bool.eq_false_iff.mp h1)

theorem State.pass_of_ch1 (hon : EngineOn s.blk) (h0 : ¬ Requesting (s.chan .ch0)) (h1 : Requesting (s.chan .ch1)) :
    s.pass b = s.run .ch1 b := by
  rcases s.pass_cases b with ⟨-, hidle⟩ | ⟨-, h0', -⟩ | ⟨-, -, -, e⟩ | ⟨-, h0', -⟩
  · tauto
  · exact absurd h0' h0
  · exact e
  · exact absurd h0' h0

theorem State.pass_of_roundRobin (hon : EngineOn s.blk) (h0 : Requesting (s.chan .ch0))
    (h1 : Requesting (s.chan .ch1)) (hpr : s.blk.dmaor.getLsbD 3 = true) :
    s.pass b = (s.run .ch0 (rrBudget (s.chan .ch0) b)).run .ch1 (rrBudget (s.chan .ch1) b) := by
  rcases s.pass_cases b with ⟨-, hidle⟩ | ⟨-, -, h1', -⟩ | ⟨-, h0', -⟩ | ⟨-, -, -, -, e⟩
  · tauto
  · rcases h1' with h1' | h1'
    · exact absurd h1 h1'
    · exact absurd hpr (Bool.eq_false_iff.mp h1')
  · exact absurd h0 h0'
  · exact e

theorem LoneChannel.pass {n : ChannelId} (h : LoneChannel s n) : s.pass b = s.run n b := by
  obtain ⟨hon, hn, hothers⟩ := h
  cases n with
  | ch0 => exact State.pass_of_ch0 b hon hn (.inl (hothers .ch1 nofun))
  | ch1 => exact State.pass_of_ch1 b hon (hothers .ch0 nofun) hn

end

theorem LoneChannel.wellFormed {s : State} {n : ChannelId} (h : LoneChannel s n) : ¬ Malformed (s.chan n) := by
  obtain ⟨-, ⟨-, -, hwf⟩, -⟩ := h
  exact hwf

theorem rrBudget_eq (c : Channel) (b : Nat) : rrBudget c b = if c.chcr.getLsbD 3 = false then 2 * b else b := by
  unfold rrBudget chcrTA
  cases c.chcr.getLsbD 3 <;> rfl

/-- Settles O37: the cases of `State.pass_cases`. -/
theorem passArbitration : Obligations.PassArbitration := by
  intro c wd s p0 p1 share
  have hshare (n : ChannelId) : rrBudget (s.chan n) c.toNat = share n := rrBudget_eq _ _
  simp only [exec_execPass]
  refine ⟨decode_port (cls := 1#4) c wd (by decide) (by decide), fun hidle => ?_, fun hon h0 h1 => ?_,
    fun hon h0 h1 => ?_, fun hon h0 h1 hpr => ?_⟩
  · rw [State.pass_of_idle _ hidle]
  · rw [State.pass_of_ch0 _ hon h0 h1]
  · rw [State.pass_of_ch1 _ hon h0 h1]
  · rw [State.pass_of_roundRobin _ hon h0 h1 hpr, hshare, hshare]

theorem engineOff_of_latch {x : BitVec 4} {b : Block} (hx : x = 0x2#4 ∨ x = 0x4#4) :
    ¬ EngineOn { b with dmaor := b.dmaor ||| x } := by
  rintro ⟨-, hae, hnmif⟩
  rcases hx with rfl | rfl
  · simp at hnmif
  · simp at hae

/-- Settles O48: a latched flag turns the engine off, so that a pass begun then is idle. -/
theorem flagLatches : Obligations.FlagLatches := by
  refine fun wd s => ⟨rfl, rfl, rfl, rfl, fun t b ht => ?_⟩
  obtain ⟨x, hx, rfl⟩ : ∃ x, (x = 0x2#4 ∨ x = 0x4#4) ∧
      t = { s.setBlk { s.blk with dmaor := s.blk.dmaor ||| x } with result := none } := by
    rcases ht with ht | ht
    · exact ⟨_, .inl rfl, State.done_next ht⟩
    · exact ⟨_, .inr rfl, State.done_next ht⟩
  rw [exec_execPass, State.pass_of_idle]
  left
  rw [State.blk_with_result, State.blk_setBlk]
  exact engineOff_of_latch hx

/-! ### What a RUN leaves unchanged -/

/-- What the engine never changes in a block: everything but SAR, DAR, TCR, TE, TEM and CLK of the channels and Q;
SEQ may rise (R213 f). -/
structure Block.EngineFrame (b b' : Block) : Prop where
  dmaor  : b'.dmaor = b.dmaor
  ccr    : b'.ccr = b.ccr
  ipra   : b'.ipra = b.ipra
  lines  : b'.lines = b.lines
  data   : b'.data = b.data
  da     : b'.da = b.da
  seq    : b.seq ≤ b'.seq
  vcrdma : ∀ n, (b'.chan n).vcrdma = (b.chan n).vcrdma
  chcr   : ∀ n, (b'.chan n).chcr &&& 0xFFFD#16 = (b.chan n).chcr &&& 0xFFFD#16

theorem Block.EngineFrame.refl (b : Block) : b.EngineFrame b :=
  ⟨rfl, rfl, rfl, rfl, rfl, rfl, le_rfl, fun _ => rfl, fun _ => rfl⟩

theorem Block.EngineFrame.trans {a b c : Block} (h : a.EngineFrame b) (h' : b.EngineFrame c) : a.EngineFrame c where
  dmaor := h'.dmaor.trans h.dmaor
  ccr := h'.ccr.trans h.ccr
  ipra := h'.ipra.trans h.ipra
  lines := h'.lines.trans h.lines
  data := h'.data.trans h.data
  da := h'.da.trans h.da
  seq := h.seq.trans h'.seq
  vcrdma n := (h'.vcrdma n).trans (h.vcrdma n)
  chcr n := (h'.chcr n).trans (h.chcr n)

theorem Block.engineFrame_setChan (b : Block) {n : ChannelId} {c : Channel} (hv : c.vcrdma = (b.chan n).vcrdma)
    (hc : c.chcr &&& 0xFFFD#16 = (b.chan n).chcr &&& 0xFFFD#16) : b.EngineFrame (b.setChan n c) := by
  have hchan (m : ChannelId) : ((b.setChan n c).chan m).vcrdma = (b.chan m).vcrdma
      ∧ ((b.setChan n c).chan m).chcr &&& 0xFFFD#16 = (b.chan m).chcr &&& 0xFFFD#16 := by
    by_cases hm : m = n
    · subst hm
      rw [Block.chan_setChan_self]
      exact ⟨hv, hc⟩
    · rw [Block.chan_setChan_other b c hm]
      exact ⟨rfl, rfl⟩
  constructor <;> simp [hchan]

theorem Block.engineFrame_queue (b : Block) (q : List Entry) {k : Nat} (h : b.seq ≤ k) :
    b.EngineFrame { b with q := q, seq := k } :=
  ⟨rfl, rfl, rfl, rfl, rfl, rfl, h, fun n => by cases n <;> rfl, fun n => by cases n <;> rfl⟩

theorem Block.engineFrame_raiseIrq (cap : Nat) (b : Block) (v : BitVec 8) (lv : Nat) :
    b.EngineFrame (b.raiseIrq cap v lv) := by
  rcases Block.raiseIrq_cases cap b v lv with h | ⟨-, -, -, h⟩ <;> rw [h]
  · exact .refl b
  · exact b.engineFrame_queue _ (Nat.le_succ _)

theorem Block.engineFrame_complete (cap : Nat) (b : Block) (n : ChannelId) : b.EngineFrame (b.complete cap n) := by
  have hte (x : BitVec 16) : (x ||| 0x0002#16) &&& 0xFFFD#16 = x &&& 0xFFFD#16 := by
    rw [BitVec.and_comm, BitVec.and_or_distrib_left, show 0xFFFD#16 &&& 0x0002#16 = 0#16 from rfl, BitVec.or_zero,
      BitVec.and_comm]
  have hcompleted := b.engineFrame_setChan (n := n) (c := (b.chan n).completed) rfl (hte _)
  rw [Block.complete_eq]
  split
  · exact hcompleted.trans (Block.engineFrame_raiseIrq _ _ _ _)
  · exact hcompleted

/-- The same for the machine: the other block, the parameters, the page map and the inputs never change (R266). -/
structure State.EngineFrame (s t : State) : Prop where
  block    : s.blk.EngineFrame t.blk
  other    : ∀ ctx, ctx ≠ s.cur → t.instOf ctx = s.instOf ctx
  cur      : t.cur = s.cur
  params   : t.params = s.params
  pages    : t.pages = s.pages
  inputs   : t.inputs = s.inputs
  masterOn : t.masterOn = s.masterOn
  slaveOn  : t.slaveOn = s.slaveOn

theorem State.EngineFrame.refl (s : State) : s.EngineFrame s :=
  ⟨.refl _, fun _ _ => rfl, rfl, rfl, rfl, rfl, rfl, rfl⟩

theorem State.EngineFrame.setBlk {s t : State} (h : s.EngineFrame t) {b : Block} (hb : t.blk.EngineFrame b) :
    s.EngineFrame (t.setBlk b) :=
  { h with
    block := by
      rw [State.blk_setBlk]
      exact h.block.trans hb
    other := fun ctx hctx => (State.instOf_setBlk_other t b (h.cur.symm ▸ hctx)).trans (h.other ctx hctx) }

theorem State.EngineFrame.moveUnit {s t : State} (h : s.EngineFrame t) (src dst : Word) (ts : BitVec 2) :
    s.EngineFrame (t.moveUnit src dst ts) :=
  State.moveUnit_induct (fun _ _ _ _ h => { h with }) src dst ts h

theorem State.EngineFrame.unitTurn {s t : State} (h : s.EngineFrame t) (n : ChannelId) :
    s.EngineFrame (t.unitTurn n) := by
  have hchan := t.moveUnit_chan (t.chan n).sar (t.chan n).dar (chcrTS (t.chan n).chcr) n
  refine (h.moveUnit _ _ _).setBlk (Block.engineFrame_setChan _ ?_ ?_)
  · exact (congrArg Channel.vcrdma hchan).symm
  · exact (congrArg (fun c : Channel => c.chcr &&& 0xFFFD#16) hchan).symm

theorem State.EngineFrame.run {s t : State} (h : s.EngineFrame t) (n : ChannelId) (b : Nat) :
    s.EngineFrame (t.run n b) :=
  State.run_induct n b t (fun h => h.setBlk (Block.engineFrame_setChan _ rfl rfl)) (fun _ _ h => h.unitTurn n)
    (fun _ _ _ h => { h with }) (fun _ _ h => h.setBlk (Block.engineFrame_complete _ _ n)) h

theorem State.engineFrame_pass (s : State) (b : Nat) : s.EngineFrame (s.pass b) := by
  rcases s.pass_cases b with ⟨e, -⟩ | ⟨-, -, -, e⟩ | ⟨-, -, -, e⟩ | ⟨-, -, -, -, e⟩ <;> rw [e]
  · exact .refl s
  · exact (State.EngineFrame.refl s).run _ _
  · exact (State.EngineFrame.refl s).run _ _
  · exact ((State.EngineFrame.refl s).run _ _).run _ _

/-- Settles O44: every part of a pass keeps `State.EngineFrame`. -/
theorem passFrame : Obligations.PassFrame := by
  intro s t b ht
  obtain ⟨hb, hother, hcur, hparams, hpages, hinputs, hm, hs⟩ := s.engineFrame_pass b.toNat
  rw [exec_execPass_next ht]
  refine ⟨hb.dmaor, hb.ccr, hb.ipra, hb.lines, hb.data, hb.da, hb.seq, fun n => ⟨hb.vcrdma n, hb.chcr n⟩, fun hc => ?_,
    fun hc => ?_, hcur, hparams, hpages, hinputs, hm, hs⟩
  · exact hother .slave (by rw [hc]; nofun)
  · exact hother .master (by rw [hc]; nofun)

/-! ### The channels after a RUN and after a pass -/

theorem ch1_ne_ch0 : ChannelId.ch1 ≠ .ch0 := nofun

/-- RUN of one channel does not touch the other. -/
theorem State.run_chan_other {n m : ChannelId} (hm : m ≠ n) (s : State) (b : Nat) : (s.run n b).chan m = s.chan m :=
  State.run_induct (P := fun t => t.chan m = s.chan m) n b s
    (fun _ => State.chan_setChan_other s _ hm)
    (fun t _ h => (t.unitTurn_chan_other hm).trans h)
    (fun _ _ _ h => h)
    (fun t _ h => by
      rw [State.chan, State.blk_setBlk, Block.complete_chan, Block.chan_setChan_other _ _ hm]
      exact h)
    rfl

@[simp] theorem State.run_params (s : State) (n : ChannelId) (b : Nat) : (s.run n b).params = s.params :=
  ((State.EngineFrame.refl s).run n b).params

/-- A channel that gets no turn keeps its registers (R202, R204 a). -/
theorem State.pass_chan_of_not_getsTurn {s : State} {n : ChannelId} (h : ¬ GetsTurn s n) (b : Nat) :
    (s.pass b).chan n = s.chan n := by
  rcases s.pass_cases b with ⟨e, -⟩ | ⟨hon, h0, -, e⟩ | ⟨hon, hn0, h1, e⟩ | ⟨hon, h0, h1, hpr, e⟩
  · rw [e]
  · cases n with
    | ch0 => exact absurd ⟨hon, h0, nofun⟩ h
    | ch1 => rw [e, State.run_chan_other ch1_ne_ch0]
  · cases n with
    | ch0 => rw [e, State.run_chan_other ch1_ne_ch0.symm]
    | ch1 => exact absurd ⟨hon, h1, fun _ h0 => absurd h0 hn0⟩ h
  · cases n with
    | ch0 => exact absurd ⟨hon, h0, nofun⟩ h
    | ch1 => exact absurd ⟨hon, h1, fun _ _ => hpr⟩ h

/-- Settles O45: `State.pass_chan_of_not_getsTurn`. -/
theorem noTurnNoChange : Obligations.NoTurnNoChange := by
  intro s t b n hn ht
  rw [exec_execPass_next ht]
  exact State.pass_chan_of_not_getsTurn hn b.toNat

/-- A channel that gets a turn has after the pass the registers of its RUN (R204). -/
theorem State.pass_chan_of_getsTurn {s : State} {n : ChannelId} (h : GetsTurn s n) (b : Nat) :
    ∃ u b', u.params = s.params ∧ (s.pass b).chan n = (State.run u n b').chan n := by
  obtain ⟨hon, hn, hprio⟩ := h
  rcases s.pass_cases b with ⟨-, hidle⟩ | ⟨-, h0, h1, e⟩ | ⟨-, h0, h1, e⟩ | ⟨-, -, -, -, e⟩
  · cases n <;> tauto
  · cases n with
    | ch0 => exact ⟨s, b, rfl, by rw [e]⟩
    | ch1 =>
      rcases h1 with h1 | h1
      · exact absurd hn h1
      · exact absurd (hprio rfl h0) (Bool.eq_false_iff.mp h1)
  · cases n with
    | ch0 => exact absurd hn h0
    | ch1 => exact ⟨s, b, rfl, by rw [e]⟩
  · cases n with
    | ch0 => exact ⟨s, _, rfl, by rw [e, State.run_chan_other ch1_ne_ch0.symm]⟩
    | ch1 => exact ⟨_, _, State.run_params s .ch0 _, by rw [e]⟩

/-- The clock of a channel that RUN does not complete is below its next cost (R205). -/
theorem State.run_clk_lt {s : State} {n : ChannelId} {b : Nat} (h : ((s.run n b).chan n).chcr.getLsbD 1 = false) :
    ((s.run n b).chan n).clk < eat s.params ((s.run n b).chan n).sar ((s.run n b).chan n).dar := by
  obtain ⟨k, hk, hrun⟩ := s.run_turns n b
  rw [hrun, State.runOf_chan] at h ⊢
  split at h
  · simp [Channel.completed] at h
  · next hleft =>
    rw [if_neg hleft]
    have hnot := hk.noneDue
    rw [State.ready, State.turns_params] at hnot
    exact Nat.lt_of_not_le fun hle => hnot ⟨hleft, hle⟩

/-- Settles O42: a channel that had a turn is as its RUN left it. -/
theorem clockBelowNextCost : Obligations.ClockBelowNextCost := by
  intro s t b n hn ht hte
  obtain ⟨u, b', hu, hchan⟩ := State.pass_chan_of_getsTurn hn b.toNat
  have hparams : (s.pass b.toNat).params = u.params := (s.engineFrame_pass _).params.trans hu.symm
  rw [exec_execPass_next ht] at hte ⊢
  rw [State.chan_with_result, hchan] at hte ⊢
  rw [hparams]
  exact State.run_clk_lt hte

/-! ### Well-formed channels -/

/-- The engine advances an address by a multiple of what it is aligned to (R97, R202). -/
theorem dvd_delta {mode ts : BitVec 2} (h : mode ≠ 3#2) :
    min (unitBytes ts) 4 ∣ (delta mode (unitBytes ts)).toNat := by
  rw [delta_of_not_reserved _ h]
  clear h
  revert mode ts
  decide

/-- The sum modulo 2^32 stays aligned. -/
theorem dvd_toNat_add {ts : BitVec 2} {a d : Word} (ha : min (unitBytes ts) 4 ∣ a.toNat)
    (hd : min (unitBytes ts) 4 ∣ d.toNat) : min (unitBytes ts) 4 ∣ (a + d).toNat := by
  have hpow (ts : BitVec 2) : min (unitBytes ts) 4 ∣ 2 ^ 32 := by
    revert ts
    decide
  rw [BitVec.toNat_add]
  exact (Nat.dvd_mod_iff (hpow ts)).mpr (Nat.dvd_add ha hd)

theorem not_malformed_iff (c : Channel) : ¬ Malformed c ↔
    c.chcr.extractLsb' 12 2 ≠ 3#2 ∧ c.chcr.extractLsb' 14 2 ≠ 3#2
      ∧ min (unitBytes (c.chcr.extractLsb' 10 2)) 4 ∣ c.sar.toNat
      ∧ min (unitBytes (c.chcr.extractLsb' 10 2)) 4 ∣ c.dar.toNat := by
  simp only [Malformed, not_or, not_not, ne_eq]

theorem not_malformed_advance {c : Channel} (h : ¬ Malformed c) (p : Params) : ¬ Malformed (c.advance p) := by
  rw [not_malformed_iff] at h ⊢
  obtain ⟨hsm, hdm, hsar, hdar⟩ := h
  exact ⟨hsm, hdm, dvd_toNat_add hsar (dvd_delta hsm), dvd_toNat_add hdar (dvd_delta hdm)⟩

/-- A completion sets TE, which is no part of the configuration. -/
theorem malformed_completed (c : Channel) : Malformed c.completed ↔ Malformed c := by
  simp [Malformed, Channel.completed, BitVec.extractLsb'_or]

theorem State.turns_not_malformed {s : State} {n : ChannelId} (h : ¬ Malformed (s.chan n)) (k : Nat) :
    ¬ Malformed ((s.turns n k).chan n) :=
  State.turns_induct (P := fun t => ¬ Malformed (t.chan n))
    (fun t ht => by rw [State.unitTurn_chan]; exact not_malformed_advance ht t.params) h k

theorem State.run_not_malformed {s : State} {m : ChannelId} (h : ¬ Malformed (s.chan m)) (n : ChannelId) (b : Nat) :
    ¬ Malformed ((s.run n b).chan m) := by
  by_cases hm : m = n
  · subst hm
    have hturns (k : Nat) : ¬ Malformed (((s.addBudget m b).turns m k).chan m) :=
      State.turns_not_malformed (by rw [State.addBudget_chan]; exact h) k
    obtain ⟨k, -, hrun⟩ := s.run_turns m b
    rw [hrun, State.runOf_chan]
    split
    · rw [malformed_completed]
      exact hturns k
    · exact hturns k
  · rw [State.run_chan_other hm]
    exact h

/-- Settles O43: every part of a RUN keeps the alignment and the modes. -/
theorem passKeepsChannelsWellFormed : Obligations.PassKeepsChannelsWellFormed := by
  intro s t b n hn ht
  rw [exec_execPass_next ht, State.chan_with_result]
  rcases s.pass_cases b.toNat with ⟨e, -⟩ | ⟨-, -, -, e⟩ | ⟨-, -, -, e⟩ | ⟨-, -, -, -, e⟩ <;> rw [e]
  · exact hn
  · exact State.run_not_malformed hn _ _
  · exact State.run_not_malformed hn _ _
  · exact State.run_not_malformed (State.run_not_malformed hn _ _) _ _

end Sys2Proof.Machine
end

section
/-! PROOFS. A channel that is alone (spec/42_dma_engine.md R205 to R207, R213 a, b): how many units a budget moves, and
what the registers and Q are then. -/

namespace Sys2Proof.Machine

/-! ### How many turns RUN makes when every unit has one cost -/

section
variable {s : State} {n : ChannelId} {cost : Nat}

/-- How many units are still to be moved: the count over the step, rounded up (R206). -/
def Channel.unitsLeft (p : Params) (c : Channel) : Nat :=
  (c.tcr.toNat + tcrStep p (chcrTS c.chcr) - 1) / tcrStep p (chcrTS c.chcr)

theorem Channel.lt_unitsLeft_iff (p : Params) (c : Channel) (j : Nat) :
    j < c.unitsLeft p ↔ j * tcrStep p (chcrTS c.chcr) < c.tcr.toNat := by
  have hstep := tcrStep_pos p (chcrTS c.chcr)
  rw [Channel.unitsLeft, Nat.lt_iff_add_one_le, Nat.le_div_iff_mul_le hstep, Nat.succ_mul]
  omega

theorem Channel.tcr_advanced_eq_zero_iff (p : Params) (c : Channel) (j : Nat) :
    (c.advanced p j).tcr = 0#24 ↔ c.unitsLeft p ≤ j := by
  rw [← Nat.not_lt, Channel.lt_unitsLeft_iff, ← BitVec.toNat_inj, Channel.toNat_tcr_advanced, BitVec.toNat_ofNat]
  omega

theorem State.turns_clk (hcost : ∀ x y, eat s.params x y = cost) (j : Nat) :
    ((s.turns n j).chan n).clk = (s.chan n).clk - j * cost := by
  induction j with
  | zero => simp
  | succ j ih =>
    rw [State.turns_succ, State.unitTurn_chan, State.turns_params, hcost, Nat.succ_mul, Nat.sub_add_eq, ← ih]

theorem State.ready_turns_iff (hcost : ∀ x y, eat s.params x y = cost) (j : Nat) :
    (s.turns n j).ready n ↔ j < (s.chan n).unitsLeft s.params ∧ (j + 1) * cost ≤ (s.chan n).clk := by
  have hpos : 0 < cost := hcost 0 0 ▸ eat_pos s.params 0 0
  have htcr : ((s.turns n j).chan n).tcr = 0#24 ↔ (s.chan n).unitsLeft s.params ≤ j := by
    rw [State.turns_chan]
    exact Channel.tcr_advanced_eq_zero_iff s.params (s.chan n) j
  rw [State.ready, ne_eq, htcr, State.turns_params, hcost, State.turns_clk hcost, Nat.succ_mul]
  omega

theorem State.Stops.turns_of_covered {k : Nat} (hk : s.Stops n k) (hcost : ∀ x y, eat s.params x y = cost)
    (h : (s.chan n).unitsLeft s.params * cost ≤ (s.chan n).clk) : k = (s.chan n).unitsLeft s.params := by
  have hnone := hk.noneDue
  rw [State.ready_turns_iff hcost] at hnone
  refine Nat.le_antisymm (Nat.le_of_not_lt fun hlt => ?_) (Nat.le_of_not_lt fun hlt => hnone ⟨hlt, ?_⟩)
  · exact Nat.lt_irrefl _ ((State.ready_turns_iff hcost _).mp (hk.due _ hlt)).1
  · exact (Nat.mul_le_mul_right cost hlt).trans h

theorem State.Stops.turns_of_short {k : Nat} (hk : s.Stops n k) (hcost : ∀ x y, eat s.params x y = cost)
    (h : (s.chan n).clk < (s.chan n).unitsLeft s.params * cost) : k = (s.chan n).clk / cost := by
  have hpos : 0 < cost := hcost 0 0 ▸ eat_pos s.params 0 0
  have hnone := hk.noneDue
  have hdiv := Nat.div_lt_of_lt_mul (Nat.mul_comm _ cost ▸ h)
  rw [State.ready_turns_iff hcost] at hnone
  refine Nat.le_antisymm (Nat.le_of_not_lt fun hlt => ?_) (Nat.le_of_not_lt fun hlt => hnone ⟨by omega, ?_⟩)
  · have hdue := ((State.ready_turns_iff hcost _).mp (hk.due _ hlt)).2
    rw [← Nat.le_div_iff_mul_le hpos] at hdue
    omega
  · exact (Nat.le_div_iff_mul_le hpos).mp hlt

end

/-! ### RUN with the budget -/

section
variable {s : State} {n : ChannelId} {cost : Nat}

theorem State.turns_addBudget_chan (hcost : ∀ x y, eat s.params x y = cost) (b k : Nat) :
    ((s.addBudget n b).turns n k).chan n =
      { (s.chan n).advanced s.params k with clk := (s.chan n).clk + b - k * cost } := by
  rw [State.turns_chan, State.turns_clk (s := s.addBudget n b) hcost, State.addBudget_chan]
  rfl

/-- A clock that covers all units left: RUN moves them all (R205). -/
theorem State.run_of_covered (hcost : ∀ x y, eat s.params x y = cost) {b : Nat}
    (h : (s.chan n).unitsLeft s.params * cost ≤ (s.chan n).clk + b) :
    s.run n b = s.runOf n b ((s.chan n).unitsLeft s.params)
      ∧ (((s.addBudget n b).turns n ((s.chan n).unitsLeft s.params)).chan n).tcr = 0#24 := by
  obtain ⟨k, hk, hrun⟩ := s.run_turns n b
  have hturns := hk.turns_of_covered hcost (by rw [State.addBudget_chan]; exact h)
  rw [State.addBudget_chan] at hturns
  subst hturns
  refine ⟨hrun, ?_⟩
  rw [State.turns_addBudget_chan hcost]
  exact (Channel.tcr_advanced_eq_zero_iff _ _ _).mpr le_rfl

/-- A clock that does not: RUN moves as many units as it covers, and some are left (R205). -/
theorem State.run_of_short (hcost : ∀ x y, eat s.params x y = cost) {b : Nat}
    (h : (s.chan n).clk + b < (s.chan n).unitsLeft s.params * cost) :
    s.run n b = s.runOf n b (((s.chan n).clk + b) / cost)
      ∧ (((s.addBudget n b).turns n (((s.chan n).clk + b) / cost)).chan n).tcr ≠ 0#24 := by
  obtain ⟨k, hk, hrun⟩ := s.run_turns n b
  have hturns := hk.turns_of_short hcost (by rw [State.addBudget_chan]; exact h)
  rw [State.addBudget_chan] at hturns
  subst hturns
  refine ⟨hrun, ?_⟩
  rw [State.turns_addBudget_chan hcost]
  refine (Channel.tcr_advanced_eq_zero_iff _ _ _).not.mpr (Nat.not_le.mpr ?_)
  exact Nat.div_lt_of_lt_mul (Nat.mul_comm _ cost ▸ h)

/-- The registers of a completed channel: all units moved, TE and TEM set, the clock 0 (R206, R207). -/
theorem State.run_chan_of_covered (hcost : ∀ x y, eat s.params x y = cost) {b : Nat}
    (h : (s.chan n).unitsLeft s.params * cost ≤ (s.chan n).clk + b) :
    (s.run n b).chan n = ((s.chan n).advanced s.params ((s.chan n).unitsLeft s.params)).completed := by
  obtain ⟨hrun, hdone⟩ := State.run_of_covered hcost h
  rw [hrun, State.runOf_chan, if_pos hdone, State.turns_addBudget_chan hcost]
  rfl

/-- The registers of a channel that is not done: the clock keeps the rest (R205). -/
theorem State.run_chan_of_short (hcost : ∀ x y, eat s.params x y = cost) {b : Nat}
    (h : (s.chan n).clk + b < (s.chan n).unitsLeft s.params * cost) :
    (s.run n b).chan n =
      { (s.chan n).advanced s.params (((s.chan n).clk + b) / cost) with clk := ((s.chan n).clk + b) % cost } := by
  obtain ⟨hrun, hleft⟩ := State.run_of_short hcost h
  rw [hrun, State.runOf_chan, if_neg hleft, State.turns_addBudget_chan hcost, Nat.mod_eq_sub_div_mul]

/-! ### Q after RUN -/

theorem Block.raiseIrq_setChan_q (cap : Nat) (b : Block) (n : ChannelId) (c : Channel) (v : BitVec 8) (lv : Nat) :
    ((b.setChan n c).raiseIrq cap v lv).q = (b.raiseIrq cap v lv).q := by
  simp only [Block.raiseIrq, Block.setChan_q, Block.setChan_seq]
  split_ifs <;> simp

theorem Block.complete_q (cap : Nat) (b : Block) (n : ChannelId) :
    (b.complete cap n).q =
      if (b.chan n).chcr.getLsbD 2 = true then
        (b.raiseIrq cap (b.chan n).vcrdma (b.ipra.extractLsb' 8 4).toNat).q
      else b.q := by
  rw [Block.complete_eq]
  split
  · exact Block.raiseIrq_setChan_q _ _ _ _ _ _
  · exact Block.setChan_q _ _ _

/-- A completion requests its interrupt when IE = 1 (R207). -/
theorem State.run_q_of_covered (hcost : ∀ x y, eat s.params x y = cost) {b : Nat}
    (h : (s.chan n).unitsLeft s.params * cost ≤ (s.chan n).clk + b) :
    (s.run n b).blk.q =
      if (s.chan n).chcr.getLsbD 2 = true then
        (s.blk.raiseIrq s.params.irqCap (s.chan n).vcrdma (s.blk.ipra.extractLsb' 8 4).toNat).q
      else s.blk.q := by
  obtain ⟨hrun, hdone⟩ := State.run_of_covered hcost h
  rw [hrun, State.runOf, State.finish_of_done (by rwa [State.burstNotify_chan]), State.blk_setBlk,
    State.burstNotify_blk, State.burstNotify_params, State.turns_params, State.turns_addBudget_blk, Block.complete_q,
    Block.chan_setChan_self, Block.raiseIrq_setChan_q, Block.setChan_q, Block.setChan_ipra,
    State.turns_addBudget_chan hcost]
  rfl

theorem State.run_q_of_short (hcost : ∀ x y, eat s.params x y = cost) {b : Nat}
    (h : (s.chan n).clk + b < (s.chan n).unitsLeft s.params * cost) : (s.run n b).blk.q = s.blk.q := by
  obtain ⟨hrun, hleft⟩ := State.run_of_short hcost h
  rw [hrun, State.runOf, State.finish_of_left (by rwa [State.burstNotify_chan]), State.burstNotify_blk,
    State.turns_addBudget_blk, Block.setChan_q]

end

/-! ### The registers after `k` units -/

/-- An address that the mode has moved over `len` bytes: up for 1, down for 2 (R97). -/
def movedAddress (mode : BitVec 2) (a : Word) (len : Nat) : Word :=
  if mode = 1#2 then a + BitVec.ofNat 32 len else if mode = 2#2 then a - BitVec.ofNat 32 len else a

theorem add_mul_delta {mode : BitVec 2} (h : mode ≠ 3#2) (a : Word) (k u : Nat) :
    a + BitVec.ofNat 32 k * delta mode u = movedAddress mode a (k * u) := by
  rw [delta_of_not_reserved u h, movedAddress, BitVec.ofNat_mul]
  split_ifs
  · rfl
  · rw [BitVec.mul_neg, ← BitVec.sub_eq_add_neg]
  · simp

/-- The registers after `k` units of a well-formed channel (R206). -/
theorem Channel.advanced_eq {c : Channel} (hwf : ¬ Malformed c) (p : Params) (k : Nat) :
    c.advanced p k =
      { c with
        sar := movedAddress (chcrSM c.chcr) c.sar (k * unitBytes (chcrTS c.chcr))
        dar := movedAddress (chcrDM c.chcr) c.dar (k * unitBytes (chcrTS c.chcr))
        tcr := BitVec.ofNat 24 (c.tcr.toNat - k * tcrStep p (chcrTS c.chcr)) } := by
  obtain ⟨hsm, hdm, -, -⟩ := (not_malformed_iff c).mp hwf
  rw [← add_mul_delta (mode := chcrSM c.chcr) hsm, ← add_mul_delta (mode := chcrDM c.chcr) hdm]
  rfl

theorem movedAddress_increment (a : Word) (len : Nat) : movedAddress 1#2 a len = a + BitVec.ofNat 32 len := rfl

theorem State.turns_sar {s : State} {n : ChannelId} (h : chcrSM (s.chan n).chcr ≠ 3#2) (j : Nat) :
    ((s.turns n j).chan n).sar =
      movedAddress (chcrSM (s.chan n).chcr) (s.chan n).sar (j * unitBytes (chcrTS (s.chan n).chcr)) := by
  rw [State.turns_chan, ← add_mul_delta h]
  rfl

theorem State.turns_dar {s : State} {n : ChannelId} (h : chcrDM (s.chan n).chcr ≠ 3#2) (j : Nat) :
    ((s.turns n j).chan n).dar =
      movedAddress (chcrDM (s.chan n).chcr) (s.chan n).dar (j * unitBytes (chcrTS (s.chan n).chcr)) := by
  rw [State.turns_chan, ← add_mul_delta h]
  rfl

/-- Settles O40: a budget that covers all units is that of `State.run_of_covered`, a smaller one that of
`State.run_of_short`. -/
theorem loneChannelTransfer : Obligations.LoneChannelTransfer := by
  intro s n b cost c left unitSize advanced hlone hclk _ hcost hstep
  have hone : tcrStep s.params (chcrTS c.chcr) = 1 := by
    rw [tcrStep_eq, if_neg]
    exact fun h => by simp [hstep h.1] at h
  have hunits : c.unitsLeft s.params = left := by
    rw [Channel.unitsLeft, hone, Nat.div_one, Nat.add_sub_cancel]
  have hbudget : c.clk + b.toNat = b.toNat := by rw [hclk, Nat.zero_add]
  have hadvanced (k : Nat) : c.advanced s.params k =
      { c with
        sar := advanced (c.chcr.extractLsb' 12 2) c.sar k
        dar := advanced (c.chcr.extractLsb' 14 2) c.dar k
        tcr := BitVec.ofNat 24 (left - k) } := by
    rw [Channel.advanced_eq hlone.wellFormed, hone, Nat.mul_one]
    rfl
  refine ⟨_, exec_execPass b s, fun hcovered => ?_, fun hshort => ?_⟩
  · have hdone : BitVec.ofNat 24 (left - left) = 0 := congrArg (BitVec.ofNat 24) (Nat.sub_self left)
    rw [← hunits, ← hbudget] at hcovered
    have hchan := State.run_chan_of_covered hcost hcovered
    have hq := State.run_q_of_covered hcost hcovered
    rw [hlone.pass, State.chan_with_result, State.blk_with_result, hchan, hunits, hadvanced]
    refine ⟨?_, fun hie => ?_, fun hie => ?_⟩
    · rw [hdone]
      rfl
    · rw [hq, if_neg (Bool.eq_false_iff.mp hie)]
    · rw [hq, if_pos hie]
  · rw [← hunits, ← hbudget] at hshort
    have hchan := State.run_chan_of_short hcost hshort
    rw [hbudget, hadvanced] at hchan
    rw [hlone.pass, State.chan_with_result, State.blk_with_result]
    exact ⟨hchan, State.run_q_of_short hcost hshort⟩

end Sys2Proof.Machine
end

section
/-! PROOFS. The notification of an incrementing burst (spec/42_dma_engine.md R208). -/

namespace Sys2Proof.Machine

/-! ### The turns emit no notification -/

/-- `t` comes from `s` by events none of which is a notification. -/
def SilentFrom (s t : State) : Prop :=
  ∃ es : List Event, t.trace = s.trace ++ es ∧ es.filter Event.isNotify = []

theorem SilentFrom.refl (s : State) : SilentFrom s s :=
  ⟨[], (List.append_nil _).symm, rfl⟩

theorem SilentFrom.trans {s t u : State} (h : SilentFrom s t) (h' : SilentFrom t u) : SilentFrom s u := by
  obtain ⟨es, ht, hes⟩ := h
  obtain ⟨es', hu, hes'⟩ := h'
  exact ⟨es ++ es', by rw [hu, ht, List.append_assoc], by rw [List.filter_append, hes, hes', List.append_nil]⟩

theorem silentFrom_copied (s : State) (src dst : Word) (n : Width) : SilentFrom s (copied s src dst n) :=
  ⟨_, rfl, rfl⟩

theorem silentFrom_unitTurn (s : State) (n : ChannelId) : SilentFrom s (s.unitTurn n) :=
  State.moveUnit_induct (fun t a d w h => h.trans (silentFrom_copied t a d w)) (s.chan n).sar (s.chan n).dar
    (chcrTS (s.chan n).chcr) (SilentFrom.refl s)

theorem silentFrom_turns (s : State) (n : ChannelId) (k : Nat) : SilentFrom s (s.turns n k) :=
  State.turns_induct (fun t h => h.trans (silentFrom_unitTurn t n)) (SilentFrom.refl s) k

/-! ### The hull of an incrementing burst -/

theorem State.turns_dar_of_increment {s : State} {n : ChannelId} (h : chcrDM (s.chan n).chcr = 1#2) (j : Nat) :
    ((s.turns n j).chan n).dar = (s.chan n).dar + BitVec.ofNat 32 (j * unitBytes (chcrTS (s.chan n).chcr)) := by
  rw [State.turns_dar (by rw [h]; decide), h, movedAddress_increment]

/-- Destination addresses that rise by the unit from `a` on: the hull is the bytes written. -/
theorem State.Hull.of_rising {s : State} {n : ChannelId} {k lo hi a : Nat} (h : s.Hull n k lo hi)
    (hrise : ∀ j < k, ((s.turns n j).chan n).dar.toNat = a + j * unitBytes (chcrTS (s.chan n).chcr)) :
    lo = a ∧ hi = a + k * unitBytes (chcrTS (s.chan n).chcr) := by
  obtain ⟨i, hi', hlo⟩ := h.loAttained
  obtain ⟨j, hj, hhi⟩ := h.hiAttained
  have hfirst := h.loLeast 0 (by omega)
  have hlast := h.hiGreatest (k - 1) (by omega)
  rw [hrise _ (by omega)] at hlo hhi hfirst hlast
  have hjk : (j + 1) * unitBytes (chcrTS (s.chan n).chcr) ≤ k * unitBytes (chcrTS (s.chan n).chcr) :=
    Nat.mul_le_mul_right _ hj
  have hk : (k - 1 + 1) * unitBytes (chcrTS (s.chan n).chcr) = k * unitBytes (chcrTS (s.chan n).chcr) := by
    rw [Nat.sub_add_cancel (by omega)]
  rw [Nat.succ_mul] at hjk hk
  constructor
  · omega
  · omega

theorem State.runOf_dar (s : State) (n : ChannelId) (b k : Nat) :
    ((s.runOf n b k).chan n).dar = (((s.addBudget n b).turns n k).chan n).dar := by
  rw [State.runOf_chan]
  split <;> rfl

/-- An address that does not wrap past 2^32. -/
theorem toNat_add_ofNat {a : Word} {d : Nat} (h : a.toNat + d < 2 ^ 32) :
    (a + BitVec.ofNat 32 d).toNat = a.toNat + d := by
  rw [BitVec.toNat_add, BitVec.toNat_ofNat]
  omega

/-- Settles O46: the turns are silent, and the hull of the burst is the bytes that they wrote. -/
theorem burstNotification : Obligations.BurstNotification := by
  intro s t n b c unitSize hlone hdm hwrap ht
  rw [exec_execPass_next ht, hlone.pass]
  obtain ⟨k, hk, hrun⟩ := s.run_turns n b.toNat
  obtain ⟨es, htrace, hes⟩ := silentFrom_turns (s.addBudget n b.toNat) n k
  have hchan : (s.addBudget n b.toNat).chan n = { c with clk := c.clk + b.toNat } := State.addBudget_chan s n _
  have hccr : ((s.addBudget n b.toNat).turns n k).blk.ccr = s.blk.ccr := by
    rw [State.turns_addBudget_blk, Block.setChan_ccr]
  have hcount : k ≤ c.tcr.toNat := by
    have hle := iterate_tcr_le n _ k hk.due
    rw [hchan] at hle
    exact (Nat.le_add_left _ _).trans hle
  have hdar (j : Nat) : (((s.addBudget n b.toNat).turns n j).chan n).dar = c.dar + BitVec.ofNat 32 (j * unitSize) := by
    rw [State.turns_dar_of_increment (by rw [hchan]; exact hdm), hchan]
    rfl
  have hlast : ((s.run n b.toNat).chan n).dar = c.dar + BitVec.ofNat 32 (k * unitSize) := by
    rw [hrun, State.runOf_dar, hdar]
  by_cases hnone : s.blk.ccr.getLsbD 0 = true ∨ k = 0
  · refine ⟨k, es, hcount, ?_, hlast, by rw [hes, if_pos hnone]⟩
    rw [hrun, State.runOf_trace, State.burstNotify_none (by rw [hccr]; exact hnone.symm), htrace]
    rfl
  · obtain ⟨hce, hk0⟩ := not_or.mp hnone
    obtain ⟨lo, hi, hull, hnotify⟩ := State.burstNotify_hull (s := s.addBudget n b.toNat)
      (t := (s.addBudget n b.toNat).turns n k) (n := n) hk0 (by rw [hccr]; exact Bool.eq_false_iff.mpr hce)
    have hunit : unitBytes (chcrTS ((s.addBudget n b.toNat).chan n).chcr) = unitSize := by rw [hchan]; rfl
    have hrise : ∀ j < k, (((s.addBudget n b.toNat).turns n j).chan n).dar.toNat = c.dar.toNat + j * unitSize := by
      intro j hj
      have hlt : j * unitSize < c.tcr.toNat * unitSize :=
        Nat.mul_lt_mul_of_pos_right (hj.trans_le hcount) (unitBytes_pos _)
      rw [hdar, toNat_add_ofNat (by omega)]
    obtain ⟨rfl, rfl⟩ := hull.of_rising (by rw [hunit]; exact hrise)
    refine ⟨k, es ++ [.notify s.cur c.dar (k * unitSize)], hcount, ?_, hlast, ?_⟩
    · rw [hrun, State.runOf_trace, hnotify, State.notify_trace, htrace, hunit, BitVec.ofNat_toNat, BitVec.setWidth_eq,
        Nat.add_sub_cancel_left, State.turns_cur, List.append_assoc]
      rfl
    · rw [List.filter_append, hes, if_neg hnone]
      rfl

end Sys2Proof.Machine
end

section
/-! PROOFS. A completed incrementing transfer copies its source range (spec/42_dma_engine.md R205 to R207). -/

namespace Sys2Proof.Machine

/-! ### Addresses -/

theorem beByte_beRead {n : Width} (f : Nat → Byte) {i : Nat} (hi : i < n.bytes) : beByte n (beRead f n) i = f i := by
  cases n with
  | byte =>
    obtain rfl : i = 0 := by simp only [Width.bytes] at hi; omega
    have h0 := (f 0).isLt
    apply BitVec.eq_of_toNat_eq
    simp only [beByte, beRead, Width.bytes, BitVec.extractLsb'_toNat, BitVec.toNat_setWidth, Nat.shiftRight_eq_div_pow]
    omega
  | word =>
    have h0 := (f 0).isLt
    have h1 := (f 1).isLt
    apply BitVec.eq_of_toNat_eq
    simp only [beByte, beRead, Width.bytes, BitVec.extractLsb'_toNat, BitVec.toNat_setWidth, toNat_append,
      Nat.shiftRight_eq_div_pow] at hi ⊢
    interval_cases i <;> omega
  | long => exact beByte_beRead_long f hi

theorem aligned_of_dvd {n : Width} {a : Word} (h : n.bytes ∣ a.toNat) : aligned n a = true := by
  cases n with
  | byte => rfl
  | word =>
    refine beq_iff_eq.mpr (BitVec.eq_of_toNat_eq ?_)
    simpa [BitVec.extractLsb'_toNat, Width.bytes] using Nat.mod_eq_zero_of_dvd h
  | long =>
    refine beq_iff_eq.mpr (BitVec.eq_of_toNat_eq ?_)
    simpa [BitVec.extractLsb'_toNat, Width.bytes] using Nat.mod_eq_zero_of_dvd h

/-- The bus address of an address further up, where the bus does not wrap (R12). -/
theorem toNat_busAddress_add_ofNat {a : Word} {d : Nat} (h : (busAddress a).toNat + d < 2 ^ 28) :
    (busAddress (a + BitVec.ofNat 32 d)).toNat = (busAddress a).toNat + d := by
  rw [toNat_busAddress] at h ⊢
  rw [toNat_busAddress, BitVec.toNat_add, BitVec.toNat_ofNat]
  omega

/-! ### A copy in progress -/

/-- The `total` bytes on the bus from `sar` on and those from `dar` on do not wrap and do not overlap. -/
structure CopyRanges (sar dar : Word) (total : Nat) : Prop where
  source      : (busAddress sar).toNat + total ≤ 2 ^ 28
  destination : (busAddress dar).toNat + total ≤ 2 ^ 28
  disjoint    : (busAddress sar).toNat + total ≤ (busAddress dar).toNat
    ∨ (busAddress dar).toNat + total ≤ (busAddress sar).toNat

/-- The bus is RAM, and against the bytes `m` of the start, the first `len` bytes from `dar` on are those from `sar`
on and all other bytes are as they were. -/
structure State.Copying (m : Memory) (sar dar : Word) (len : Nat) (t : State) : Prop where
  ram  : ∀ page, pageKindIn t.pages page = .ram
  wf   : t.bus.wf = true
  done : ∀ j < len, t.bus.read ((busAddress dar).toNat + j) = m.read ((busAddress sar).toNat + j)
  kept : ∀ k, k < (busAddress dar).toNat ∨ (busAddress dar).toNat + len ≤ k → t.bus.read k = m.read k

section
variable {m : Memory} {sar dar : Word} {len total : Nat} {t : State}

/-- The next access goes on with the copy (R206). -/
theorem State.Copying.copy {n : Width} (h : t.Copying m sar dar len) (hr : CopyRanges sar dar total)
    (hlen : len + n.bytes ≤ total) (hs : n.bytes ∣ (sar + BitVec.ofNat 32 len).toNat)
    (hd : n.bytes ∣ (dar + BitVec.ofNat 32 len).toNat) :
    (copied t (sar + BitVec.ofNat 32 len) (dar + BitVec.ofNat 32 len) n).Copying m sar dar (len + n.bytes) := by
  obtain ⟨hsource, hdest, hdisj⟩ := hr
  have hpos : 0 < n.bytes := by cases n <;> decide
  have hdst := toNat_busAddress_add_ofNat (a := dar) (d := len) (by omega)
  have hvalue {i : Nat} (hi : i < n.bytes) :
      beByte n (busAnswer t (sar + BitVec.ofNat 32 len) n 0) i = m.read ((busAddress sar).toNat + (len + i)) := by
    rw [busAnswer_of_onRam n 0 (h.ram _), Memory.readBE, beByte_beRead _ hi, busKey_of_aligned (aligned_of_dvd hs) hi,
      toNat_busAddress_add_ofNat (by omega), Nat.add_assoc]
    exact h.kept _ (by omega)
  refine ⟨h.ram, storedBus_wf _ n _ h.wf, fun j hj => ?_, fun k hk => ?_⟩
  · rcases Nat.lt_or_ge j len with hlt | hge
    · exact (storedBus_read_other _ (aligned_of_dvd hd) (by omega)).trans (h.done j hlt)
    · obtain ⟨i, rfl⟩ := Nat.exists_eq_add_of_le hge
      have hi : i < n.bytes := by omega
      rw [← hvalue hi, ← Nat.add_assoc, ← hdst]
      exact storedBus_read_self _ h.wf (h.ram _) (aligned_of_dvd hd) hi
  · exact (storedBus_read_other _ (aligned_of_dvd hd) (by omega)).trans (h.kept k (by omega))

/-- The four longs of a 16-byte unit (R206). -/
theorem State.Copying.longs (h : t.Copying m sar dar len) (hr : CopyRanges sar dar total) (hlen : len + 16 ≤ total)
    (hs : 4 ∣ (sar + BitVec.ofNat 32 len).toNat) (hd : 4 ∣ (dar + BitVec.ofNat 32 len).toNat) :
    (copiedLongs t (sar + BitVec.ofNat 32 len) (dar + BitVec.ofNat 32 len)).Copying m sar dar (len + 16) := by
  have hnext {i : Nat} {u : State} (hi : i < 4) (hu : u.Copying m sar dar (len + 4 * i)) :
      (copied u (sar + BitVec.ofNat 32 len + BitVec.ofNat 32 (4 * i))
        (dar + BitVec.ofNat 32 len + BitVec.ofNat 32 (4 * i)) .long).Copying m sar dar (len + 4 * (i + 1)) := by
    have haligned {a : Word} (ha : 4 ∣ a.toNat) : Width.long.bytes ∣ (a + BitVec.ofNat 32 (4 * i)).toNat := by
      change 4 ∣ _
      rw [BitVec.toNat_add, BitVec.toNat_ofNat]
      omega
    have hs' := haligned hs
    have hd' := haligned hd
    rw [BitVec.add_assoc, ← BitVec.ofNat_add] at hs' hd' ⊢
    rw [BitVec.add_assoc, ← BitVec.ofNat_add]
    exact hu.copy hr (by simp only [Width.bytes]; omega) hs' hd'
  exact hnext (i := 3) (by decide) (hnext (i := 2) (by decide) (hnext (i := 1) (by decide)
    (hnext (i := 0) (by decide) h)))

/-- One unit of a well-formed channel (R202, R206). -/
theorem State.Copying.moveUnit {ts : BitVec 2} (h : t.Copying m sar dar len) (hr : CopyRanges sar dar total)
    (hlen : len + unitBytes ts ≤ total) (hs : min (unitBytes ts) 4 ∣ (sar + BitVec.ofNat 32 len).toNat)
    (hd : min (unitBytes ts) 4 ∣ (dar + BitVec.ofNat 32 len).toNat) :
    (t.moveUnit (sar + BitVec.ofNat 32 len) (dar + BitVec.ofNat 32 len) ts).Copying m sar dar (len + unitBytes ts) := by
  rw [moveUnit_eq]
  obtain rfl | rfl | rfl | rfl := twoBits_cases ts
  · exact h.copy (n := .byte) hr hlen hs hd
  · exact h.copy (n := .word) hr hlen hs hd
  · exact h.copy (n := .long) hr hlen hs hd
  · exact h.longs hr hlen hs hd

/-- The turns of an incrementing channel (R205). -/
theorem State.Copying.turns {s : State} {n : ChannelId} {c : Channel} (hc : s.chan n = c) (hwf : ¬ Malformed c)
    (hsm : chcrSM c.chcr = 1#2) (hdm : chcrDM c.chcr = 1#2) (hr : CopyRanges c.sar c.dar total)
    (h : s.Copying m c.sar c.dar 0) (j : Nat) (hlen : j * unitBytes (chcrTS c.chcr) ≤ total) :
    (s.turns n j).Copying m c.sar c.dar (j * unitBytes (chcrTS c.chcr)) := by
  subst hc
  induction j with
  | zero => rwa [Nat.zero_mul]
  | succ j ih =>
    rw [Nat.succ_mul] at hlen ⊢
    rw [State.turns_succ]
    obtain ⟨-, -, hs, hd⟩ := (not_malformed_iff _).mp (State.turns_not_malformed hwf j)
    have hts : ((s.turns n j).chan n).chcr = (s.chan n).chcr := by rw [State.turns_chan]; rfl
    have hsar := State.turns_sar (s := s) (n := n) (by rw [hsm]; decide) j
    have hdar := State.turns_dar (s := s) (n := n) (by rw [hdm]; decide) j
    rw [hsm, movedAddress_increment] at hsar
    rw [hdm, movedAddress_increment] at hdar
    rw [hts, hsar] at hs
    rw [hts, hdar] at hd
    have hmove := (ih (by omega)).moveUnit (ts := chcrTS (s.chan n).chcr) hr hlen hs hd
    rw [← hsar, ← hdar, ← hts] at hmove
    rw [← hts]
    exact { hmove with }

end

/-- Settles O41: RUN makes the turns for all units, and they copy the range. -/
theorem completedTransferCopies : Obligations.CompletedTransferCopies := by
  intro s t n b cost c down len src dst hlone hsm hdm hcost hbudget hram hwf hsrc hdst hdisj ht
  have hunits : (c.tcr.toNat + down - 1) / down = c.unitsLeft s.params := by
    rw [Channel.unitsLeft, tcrStep_eq]
    rfl
  have hcovered : c.unitsLeft s.params * cost ≤ c.clk + b.toNat := by
    rw [← hunits]
    exact hbudget.trans (Nat.le_add_left _ _)
  have hlen : c.unitsLeft s.params * unitBytes (chcrTS c.chcr) = len := by
    rw [← hunits]
    rfl
  have hcopy := State.Copying.turns (State.addBudget_chan s n b.toNat) hlone.wellFormed hsm hdm ⟨hsrc, hdst, hdisj⟩
    ⟨hram, hwf, nofun, fun _ _ => rfl⟩ (c.unitsLeft s.params) hlen.le
  obtain ⟨hrun, -⟩ := State.run_of_covered hcost hcovered
  have hbus : (s.run n b.toNat).bus = ((s.addBudget n b.toNat).turns n (c.unitsLeft s.params)).bus := by
    rw [hrun, State.runOf_bus]
  rw [exec_execPass_next ht, hlone.pass, State.chan_with_result, State.run_chan_of_covered hcost hcovered]
  refine ⟨by simp [Channel.completed], fun j hj => ?_, fun k hk => ?_⟩
  · exact (congrArg (Memory.read · (dst + j)) hbus).trans (hcopy.done j (hlen.symm ▸ hj))
  · exact (congrArg (Memory.read · k) hbus).trans (hcopy.kept k (hlen.symm ▸ hk))

end Sys2Proof.Machine
end

section
/-! PROOFS. The interrupt encoder's commands (spec/43_interrupt_encoder.md R230 to R236): what IRQ and IACK decode to and
the state they leave, and which entry IRQ_OUT shows. -/

namespace Sys2Proof.Machine

/-! ### IRQ -/

theorem decode_irq (v : BitVec 8) (l : BitVec 4) (wd : Word) :
    decode (0x20#8 ++ BitVec.ofNat 24 l.toNat ++ v) wd = .ok (.irq v l) := by
  have hl := l.isLt
  have hword : (0x20#8 ++ BitVec.ofNat 24 l.toNat ++ v : BitVec 40) = 0x20#8 ++ 0#20 ++ l ++ v := by
    simp only [← BitVec.toNat_inj, toNat_append, BitVec.toNat_ofNat]
    omega
  rw [hword, decode_irqWord]
  rfl

theorem decode_irqNmi (v : BitVec 8) (wd : Word) :
    decode (0x20#8 ++ BitVec.ofNat 24 16 ++ v) wd = .ok (.irqNmi v) :=
  decode_irqWord 1#20 0#4 v wd

theorem requestIrq_dropped {v : BitVec 8} {lv : Nat} {s : State}
    (h : lv = 0 ∨ (∃ e ∈ s.blk.q, e.vector = v) ∨ s.params.irqCap ≤ s.blk.q.length) :
    requestIrq v lv s = .next { s with result := none } := by
  rw [requestIrq, Block.raiseIrq_dropped h, State.setBlk_blk, State.done_eq]

theorem requestIrq_queued {v : BitVec 8} {lv : Nat} {s : State}
    (h : ¬ (lv = 0 ∨ (∃ e ∈ s.blk.q, e.vector = v) ∨ s.params.irqCap ≤ s.blk.q.length)) :
    requestIrq v lv s = .next
      { s.setBlk { s.blk with q := s.blk.q ++ [⟨v, lv, s.blk.seq⟩], seq := s.blk.seq + 1 } with result := none } := by
  rw [requestIrq, Block.raiseIrq_queued h, State.done_eq]

/-- Settles O49: both forms of IRQ are one request, which RaiseIrq drops or queues. -/
theorem interruptRequests : Obligations.InterruptRequests := by
  intro v lv i s dropped hi
  have hrow : (∀ wd, decode (0x20#8 ++ BitVec.ofNat 24 lv ++ v) wd = .ok i) ∧ exec i s = requestIrq v lv s := by
    rcases hi with ⟨l, rfl, rfl⟩ | ⟨rfl, rfl⟩
    · exact ⟨decode_irq v l, rfl⟩
    · exact ⟨decode_irqNmi v, rfl⟩
  obtain ⟨hdecode, hexec⟩ := hrow
  rw [hexec]
  exact ⟨hdecode, requestIrq_dropped, requestIrq_queued⟩

/-! ### The entry that is shown -/

theorem shownBefore_iff {tie : Tie} {e f : Entry} :
    shownBefore tie e f = true ↔ f.level < e.level ∨ (f.level = e.level ∧ tieBefore tie e f = true) := by
  simp [shownBefore, eq_comm (a := f.level) (b := e.level)]

section
variable {tie : Tie} {b : Block} {m : Nat}

theorem Block.irqShown_of_best {e : Entry} (h : best tie b.q = some e) (hm : m < e.level) :
    b.irqShown tie m = some e := by
  simp only [Block.irqShown, h, if_pos hm]

/-- With every entry masked nothing is shown (R234). -/
theorem Block.irqShown_of_masked (h : ∀ e ∈ b.q, e.level ≤ m) : b.irqShown tie m = none := by
  cases hb : best tie b.q with
  | none => simp only [Block.irqShown, hb]
  | some e => simp only [Block.irqShown, hb, if_neg (Nat.not_lt.mpr (h e (best_mem hb)))]

/-- With an entry above the mask, BEST is above it and is shown (R234). -/
theorem Block.irqShown_of_pending {e : Entry} (he : e ∈ b.q) (hm : m < e.level) :
    ∃ f, best tie b.q = some f ∧ b.irqShown tie m = some f := by
  cases hb : best tie b.q with
  | none => exact absurd he (best_eq_none.mp hb ▸ List.not_mem_nil)
  | some f =>
    have hlevel : e.level ≤ f.level := Nat.not_lt.mp fun hlt =>
      Bool.false_ne_true ((not_shownBefore_best hb e he).symm.trans (shownBefore_iff.mpr (.inl hlt)))
    exact ⟨f, rfl, Block.irqShown_of_best hb (hm.trans_le hlevel)⟩

end

/-! ### IACK -/

section
variable {m : BitVec 4} {s : State}

theorem State.irqOut_cur : s.irqOut s.cur m =
    (s.blk.irqShown s.params.tie m.toNat).map fun e => (e.vector, e.level) := rfl

theorem exec_iack_of_none (h : s.blk.irqShown s.params.tie m.toNat = none) :
    exec (.iack m) s = .next { s with result := some 0#32 } := by
  simp only [exec, execIack, h, State.ret_eq]

theorem exec_iack_of_shown {e : Entry} (h : s.blk.irqShown s.params.tie m.toNat = some e) :
    exec (.iack m) s = .next { s.setBlk (s.blk.removeEntry e) with result := some (iackWord e) } := by
  simp only [exec, execIack, h, State.ret_eq]

end

/-- Settles O50: an entry that goes before all others is BEST, and the mask decides whether BEST is shown. -/
theorem interruptAcknowledge : Obligations.InterruptAcknowledge := by
  intro m wd s
  refine ⟨decode_iackWord m wd, fun hmasked => ?_, fun e he hm hfirst => ?_⟩
  · have hnone := Block.irqShown_of_masked (tie := s.params.tie) hmasked
    exact ⟨by rw [State.irqOut_cur, hnone]; rfl, exec_iack_of_none hnone⟩
  · have hbest : best s.params.tie s.blk.q = some e := best_of_first he fun f hf hne => by
      refine shownBefore_iff.mpr ((hfirst f hf hne).imp_right (And.imp_right fun hbefore => ?_))
      cases htie : s.params.tie <;> simpa [tieBefore, htie] using hbefore
    have hshown := Block.irqShown_of_best hbest hm
    refine ⟨by rw [State.irqOut_cur, hshown]; rfl, ?_⟩
    rw [exec_iack_of_shown hshown]
    simp [Block.removeEntry, iackWord]

/-! ### What an acknowledge passes over -/

/-- The numbers of the entries of Q are all different (R39). -/
theorem Block.QueueWf.seqs_nodup {cap : Nat} {b : Block} (h : b.QueueWf cap) : (b.q.map Entry.seq).Nodup :=
  List.pairwise_map.mpr (h.order.imp Nat.ne_of_lt)

theorem Block.mem_removeEntry {b : Block} {e f : Entry} : f ∈ (b.removeEntry e).q ↔ f ∈ b.q ∧ f ≠ e := by
  simp [Block.removeEntry]

/-- Q holds an entry once, so its removal takes one entry out (R235). -/
theorem Block.QueueWf.length_removeEntry {cap : Nat} {b : Block} (h : b.QueueWf cap) {e : Entry} (he : e ∈ b.q) :
    (b.removeEntry e).q.length + 1 = b.q.length := by
  have herase : (b.removeEntry e).q = b.q.erase e := by
    rw [(h.seqs_nodup.of_map _).erase_eq_filter]
    rfl
  rw [herase, List.length_erase_of_mem he, Nat.sub_add_cancel (List.length_pos_of_mem he)]

/-- Under the default TIE every other entry has a lower level than BEST, or its level and a later number (R234). -/
theorem Block.QueueWf.after_best {cap : Nat} {b : Block} (h : b.QueueWf cap) {e f : Entry}
    (hb : best .earliest b.q = some e) (hf : f ∈ b.q) (hne : f ≠ e) :
    f.level < e.level ∨ (f.level = e.level ∧ e.seq < f.seq) := by
  have hseq : f.seq ≠ e.seq := fun heq => hne (List.inj_on_of_nodup_map h.seqs_nodup hf (best_mem hb) heq)
  have hnot : ¬ (e.level < f.level ∨ (e.level = f.level ∧ f.seq < e.seq)) := fun hbefore =>
    Bool.false_ne_true ((not_shownBefore_best hb f hf).symm.trans
      (shownBefore_iff.mpr (hbefore.imp_right (And.imp_right decide_eq_true))))
  omega

/-- Settles O51: BEST is shown and leaves Q, and what stays comes after it. -/
theorem acknowledgeTakesTheBest : Obligations.AcknowledgeTakesTheBest := by
  intro m s t hwf htie ⟨p, hp, hm⟩ ht
  obtain ⟨e, hbest, hshown⟩ := Block.irqShown_of_pending (tie := s.params.tie) hp hm
  have hblk : t.blk = s.blk.removeEntry e := by
    rw [exec_iack_of_shown hshown] at ht
    cases ht
    exact State.blk_setBlk s _
  have he := best_mem hbest
  rw [htie] at hbest
  rw [State.irqOut_cur, hshown, hblk]
  refine ⟨e, he, rfl, fun hmem => (Block.mem_removeEntry.mp hmem).2 rfl, hwf.length_removeEntry he, fun f hf => ?_⟩
  obtain ⟨hf, hne⟩ := Block.mem_removeEntry.mp hf
  exact hwf.after_best hbest hf hne

end Sys2Proof.Machine
end

section
/-! PROOFS. Which commands can change the interrupt queue (spec/43_interrupt_encoder.md R236 e): the cache, the bus and
the registers hold no part of Q and SEQ. -/

namespace Sys2Proof.Machine

/-- The addressed block of `t` has the Q and the SEQ of that of `s`. -/
structure State.SameQueue (s t : State) : Prop where
  q   : t.blk.q = s.blk.q
  seq : t.blk.seq = s.blk.seq

section
variable {s t u : State}

theorem State.SameQueue.trans (h : s.SameQueue u) (h' : u.SameQueue t) : s.SameQueue t :=
  ⟨h'.q.trans h.q, h'.seq.trans h.seq⟩

theorem State.sameQueue_with_result (r : Option Word) : s.SameQueue { s with result := r } :=
  ⟨rfl, rfl⟩

theorem State.sameQueue_setBlk {b : Block} (hq : b.q = s.blk.q) (hseq : b.seq = s.blk.seq) :
    s.SameQueue (s.setBlk b) := by
  constructor <;> rwa [State.blk_setBlk]

theorem State.sameQueue_setChan (n : ChannelId) (c : Channel) : s.SameQueue (s.setChan n c) :=
  State.sameQueue_setBlk (Block.setChan_q _ n c) (Block.setChan_seq _ n c)

theorem State.SameQueue.ret {v : Word} (ht : u.ret v = .next t) (h : s.SameQueue u) : s.SameQueue t := by
  rw [State.ret_next ht]
  exact h.trans (State.sameQueue_with_result _)

theorem State.SameQueue.done (ht : u.done = .next t) (h : s.SameQueue u) : s.SameQueue t := by
  rw [State.done_next ht]
  exact h.trans (State.sameQueue_with_result _)

/-! ### The cache -/

theorem State.sameQueue_afterCacheRead (a : Word) : s.SameQueue (s.afterCacheRead a) := by
  cases hl : s.blk.lookup a with
  | some w =>
    rw [State.afterCacheRead_of_hit hl]
    exact State.sameQueue_setBlk rfl rfl
  | none =>
    rw [State.afterCacheRead_of_miss hl]
    constructor <;> rw [State.fill_blk] <;> rfl

theorem State.sameQueue_cacheWrite (a : Word) (n : Width) (v : Word) : s.SameQueue (s.cacheWrite a n v) := by
  have hblk : s.SameQueue (s.setBlk (s.blk.writeHit s.params.lru a n v)) := by
    cases hl : s.blk.lookup a with
    | some w =>
      rw [Block.writeHit_of_hit v hl]
      exact State.sameQueue_setBlk rfl rfl
    | none =>
      rw [Block.writeHit_of_miss v hl, State.setBlk_blk]
      exact ⟨rfl, rfl⟩
  exact hblk.trans ⟨rfl, rfl⟩

theorem State.sameQueue_invalidateAll : s.SameQueue s.invalidateAll := by
  rw [State.invalidateAll_eq]
  exact (State.sameQueue_setBlk (b := s.blk.invalidateAll) rfl rfl).trans ⟨rfl, rfl⟩

/-! ### The commands -/

theorem cachedRead_sameQueue {n : Width} {low : BitVec 29} (ht : cachedRead n low s = .next t) : s.SameQueue t := by
  rw [(cachedRead_next ht).2]
  split
  · exact (State.sameQueue_afterCacheRead _).trans (State.sameQueue_with_result _)
  · exact ⟨rfl, rfl⟩

theorem cachedWrite_sameQueue {n : Width} {low : BitVec 29} {wd : Word} (ht : cachedWrite n low wd s = .next t) :
    s.SameQueue t := by
  rw [(cachedWrite_next ht).2]
  split
  · exact (State.sameQueue_cacheWrite _ _ _).trans (State.sameQueue_with_result _)
  · exact ⟨rfl, rfl⟩

theorem purgeWrite_sameQueue {n : Width} {low : BitVec 29} (ht : purgeWrite n low s = .next t) : s.SameQueue t := by
  obtain ⟨x, hx⟩ := s.blk.purgeOne_frame (fullAddress 0b010#3 low)
  rw [(purgeWrite_next ht).2, hx]
  exact (State.sameQueue_setBlk (b := { s.blk with lines := x }) rfl rfl).trans (State.sameQueue_with_result _)

theorem exec_wrCcr_sameQueue {wd : Word} (ht : exec (.wrCcr wd) s = .next t) : s.SameQueue t := by
  have hccr : s.SameQueue (s.setBlk { s.blk with ccr := ccrWritten wd }) := State.sameQueue_setBlk rfl rfl
  simp only [exec, execWrCcr] at ht
  split at ht
  · exact .done ht (hccr.trans State.sameQueue_invalidateAll)
  · exact .done ht hccr

end

/-- Settles O52: every command left stores registers, changes the cache or accesses the bus. -/
theorem onlyTheseChangeTheQueue : Obligations.OnlyTheseChangeTheQueue := by
  intro i s t hirq hnmi hiack hreset hpoweron hpass hchcr ht
  suffices h : s.SameQueue t from ⟨h.q, h.seq⟩
  cases i
  case irq v l => exact absurd rfl (hirq v l)
  case irqNmi v => exact absurd rfl (hnmi v)
  case iack m => exact absurd rfl (hiack m)
  case reset => exact absurd rfl hreset
  case poweron => exact absurd rfl hpoweron
  case execPass c => exact absurd rfl (hpass c)
  case wrChcr0 wd => exact absurd rfl (hchcr .ch0 wd)
  case wrChcr1 wd => exact absurd rfl (hchcr .ch1 wd)
  case crdB => exact cachedRead_sameQueue (n := .byte) ht
  case crdW => exact cachedRead_sameQueue (n := .word) ht
  case crdL => exact cachedRead_sameQueue (n := .long) ht
  case cwrB => exact cachedWrite_sameQueue (n := .byte) ht
  case cwrW => exact cachedWrite_sameQueue (n := .word) ht
  case cwrL => exact cachedWrite_sameQueue (n := .long) ht
  case purgeB => exact purgeWrite_sameQueue (n := .byte) ht
  case purgeW => exact purgeWrite_sameQueue (n := .word) ht
  case purgeL => exact purgeWrite_sameQueue (n := .long) ht
  case urdB | prdB | aardB | dardB | rsvrdB | regrsvRdB => exact .ret ht ⟨rfl, rfl⟩
  case urdW | prdW | aardW | dardW | rsvrdW | regrsvRdW => exact .ret (guardAligned_next (n := .word) ht).2 ⟨rfl, rfl⟩
  case urdL | prdL | aardL | dardL | rsvrdL | regrsvRdL => exact .ret (guardAligned_next (n := .long) ht).2 ⟨rfl, rfl⟩
  case uwrB | aawrB | rsvwrB | regrsvWrB => exact .done ht ⟨rfl, rfl⟩
  case uwrW | aawrW | rsvwrW | regrsvWrW => exact .done (guardAligned_next (n := .word) ht).2 ⟨rfl, rfl⟩
  case uwrL | rsvwrL | regrsvWrL => exact .done (guardAligned_next (n := .long) ht).2 ⟨rfl, rfl⟩
  case dawrB => exact .done ht (State.sameQueue_setBlk rfl rfl)
  case dawrW => exact .done (guardAligned_next (n := .word) ht).2 (State.sameQueue_setBlk rfl rfl)
  case dawrL | aawrL => exact .done (guardAligned_next (n := .long) ht).2 (State.sameQueue_setBlk rfl rfl)
  case rdSar0 | rdDar0 | rdTcr0 | rdSar1 | rdDar1 | rdTcr1 | rdVcrdma0 | rdVcrdma1 | rdDmaor | rdCcr | rdIpra =>
    exact .ret ht ⟨rfl, rfl⟩
  case wrSar0 | wrDar0 | wrTcr0 | wrSar1 | wrDar1 | wrTcr1 | wrVcrdma0 | wrVcrdma1 =>
    exact .done ht (State.sameQueue_setChan _ _)
  case rdChcr0 | rdChcr1 => exact .ret ht (State.sameQueue_setChan _ _)
  case wrDmaor | wrIpra | latchNmif | latchAe => exact .done ht (State.sameQueue_setBlk rfl rfl)
  case wrCcr => exact exec_wrCcr_sameQueue ht
  case busSz3 | clsRsv7 | clsRsv8 => cases ht

end Sys2Proof.Machine
end

section
/-! PROOFS. The two instances share nothing (spec/60_exceptions.md R266, spec/10_state.md R43): what no part of a command
can change. -/

namespace Sys2Proof.Machine

/-- What no command changes: the instance it does not address, the page map, the parameters and the pending inputs. -/
structure State.CommandFrame (s t : State) : Prop where
  block   : ∀ ctx, ctx ≠ s.cur → t.instOf ctx = s.instOf ctx
  powered : ∀ ctx, ctx ≠ s.cur → t.poweredOn ctx = s.poweredOn ctx
  cur     : t.cur = s.cur
  pages   : t.pages = s.pages
  params  : t.params = s.params
  inputs  : t.inputs = s.inputs

theorem State.CommandFrame.refl (s : State) : s.CommandFrame s :=
  ⟨fun _ _ => rfl, fun _ _ => rfl, rfl, rfl, rfl, rfl⟩

theorem State.CommandFrame.setBlk {s t : State} (h : s.CommandFrame t) (b : Block) : s.CommandFrame (t.setBlk b) :=
  { h with block := fun ctx hctx => (State.instOf_setBlk_other t b (h.cur.symm ▸ hctx)).trans (h.block ctx hctx) }

/-- POWERON turns on the addressed instance only (R280). -/
theorem State.poweredOn_powered_other (s : State) {ctx : ContextId} (h : ctx ≠ s.cur) :
    State.poweredOn { s with
      masterOn := if s.cur = .master then true else s.masterOn
      slaveOn := if s.cur = .slave then true else s.slaveOn } ctx = s.poweredOn ctx := by
  cases ctx with
  | master => exact if_neg h.symm
  | slave => exact if_neg h.symm

/-- Every part of a command changes the addressed instance, the bus, the trace or the result port only. -/
theorem kept_commandFrame (s : State) : Kept s.CommandFrame where
  read _ _ _ h := { h with }
  write _ _ _ _ h := { h with }
  notify _ _ _ h := { h with }
  block _ b _ h := h.setBlk b
  result _ _ h := { h with }
  powered t h := { h with
    powered := fun ctx hctx => (t.poweredOn_powered_other (h.cur.symm ▸ hctx)).trans (h.powered ctx hctx) }

theorem commandFrame_of_exec {i : Instr} {s t : State} (h : exec i s = .next t) : s.CommandFrame t :=
  (kept_commandFrame s).exec (fun _ _ _ hs => hs.setBlk _) h (.refl s)

/-- Settles O60: every part of a command keeps `State.CommandFrame`, so a command does. -/
theorem instancesShareNothing : Obligations.InstancesShareNothing := by
  intro i s t h
  obtain ⟨hblock, hpowered, hcur, hpages, hparams, hinputs⟩ := commandFrame_of_exec h
  refine ⟨fun hc => ?_, fun hc => ?_, hcur, hpages, hparams, hinputs⟩
  · have hne : ContextId.slave ≠ s.cur := by rw [hc]; nofun
    exact ⟨hblock .slave hne, hpowered .slave hne⟩
  · have hne : ContextId.master ≠ s.cur := by rw [hc]; nofun
    exact ⟨hblock .master hne, hpowered .master hne⟩

end Sys2Proof.Machine
end

section
/-! PROOFS. The reset commands (spec/70_reset_and_hazards.md R280, R281, spec/10_state.md R44): the state that RESET and
POWERON leave, and what an instance before its first POWERON accepts. -/

namespace Sys2Proof.Machine

/-- The registers and Q, and the cache arrays of InvalidateAll, are one change of the block (R281, R126). -/
theorem State.resetBlock_eq (s : State) :
    s.resetBlock =
      { s.setBlk s.blk.resetRegisters.invalidateAll with trace := s.trace ++ windowEvents s } := by
  rw [State.resetBlock, State.invalidateAll_eq, State.blk_setBlk, State.setBlk_setBlk]
  rfl

/-- After POWERON nothing of the block's old contents is left (R280, R44). -/
theorem Block.powerOn_eq (b : Block) :
    Block.invalidateAll (Block.resetRegisters { b with data := [], da := [] }) = Block.powerOn := rfl

theorem State.powerOnBlock_eq (s : State) :
    s.powerOnBlock =
      { s.setBlk Block.powerOn with
        masterOn := s.masterOn || decide (s.cur = .master)
        slaveOn := s.slaveOn || decide (s.cur = .slave)
        trace := s.trace ++ windowEvents s } := by
  rw [State.powerOnBlock, State.resetBlock_eq, State.blk_setBlk, State.setBlk_setBlk, Block.powerOn_eq,
    Bool.or_comm s.masterOn, Bool.or_comm s.slaveOn, ← Bool.if_true_left, ← Bool.if_true_left]
  rfl

theorem State.accepts_eq_false {s : State} {i : Instr} (hi : i ≠ .poweron) (hoff : s.poweredOn s.cur = false) :
    s.accepts i = false := by
  rw [← Bool.not_eq_true, State.accepts_iff, hoff]
  exact not_or.mpr ⟨hi, nofun⟩

/-- Settles O53: RESET is one change of the block and the notifications of InvalidateAll, and POWERON the same from a
block whose DATA and DA are empty. -/
theorem resetCommands : Obligations.ResetCommands := by
  intro wd s ch b
  have hreset : execReset s = .next
      { s.setBlk (b s.blk.data s.blk.da) with trace := s.trace ++ windowEvents s, result := none } := by
    rw [execReset, State.resetBlock_eq, State.done_eq]
    rfl
  have hpoweron : execPoweron s = .next
      { s.setBlk (b [] []) with
        masterOn := s.masterOn || decide (s.cur = .master)
        slaveOn := s.slaveOn || decide (s.cur = .slave)
        trace := s.trace ++ windowEvents s, result := none } := by
    rw [execPoweron, State.powerOnBlock_eq, State.done_eq]
    rfl
  refine ⟨rfl, hreset, rfl, hpoweron, fun _ => rfl, fun i hi hoff => ?_⟩
  exact State.accepts_eq_false hi ((s.poweredOn_eq s.cur).trans hoff)

end Sys2Proof.Machine
end

section
/-! PROOFS. A step without a command (spec/10_state.md R25, spec/20_memory.md R72), and the machine right after reset
(spec/10_state.md R44). -/

namespace Sys2Proof.Machine

/-! ### A step without a command -/

theorem step_idle {s : State} (hs : s.inputs = []) : step s = .next s := by
  simp only [step, hs]

theorem step_busMaster {s : State} {a : Word} {n : Width} {v : Word} {rest : List Input}
    (hs : s.inputs = .busMaster a n v :: rest) : step s = .next (s.otherMaster rest a n v) := by
  simp only [step, hs]

theorem State.otherMaster_eq (s : State) (rest : List Input) (a : Word) (n : Width) (v : Word) :
    s.otherMaster rest a n v = { s with inputs := rest, bus := storedBus s a n v } := by
  rw [State.otherMaster, State.busStored_eq]

/-- Settles O8: an empty list of inputs makes the step idle, and `otherMaster` stores what `storedBus` says. -/
theorem idleAndOtherMasters : Obligations.IdleAndOtherMasters := by
  intro s
  refine ⟨step_idle, fun a n v rest hs => ?_⟩
  rw [step_busMaster hs, State.otherMaster_eq]

/-! ### The state after reset -/

theorem State.instOf_reset (ctx : ContextId) : State.reset.instOf ctx = Block.powerOn := by
  cases ctx <;> rfl

theorem Block.chan_powerOn (n : ChannelId) : Block.powerOn.chan n = Channel.reset := by
  cases n <;> rfl

theorem Block.line_powerOn (l : Fin 64) : Block.powerOn.line l = Line.invalid :=
  Block.powerOn.invalidateAll_line l

theorem Line.invalid_slots (w : Fin 4) : Line.invalid.slots[w] = ⟨false, 0⟩ := by
  simp only [Line.invalid, Fin.getElem_fin, Vector.getElem_replicate]

/-- Settles O54: either context owns the block of POWERON, whose channels, lines and byte stores are all cleared. -/
theorem resetState : Obligations.ResetState := by
  intro ctx b
  have hb : b = Block.powerOn := State.instOf_reset ctx
  rw [hb]
  have hlru (l : Fin 64) : (Block.powerOn.line l).lru = 0 := by rw [Block.line_powerOn]; rfl
  have hslots (l : Fin 64) (w : Fin 4) : (Block.powerOn.line l).slots[w] = ⟨false, 0⟩ := by
    rw [Block.line_powerOn, Line.invalid_slots]
  exact ⟨Block.chan_powerOn, rfl, rfl, rfl, rfl, rfl, hlru, hslots, fun _ => rfl, fun _ => rfl, rfl, rfl⟩

end Sys2Proof.Machine
end
